-- ==== Sys2Proof/Word.lean ====
section
/-! DEFINITION. The byte, byte sequences, and the value records the spec passes by value
(10_state.md R32 to R36), with the closed vocabularies of roles, error kinds, message ids and
refusal reasons (R35, 60_exceptions.md R320, 30_encoding.md R133, R134). -/

namespace Sys2Proof

/-- A byte: 8 bits, bit 7 the most significant (00_scope.md R17). -/
abbrev Byte := BitVec 8

/-- A finite byte sequence `B`; its length is part of its value (R18, 20_memory.md R70). -/
abbrev Bytes := List Byte

/-- An 8-bit ADU channel id (R15). -/
abbrev ChannelId := BitVec 8

/-- A 14-bit ADU segment count (R10, R11). -/
abbrev SegmentCount := BitVec 14

/-- A PrimaryHeader value: seven unsigned fields, each of exactly its width (10_state.md R32). -/
structure PrimaryHeader where
  versionNumber : BitVec 3
  packetType : BitVec 1
  secondaryHeaderFlag : BitVec 1
  applicationId : BitVec 11
  sequenceFlag : BitVec 2
  sequenceCount : BitVec 14
  packetDataLength : BitVec 16
  deriving DecidableEq, Repr

/-- The four bytes of the opaque time field, in wire order; never read as a number
(R33, 20_memory.md R74). -/
structure TimeField where
  byte0 : Byte
  byte1 : Byte
  byte2 : Byte
  byte3 : Byte
  deriving DecidableEq, Repr

/-- The channel triple of a secondary header (R33). -/
structure AduChannel where
  aduChannelId : ChannelId
  aduSegmentFlag : BitVec 2
  aduSegmentCount : SegmentCount
  deriving DecidableEq, Repr

/-- A SecondaryHeader value (R33). `channel` is present exactly when `secondaryHeaderType` is 1, so
the type bit is not stored twice: it is computed from `channel`
(`SecondaryHeader.secondaryHeaderType`, Decode.lean; log 11). -/
structure SecondaryHeader where
  time : TimeField
  category : BitVec 7
  aduCount : BitVec 8
  channel : Option AduChannel
  deriving DecidableEq, Repr

/-- A SpacePacket value (R34). It is well formed when `secondary` is present exactly when the primary
header's `secondaryHeaderFlag` is 1. -/
structure SpacePacket where
  primary : PrimaryHeader
  secondary : Option SecondaryHeader
  payload : Bytes
  deriving DecidableEq, Repr

/-- An ADU value, the reassembled product (R36). -/
structure Adu where
  channelId : ChannelId
  category : BitVec 7
  packetType : BitVec 1
  apidUpper : BitVec 3
  apidLower : BitVec 8
  aduCount : BitVec 8
  timeField : TimeField
  data : Bytes
  deriving DecidableEq, Repr

/-- A segment role (R35); its 2-bit code is `SegmentRole.code` (Machine/Operands.lean). -/
inductive SegmentRole where
  | continuation
  | first
  | last
  | unsegmented
  deriving DecidableEq, Repr

/-- The error kinds of 60_exceptions.md R320, codes 1 to 10. -/
inductive ErrorKind where
  | notASpacePacket
  | malformedHeader
  | headerTooShort
  | malformedPacket
  | channelMismatch
  | illegalSegmentTransition
  | segmentDiscontinuity
  | reassemblyError
  | notComplete
  | noCompletedAdu
  deriving DecidableEq, Repr

/-- The message ids of 30_encoding.md R133, codes 0 to 5. -/
inductive MessageId where
  | noMessage
  | continuationWithNoOpener
  | lastWithNoOpener
  | unsegmentedMidAdu
  | firstMidAdu
  | counterDiscontinuity
  deriving DecidableEq, Repr

/-- The refusal reasons of 30_encoding.md R134, codes 1 to 11 in this order. -/
inductive RefusalReason where
  /-- 1: unassigned opcode (R126) -/
  | unassignedOpcode
  /-- 2: frame truncated or with trailing bytes (R126) -/
  | badFrameLength
  /-- 3: a scalar wider than its field, or a Boolean not 0/1 (R124) -/
  | operandTooWide
  /-- 4: BitFieldCodec width, bounds or value out of range (40_bitfield.md R152) -/
  | bitFieldOutOfRange
  /-- 5: a packet with `secondaryPresent ≠ secondaryHeaderFlag` (R125) -/
  | presenceMismatch
  /-- 6: encode of a primary header with a version other than 0 (41_primary_header.md R171) -/
  | versionNotZero
  /-- 7: `SH_DECODE` with `length > |bytes|` (42_secondary_header.md R203) -/
  | lengthBeyondBytes
  /-- 8: encode of a packet with an empty data field (43_space_packet.md R225) -/
  | emptyDataField
  /-- 9: encode of a packet whose data field exceeds 65536 bytes (R226) -/
  | dataFieldTooLong
  /-- 10: push of a packet with no ADU channel (44_segment_accumulator.md R252) -/
  | noAduChannel
  /-- 11: `SA_PUSH` or `SA_FINALIZE` with `st.sa` absent (R267, R269) -/
  | noAccumulator
  deriving DecidableEq, Repr

end Sys2Proof
end

