-- ==== Sys2Proof/Config.lean ====
section
/-! DEFINITION. What is fixed for one block: the parameters of 00_scope.md R12, the counter modulus
of R11, and the free values the spec leaves open (no body: nothing can prove a value of them). -/

namespace Sys2Proof.Config

/-- The width of the ADU segment count field (R10). -/
def aduSegmentCountWidth : Nat := 14

/-- `N_MAX_ADU_SEGMENT_COUNT = 16384`, tied to the field width (R11). -/
def nMaxAduSegmentCount : Nat := 2 ^ aduSegmentCountWidth

/-- The parameter `APP_ID_LOW`, OPEN in R12 and latched at reset (R360). DESIGN CHOICE: an
uninterpreted constant (log 1). -/
opaque appIdLow : Byte

/-- The parameter `RS_WATCH` at its default, the constant function false (R12): no channel id is
listed as watching (log 2). -/
def rsWatch : List ChannelId := []

/-- Whether the empty frame is refused as truncated (reason 2) or as having no opcode (reason 1):
R126 refuses it and does not say which. DESIGN CHOICE: a free value (log 7). -/
opaque emptyFrameIsTruncated : Bool

/-- The u32 length field of a `seq` of `n` bytes when `n` is 2^32 or more, which R120 does not give.
DESIGN CHOICE: a free value (log 8). -/
opaque oversizeSeqLength : Nat → BitVec 32

end Sys2Proof.Config
end

