-- ==== Sys2Proof/Syntax.lean ====
section
/-! DEFINITION. The commands of 30_encoding.md R122, one constructor per row of
spec/opcode_table.json, with their operands as values (10_state.md R30: by value, no register). -/

namespace Sys2Proof

/-- One command with its operands (R120 to R122). -/
inductive Instr where
  /-- BF_DECODE, 40_bitfield.md R154 -/
  | bfDecode (bitOffset : BitVec 16) (width : Byte) (bytes : Bytes)
  /-- BF_ENCODE, R155 -/
  | bfEncode (bitOffset : BitVec 16) (width : Byte) (value : BitVec 16) (bytes : Bytes)
  /-- PH_ENCODE, 41_primary_header.md R171 -/
  | phEncode (h : PrimaryHeader)
  /-- PH_DECODE, R172 -/
  | phDecode (bytes : Bytes)
  /-- PH_IS_SEGMENTED, R175 -/
  | phIsSegmented (h : PrimaryHeader)
  /-- PH_IS_FIRST, R176 -/
  | phIsFirst (h : PrimaryHeader)
  /-- PH_IS_CONTINUATION, R177 -/
  | phIsContinuation (h : PrimaryHeader)
  /-- PH_IS_LAST, R178 -/
  | phIsLast (h : PrimaryHeader)
  /-- PH_IS_UNSEGMENTED, R179 -/
  | phIsUnsegmented (h : PrimaryHeader)
  /-- SH_ENCODE, 42_secondary_header.md R201 -/
  | shEncode (h : SecondaryHeader)
  /-- SH_DECODE, R203 -/
  | shDecode (length : BitVec 32) (bytes : Bytes)
  /-- SH_LENGTH, R204 -/
  | shLength (h : SecondaryHeader)
  /-- SP_ENCODE, 43_space_packet.md R223 -/
  | spEncode (x : SpacePacket)
  /-- SP_DECODE, R228 -/
  | spDecode (bytes : Bytes)
  /-- SP_HAS_SECONDARY, R231 -/
  | spHasSecondary (x : SpacePacket)
  /-- SA_INIT, 44_segment_accumulator.md R250 -/
  | saInit (channelId : ChannelId) (watch : Bool)
  /-- SA_PUSH, R267 -/
  | saPush (x : SpacePacket)
  /-- SA_FINALIZE, R269 -/
  | saFinalize
  /-- RS_PUSH_BYTES, 45_reassembler.md R291 -/
  | rsPushBytes (bytes : Bytes)
  /-- RS_PUSH_PACKET, R292 -/
  | rsPushPacket (x : SpacePacket)
  /-- RS_HAS_COMPLETED, R301 -/
  | rsHasCompleted
  /-- RS_POP_COMPLETED, R302 -/
  | rsPopCompleted
  deriving DecidableEq, Repr

end Sys2Proof
end

