-- ==== Sys2Proof/WellFormed.lean ====
section
/-! DEFINITION. The commands a frame can carry: every `seq` operand fits its u32 length
(30_encoding.md R120) and every packet operand is well formed (R125, 10_state.md R34). Field widths
(R124) and the channel's presence (R33) hold by the types of Word.lean. -/

namespace Sys2Proof

/-- A `seq` operand's length fits its u32 length field (R120). -/
def Bytes.fitsSeq (B : Bytes) : Bool := decide (B.length < 2 ^ 32)

/-- R34: the secondary header is present exactly when `secondaryHeaderFlag` is 1. -/
def SpacePacket.wellFormed (x : SpacePacket) : Bool :=
  x.secondary.isSome == (x.primary.secondaryHeaderFlag == 1#1)

/-- A packet operand: well formed (R125), with a payload its `seq` can carry (R121). -/
def SpacePacket.operandOk (x : SpacePacket) : Bool := x.wellFormed && Bytes.fitsSeq x.payload

/-- A command that some frame carries (R120, R121, R125). -/
def Instr.wellFormed : Instr → Bool
  | .bfDecode _ _ bytes => Bytes.fitsSeq bytes
  | .bfEncode _ _ _ bytes => Bytes.fitsSeq bytes
  | .phEncode _ => true
  | .phDecode bytes => Bytes.fitsSeq bytes
  | .phIsSegmented _ => true
  | .phIsFirst _ => true
  | .phIsContinuation _ => true
  | .phIsLast _ => true
  | .phIsUnsegmented _ => true
  | .shEncode _ => true
  | .shDecode _ bytes => Bytes.fitsSeq bytes
  | .shLength _ => true
  | .spEncode x => x.operandOk
  | .spDecode bytes => Bytes.fitsSeq bytes
  | .spHasSecondary x => x.operandOk
  | .saInit _ _ => true
  | .saPush x => x.operandOk
  | .saFinalize => true
  | .rsPushBytes bytes => Bytes.fitsSeq bytes
  | .rsPushPacket x => x.operandOk
  | .rsHasCompleted => true
  | .rsPopCompleted => true

end Sys2Proof
end

