-- ==== Sys2Proof/Decode.lean ====
section
/-! DEFINITION. Command frames to commands and back (30_encoding.md R120 to R127), the record blocks
of R121 in both directions, and the opcode table's words. Decoding is total: every byte sequence is
one command or refused with its reason (R126), in the order of 60_exceptions.md R325: opcode, length,
field widths, packet well-formedness. -/

namespace Sys2Proof

/-! ### Scalars and sequences, written (R120) -/

/-- A `u16`, big-endian. -/
def u16Bytes (v : BitVec 16) : Bytes := [v.extractLsb' 8 8, v.extractLsb' 0 8]

/-- A `u32`, big-endian. -/
def u32Bytes (v : BitVec 32) : Bytes :=
  [v.extractLsb' 24 8, v.extractLsb' 16 8, v.extractLsb' 8 8, v.extractLsb' 0 8]

/-- A scalar of at most 8 bits, right-aligned in a `u8` (R121). -/
def u8Of {n : Nat} (v : BitVec n) : Byte := v.setWidth 8

/-- A scalar of at most 16 bits, right-aligned in a `u16` (R121). -/
def u16Of {n : Nat} (v : BitVec n) : Bytes := u16Bytes (v.setWidth 16)

/-- A Boolean `u8`: 0 or 1 (R122). -/
def boolByte (b : Bool) : Byte := if b then 1 else 0

/-- The `u32` length of a `seq`; a length that 32 bits cannot hold is a free value (log 8). -/
def seqLength (n : Nat) : BitVec 32 :=
  if n < 2 ^ 32 then BitVec.ofNat 32 n else Config.oversizeSeqLength n

/-- A byte-sequence operand or result: its `u32` length, then its bytes (R120). -/
def seqBlock (B : Bytes) : Bytes := u32Bytes (seqLength B.length) ++ B

/-! ### Record blocks, written (R121) -/

/-- R33: the type bit is 1 exactly when the channel triple is present (log 11). -/
def SecondaryHeader.secondaryHeaderType (s : SecondaryHeader) : BitVec 1 :=
  if s.channel.isSome then 1 else 0

/-- The four time bytes in wire order (R33). -/
def TimeField.bytes (t : TimeField) : Bytes := [t.byte0, t.byte1, t.byte2, t.byte3]

/-- The `PH` block: 10 bytes (R121). -/
def phBlock (h : PrimaryHeader) : Bytes :=
  [u8Of h.versionNumber, u8Of h.packetType, u8Of h.secondaryHeaderFlag] ++
  u16Of h.applicationId ++ [u8Of h.sequenceFlag] ++ u16Of h.sequenceCount ++
  u16Of h.packetDataLength

/-- The last three fields of an `SH` block, present iff the type is 1 (R121). -/
def channelBlock (c : AduChannel) : Bytes :=
  [u8Of c.aduChannelId, u8Of c.aduSegmentFlag] ++ u16Of c.aduSegmentCount

/-- The `SH` block: 7 or 11 bytes (R121). -/
def shBlock (s : SecondaryHeader) : Bytes :=
  s.time.bytes ++ [u8Of s.secondaryHeaderType, u8Of s.category, u8Of s.aduCount] ++
  match s.channel with
  | none => []
  | some c => channelBlock c

/-- The `SP` block: `PH`, `secondaryPresent`, `SH` iff present, `seq payload` (R121). -/
def spBlock (x : SpacePacket) : Bytes :=
  phBlock x.primary ++ [boolByte x.secondary.isSome] ++
  (match x.secondary with
   | none => []
   | some s => shBlock s) ++
  seqBlock x.payload

/-- The `ADU` block: 14 bytes and the data (R121). -/
def aduBlock (a : Adu) : Bytes :=
  [u8Of a.channelId, u8Of a.category, u8Of a.packetType, u8Of a.apidUpper, u8Of a.apidLower,
   u8Of a.aduCount] ++ a.timeField.bytes ++ seqBlock a.data

/-! ### Scalars and sequences, read: `none` says the frame is too short (R126) -/

/-- The first byte. -/
def takeU8 : Bytes → Option (Byte × Bytes)
  | b :: B => some (b, B)
  | [] => none

/-- A big-endian `u16`. -/
def takeU16 : Bytes → Option (BitVec 16 × Bytes)
  | a :: b :: B => some (a ++ b, B)
  | _ => none

/-- A big-endian `u32`. -/
def takeU32 : Bytes → Option (BitVec 32 × Bytes)
  | a :: b :: c :: d :: B => some (a ++ b ++ c ++ d, B)
  | _ => none

/-- The four time bytes. -/
def takeTime : Bytes → Option (TimeField × Bytes)
  | a :: b :: c :: d :: B => some (⟨a, b, c, d⟩, B)
  | _ => none

/-- A `seq`: a `u32` length `n`, then `n` bytes. -/
def takeSeq (B : Bytes) : Option (Bytes × Bytes) :=
  match takeU32 B with
  | none => none
  | some (n, B) => if n.toNat ≤ B.length then some (B.take n.toNat, B.drop n.toNat) else none

/-! ### Width checks (R124): reason 3 -/

/-- The bits above the field's width must be zero. -/
def narrow (n : Nat) {m : Nat} (v : BitVec m) : Except RefusalReason (BitVec n) :=
  if v.toNat < 2 ^ n then .ok (v.setWidth n) else .error .operandTooWide

/-- A Boolean `u8` is 0 or 1. -/
def boolOfByte (b : Byte) : Except RefusalReason Bool :=
  if b = 0 then .ok false else if b = 1 then .ok true else .error .operandTooWide

/-! ### Record blocks, read (R121). Outside: `none` when the frame is too short. Inside: the value,
or the refusal of a field too wide (R124) or of a packet not well formed (R125), which R325 checks
only once the whole frame's length is right. -/

/-- What reading one operand block gives: the value or its refusal, and the bytes after it. -/
abbrev Taken (α : Type) := Except RefusalReason α × Bytes

/-- The `PH` value of its seven scalars. -/
def phOfScalars (v t f : Byte) (a : BitVec 16) (sf : Byte) (sc pdl : BitVec 16) :
    Except RefusalReason PrimaryHeader := do
  let versionNumber ← narrow 3 v
  let packetType ← narrow 1 t
  let secondaryHeaderFlag ← narrow 1 f
  let applicationId ← narrow 11 a
  let sequenceFlag ← narrow 2 sf
  let sequenceCount ← narrow 14 sc
  .ok { versionNumber, packetType, secondaryHeaderFlag, applicationId, sequenceFlag, sequenceCount,
        packetDataLength := pdl }

/-- The `PH` block: 10 bytes. -/
def takePh (B : Bytes) : Option (Taken PrimaryHeader) := do
  let (v, B) ← takeU8 B
  let (t, B) ← takeU8 B
  let (f, B) ← takeU8 B
  let (a, B) ← takeU16 B
  let (sf, B) ← takeU8 B
  let (sc, B) ← takeU16 B
  let (pdl, B) ← takeU16 B
  some (phOfScalars v t f a sf sc pdl, B)

/-- The channel triple of its three scalars. -/
def channelOfScalars (ch f : Byte) (n : BitVec 16) : Except RefusalReason AduChannel := do
  let aduSegmentFlag ← narrow 2 f
  let aduSegmentCount ← narrow 14 n
  .ok { aduChannelId := ch, aduSegmentFlag, aduSegmentCount }

/-- The channel triple: 4 bytes. -/
def takeChannel (B : Bytes) : Option (Taken AduChannel) := do
  let (ch, B) ← takeU8 B
  let (f, B) ← takeU8 B
  let (n, B) ← takeU16 B
  some (channelOfScalars ch f n, B)

/-- The `SH` value of its scalars and of the triple read after them, if any. -/
def shOfScalars (time : TimeField) (t c : Byte) (aduCount : Byte)
    (ch : Option (Except RefusalReason AduChannel)) : Except RefusalReason SecondaryHeader := do
  let _ ← narrow 1 t
  let category ← narrow 7 c
  match ch with
  | none => .ok { time, category, aduCount, channel := none }
  | some ch =>
    let channel ← ch
    .ok { time, category, aduCount, channel := some channel }

/-- The `SH` block: 7 bytes, and the triple iff the type byte is 1 (R121; log 15). -/
def takeSh (B : Bytes) : Option (Taken SecondaryHeader) := do
  let (time, B) ← takeTime B
  let (t, B) ← takeU8 B
  let (c, B) ← takeU8 B
  let (n, B) ← takeU8 B
  if t = 1 then
    let (ch, B) ← takeChannel B
    some (shOfScalars time t c n (some ch), B)
  else
    some (shOfScalars time t c n none, B)

/-- R125: `secondaryPresent` equals `secondaryHeaderFlag`. -/
def presenceAgrees (x : SpacePacket) : Bool :=
  x.secondary.isSome == (x.primary.secondaryHeaderFlag == 1#1)

/-- The `SP` value of its blocks: every width first (reason 3), then R125 (reason 5). -/
def spOfBlocks (ph : Except RefusalReason PrimaryHeader) (present : Byte)
    (sh : Option (Except RefusalReason SecondaryHeader)) (payload : Bytes) :
    Except RefusalReason SpacePacket := do
  let primary ← ph
  let _ ← boolOfByte present
  let secondary ← (match sh with
    | none => .ok none
    | some r => r.map some)
  let x : SpacePacket := { primary, secondary, payload }
  if presenceAgrees x then .ok x else .error .presenceMismatch

/-- The `SP` block: `PH`, the present byte, `SH` iff that byte is 1, `seq payload` (R121; log 15). -/
def takeSp (B : Bytes) : Option (Taken SpacePacket) := do
  let (ph, B) ← takePh B
  let (present, B) ← takeU8 B
  if present = 1 then
    let (sh, B) ← takeSh B
    let (payload, B) ← takeSeq B
    some (spOfBlocks ph present (some sh) payload, B)
  else
    let (payload, B) ← takeSeq B
    some (spOfBlocks ph present none payload, B)

/-! ### Operand blocks of the commands (R122) -/

/-- Turns the value read into the command that carries it. -/
def asInstr {α : Type} (f : α → Instr) : Option (Taken α) → Option (Taken Instr)
  | none => none
  | some (r, B) => some (r.map f, B)

/-- A command whose only operand is a `seq`. -/
def takeSeqInstr (f : Bytes → Instr) (B : Bytes) : Option (Taken Instr) :=
  match takeSeq B with
  | none => none
  | some (bytes, B) => some (.ok (f bytes), B)

/-- `u16 bitOffset`, `u8 width`, `seq bytes`. -/
def takeBfDecode (B : Bytes) : Option (Taken Instr) := do
  let (off, B) ← takeU16 B
  let (w, B) ← takeU8 B
  let (bytes, B) ← takeSeq B
  some (.ok (.bfDecode off w bytes), B)

/-- `u16 bitOffset`, `u8 width`, `u16 value`, `seq bytes`. -/
def takeBfEncode (B : Bytes) : Option (Taken Instr) := do
  let (off, B) ← takeU16 B
  let (w, B) ← takeU8 B
  let (v, B) ← takeU16 B
  let (bytes, B) ← takeSeq B
  some (.ok (.bfEncode off w v bytes), B)

/-- `u32 length`, `seq bytes`. -/
def takeShDecode (B : Bytes) : Option (Taken Instr) := do
  let (n, B) ← takeU32 B
  let (bytes, B) ← takeSeq B
  some (.ok (.shDecode n bytes), B)

/-- `u8 channelId`, `u8 watch`. -/
def takeSaInit (B : Bytes) : Option (Taken Instr) := do
  let (ch, B) ← takeU8 B
  let (w, B) ← takeU8 B
  some ((boolOfByte w).map (Instr.saInit ch), B)

/-- The opcode map (R122, R127): how an assigned opcode's operand block is read, `none` for an
unassigned opcode. -/
def operandReader (op : Byte) : Option (Bytes → Option (Taken Instr)) :=
  match op.toNat with
  | 0x01 => some takeBfDecode
  | 0x02 => some takeBfEncode
  | 0x10 => some fun B => asInstr .phEncode (takePh B)
  | 0x11 => some (takeSeqInstr .phDecode)
  | 0x12 => some fun B => asInstr .phIsSegmented (takePh B)
  | 0x13 => some fun B => asInstr .phIsFirst (takePh B)
  | 0x14 => some fun B => asInstr .phIsContinuation (takePh B)
  | 0x15 => some fun B => asInstr .phIsLast (takePh B)
  | 0x16 => some fun B => asInstr .phIsUnsegmented (takePh B)
  | 0x20 => some fun B => asInstr .shEncode (takeSh B)
  | 0x21 => some takeShDecode
  | 0x22 => some fun B => asInstr .shLength (takeSh B)
  | 0x30 => some fun B => asInstr .spEncode (takeSp B)
  | 0x31 => some (takeSeqInstr .spDecode)
  | 0x32 => some fun B => asInstr .spHasSecondary (takeSp B)
  | 0x40 => some takeSaInit
  | 0x41 => some fun B => asInstr .saPush (takeSp B)
  | 0x42 => some fun B => some (.ok .saFinalize, B)
  | 0x50 => some (takeSeqInstr .rsPushBytes)
  | 0x51 => some fun B => asInstr .rsPushPacket (takeSp B)
  | 0x52 => some fun B => some (.ok .rsHasCompleted, B)
  | 0x53 => some fun B => some (.ok .rsPopCompleted, B)
  | _ => none

/-- The reason an empty frame is refused with: 2 or 1, a free value (log 7). -/
def emptyFrameReason : RefusalReason :=
  if Config.emptyFrameIsTruncated then .badFrameLength else .unassignedOpcode

/-- R126: an operand block must end exactly where the frame ends. -/
def wholeFrame : Option (Taken Instr) → Except RefusalReason Instr
  | some (r, []) => r
  | some (_, _ :: _) => .error .badFrameLength
  | none => .error .badFrameLength

/-- Decodes a command frame (R120, R126): total, and refusing with the reason of R134. -/
def decode : Bytes → Except RefusalReason Instr
  | [] => .error emptyFrameReason
  | op :: B =>
    match operandReader op with
    | none => .error .unassignedOpcode
    | some reader => wholeFrame (reader B)

/-! ### The encoder -/

/-- The opcode byte (R122). -/
def opcode : Instr → Byte
  | .bfDecode _ _ _ => 0x01
  | .bfEncode _ _ _ _ => 0x02
  | .phEncode _ => 0x10
  | .phDecode _ => 0x11
  | .phIsSegmented _ => 0x12
  | .phIsFirst _ => 0x13
  | .phIsContinuation _ => 0x14
  | .phIsLast _ => 0x15
  | .phIsUnsegmented _ => 0x16
  | .shEncode _ => 0x20
  | .shDecode _ _ => 0x21
  | .shLength _ => 0x22
  | .spEncode _ => 0x30
  | .spDecode _ => 0x31
  | .spHasSecondary _ => 0x32
  | .saInit _ _ => 0x40
  | .saPush _ => 0x41
  | .saFinalize => 0x42
  | .rsPushBytes _ => 0x50
  | .rsPushPacket _ => 0x51
  | .rsHasCompleted => 0x52
  | .rsPopCompleted => 0x53

/-- The operand block (R122). -/
def operandBlock : Instr → Bytes
  | .bfDecode off w bytes => u16Bytes off ++ [w] ++ seqBlock bytes
  | .bfEncode off w v bytes => u16Bytes off ++ [w] ++ u16Bytes v ++ seqBlock bytes
  | .phEncode h => phBlock h
  | .phDecode bytes => seqBlock bytes
  | .phIsSegmented h => phBlock h
  | .phIsFirst h => phBlock h
  | .phIsContinuation h => phBlock h
  | .phIsLast h => phBlock h
  | .phIsUnsegmented h => phBlock h
  | .shEncode h => shBlock h
  | .shDecode length bytes => u32Bytes length ++ seqBlock bytes
  | .shLength h => shBlock h
  | .spEncode x => spBlock x
  | .spDecode bytes => seqBlock bytes
  | .spHasSecondary x => spBlock x
  | .saInit ch watch => [ch, boolByte watch]
  | .saPush x => spBlock x
  | .saFinalize => []
  | .rsPushBytes bytes => seqBlock bytes
  | .rsPushPacket x => spBlock x
  | .rsHasCompleted => []
  | .rsPopCompleted => []

/-- The frame of a command: its opcode byte, then its operands (R140). -/
def encode (i : Instr) : Bytes := opcode i :: operandBlock i

/-- The mnemonic of a command, one per opcode (R122, R141). -/
def mnemonic : Instr → String
  | .bfDecode _ _ _ => "BF_DECODE"
  | .bfEncode _ _ _ _ => "BF_ENCODE"
  | .phEncode _ => "PH_ENCODE"
  | .phDecode _ => "PH_DECODE"
  | .phIsSegmented _ => "PH_IS_SEGMENTED"
  | .phIsFirst _ => "PH_IS_FIRST"
  | .phIsContinuation _ => "PH_IS_CONTINUATION"
  | .phIsLast _ => "PH_IS_LAST"
  | .phIsUnsegmented _ => "PH_IS_UNSEGMENTED"
  | .shEncode _ => "SH_ENCODE"
  | .shDecode _ _ => "SH_DECODE"
  | .shLength _ => "SH_LENGTH"
  | .spEncode _ => "SP_ENCODE"
  | .spDecode _ => "SP_DECODE"
  | .spHasSecondary _ => "SP_HAS_SECONDARY"
  | .saInit _ _ => "SA_INIT"
  | .saPush _ => "SA_PUSH"
  | .saFinalize => "SA_FINALIZE"
  | .rsPushBytes _ => "RS_PUSH_BYTES"
  | .rsPushPacket _ => "RS_PUSH_PACKET"
  | .rsHasCompleted => "RS_HAS_COMPLETED"
  | .rsPopCompleted => "RS_POP_COMPLETED"

/-! ### The opcode table's words: bit 0 is the least significant bit of byte 0 -/

/-- The `nbits / 8` bytes of a table word, the first byte holding bits 7..0. -/
def tableBytes (nbits w : Nat) : Bytes :=
  (List.range (nbits / 8)).map fun k => BitVec.ofNat 8 (w >>> (8 * k))

/-- The frame of a table word: its bytes, then as many zero bytes as its operand block needs (no
block of zeros is longer than 15 bytes: an `SP` block). Bytes that begin no command are left as
they are. -/
def completeFrame : Bytes → Bytes
  | [] => []
  | op :: B =>
    match operandReader op with
    | none => op :: B
    | some reader =>
      let padded := B ++ List.replicate 15 0
      match reader padded with
      | none => op :: B
      | some (_, rest) => op :: padded.take (padded.length - rest.length)

/-- The command the decoder reads from a table word. -/
def decodeTableWord (nbits w : Nat) : Option Instr :=
  match decode (completeFrame (tableBytes nbits w)) with
  | .ok i => some i
  | .error _ => none

end Sys2Proof
end

