-- ==== Sys2Proof/Machine/State.lean ====
section
/-! DEFINITION. The state of the block (10_state.md R37 to R52) and of its two ports (00_scope.md R5),
as plain data, and its value at reset (R52, 70_reset_and_hazards.md R360). -/

namespace Sys2Proof.Machine

/-- The accumulator state (R38); its 2-bit code is `AccState.code` (Machine/Operands.lean). -/
inductive AccState where
  | empty
  | assembling
  | complete
  | error
  deriving DecidableEq, Repr

/-- An accumulator (SegmentAccumulator), R37. -/
structure Accumulator where
  channelId : ChannelId
  state : AccState
  pendingFragments : List SpacePacket
  expectedSegmentCount : Option SegmentCount
  watchSegmentCounter : Bool
  deriving DecidableEq, Repr

/-- The control state `st.cfg` (R43, R50). -/
structure Cfg where
  /-- `APP_ID_LOW` -/
  appIdLow : Byte
  /-- `RS_WATCH`: the channel ids whose value is true, strictly rising (log 2) -/
  rsWatch : List ChannelId
  deriving DecidableEq, Repr

/-- A record of the diagnostic log (R47). -/
inductive LogRecord where
  /-- written by R262 -/
  | discontinuity (channelId : ChannelId) (role : SegmentRole) (previous new : SegmentCount)
  /-- written by R298 -/
  | reassemblyFailure (channelId : ChannelId) (role : SegmentRole) (inner : ErrorKind)
      (message : MessageId)
  deriving DecidableEq, Repr

/-- The block state `st` (R43). -/
structure Block where
  cfg : Cfg
  /-- `st.rs.channels`: the present slots, channel ids strictly rising (log 12) -/
  channels : List (ChannelId × Accumulator)
  /-- `st.rs.completedQueue`, oldest first -/
  completedQueue : List Adu
  /-- `st.sa` -/
  sa : Option Accumulator
  /-- `st.diagLog`, oldest first -/
  diagLog : List LogRecord
  /-- `st.refused`, the sticky refusal mark (R48) -/
  refused : Bool
  deriving DecidableEq, Repr

/-- The block and its two ports (00_scope.md R5). -/
structure State where
  st : Block
  /-- the command frames the host has still to issue, oldest first (log 3) -/
  commandPort : List Bytes
  /-- the response frames answered so far, oldest first (log 4) -/
  responsePort : List Bytes
  deriving DecidableEq, Repr

/-- The block stops with no fault: every failure is a status of the response, and the next command
runs (60_exceptions.md R326). No constructor: nothing raises one. -/
inductive Fault where
  deriving DecidableEq, Repr

/-- The model's refusals. A command the SPEC refuses is no refusal of the model: it is a next state
with `st.refused` set and status 255 answered (00_scope.md R23; log 13). -/
inductive Refusal where
  /-- Raised by an arm of `exec` whose instruction has no meaning yet: none is left. Safe: the model
  stops where the hardware goes on. -/
  | notModelled (mnemonic : String)
  deriving DecidableEq, Repr

/-- How a command ends other than with status OK: `raise` and `refuse` of 00_scope.md R21. -/
inductive Stop where
  /-- an error kind of R320, its inner kind and its message id (R123) -/
  | raise (kind : ErrorKind) (inner : Option ErrorKind) (message : MessageId)
  /-- `REFUSED` with its reason (R134) -/
  | refuse (reason : RefusalReason)
  deriving DecidableEq, Repr

/-- How a command ends: with its result block (`return`, R21), or with a `Stop`. -/
abbrev Reply := Except Stop Bytes

/-- The block right after a reset with the two parameters (R52, R360). -/
def Block.resetWith (appIdLow : Byte) (rsWatch : List ChannelId) : Block where
  cfg := { appIdLow, rsWatch }
  channels := []
  completedQueue := []
  sa := none
  diagLog := []
  refused := false

/-- Reset with the two parameters (R360): the block waits for its first command (R362), none issued
and none answered. -/
def State.resetWith (appIdLow : Byte) (rsWatch : List ChannelId) : State where
  st := Block.resetWith appIdLow rsWatch
  commandPort := []
  responsePort := []

/-- The machine right after reset, with the parameters of Config (logs 1 and 2). -/
def State.reset : State := State.resetWith Config.appIdLow Config.rsWatch

end Sys2Proof.Machine
end

