-- ==== Sys2Proof/Machine/Flags.lean ====
section
/-! DEFINITION. The status outputs of a command: the codes of 60_exceptions.md R320, 30_encoding.md
R133 and R134, and the response frame of R123. The block keeps no flag (10_state.md R49): these
leave on the response port only. -/

namespace Sys2Proof.Machine

/-- The code of an error kind (R320). -/
def errorCode : ErrorKind → Byte
  | .notASpacePacket => 1
  | .malformedHeader => 2
  | .headerTooShort => 3
  | .malformedPacket => 4
  | .channelMismatch => 5
  | .illegalSegmentTransition => 6
  | .segmentDiscontinuity => 7
  | .reassemblyError => 8
  | .notComplete => 9
  | .noCompletedAdu => 10

/-- The status code of `OK` (R320). -/
def statusOk : Byte := 0

/-- The status code of `REFUSED` (R320). -/
def statusRefused : Byte := 255

/-- The id of a message (R133). -/
def messageCode : MessageId → Byte
  | .noMessage => 0
  | .continuationWithNoOpener => 1
  | .lastWithNoOpener => 2
  | .unsegmentedMidAdu => 3
  | .firstMidAdu => 4
  | .counterDiscontinuity => 5

/-- The text of a message; ids 0 and 5 have none (R133). -/
def messageText : MessageId → Option String
  | .noMessage => none
  | .continuationWithNoOpener => some "continuation with no opener"
  | .lastWithNoOpener => some "last with no opener"
  | .unsegmentedMidAdu => some "unsegmented mid-ADU"
  | .firstMidAdu => some "first mid-ADU"
  | .counterDiscontinuity => none

/-- The code of a refusal reason (R134). -/
def reasonCode : RefusalReason → Byte
  | .unassignedOpcode => 1
  | .badFrameLength => 2
  | .operandTooWide => 3
  | .bitFieldOutOfRange => 4
  | .presenceMismatch => 5
  | .versionNotZero => 6
  | .lengthBeyondBytes => 7
  | .emptyDataField => 8
  | .dataFieldTooLong => 9
  | .noAduChannel => 10
  | .noAccumulator => 11

/-- The `inner` byte of an error: the wrapped kind, 0 when there is none (R123). -/
def innerCode : Option ErrorKind → Byte
  | none => 0
  | some k => errorCode k

/-- The response frame: status, inner, message, then the result block when the status is OK (R123). -/
def responseFrame : Reply → Bytes
  | .ok result => [statusOk, 0, 0] ++ result
  | .error (.raise kind inner message) => [errorCode kind, innerCode inner, messageCode message]
  | .error (.refuse reason) => [statusRefused, reasonCode reason, 0]

/-- `raise <Kind>()` with no inner kind and no message (00_scope.md R21). -/
def raised (kind : ErrorKind) : Stop := .raise kind none .noMessage

end Sys2Proof.Machine
end

