-- ==== Sys2Proof/Machine/Operands.lean ====
section
/-! DEFINITION. What a command reads out of its operands: roles and their codes (10_state.md R35), the
ADU channel of a packet (44_segment_accumulator.md R251, R252), the operands the BitFieldCodec
admits (40_bitfield.md R152), and the fields an ADU copies (R36, R268). -/

namespace Sys2Proof.Machine

/-- The 2-bit code of a role (R35). -/
def roleCode : SegmentRole → BitVec 2
  | .continuation => 0b00
  | .first => 0b01
  | .last => 0b10
  | .unsegmented => 0b11

/-- The role a 2-bit code names: every code names one (R35). -/
def roleOfCode (c : BitVec 2) : SegmentRole :=
  if c = 0b00 then .continuation
  else if c = 0b01 then .first
  else if c = 0b10 then .last
  else .unsegmented

/-- The 2-bit code of an accumulator state (R38). -/
def accStateCode : AccState → BitVec 2
  | .empty => 0
  | .assembling => 1
  | .complete => 2
  | .error => 3

/-- The ADU channel of a packet: absent when it has no secondary header or one of type 0 (R252). -/
def aduChannel (x : SpacePacket) : Option AduChannel :=
  match x.secondary with
  | none => none
  | some s => s.channel

/-- `role(x)`: the secondary header's ADU segment flag, not the primary `sequenceFlag` (R251, R181). -/
def role (ch : AduChannel) : SegmentRole := roleOfCode ch.aduSegmentFlag

/-- The low byte of the APID, `applicationId[7:0]` (45_reassembler.md R295). -/
def apidLow (h : PrimaryHeader) : Byte := h.applicationId.extractLsb' 0 8

/-- The upper three bits of the APID, `applicationId[10:8]` (R268). -/
def apidHigh (h : PrimaryHeader) : BitVec 3 := h.applicationId.extractLsb' 8 3

/-- `1 <= w <= 16` and `off + w <= 8*|B|`, in unbounded arithmetic (R152). -/
def bfInBounds (off w : Nat) (B : Bytes) : Bool :=
  decide (1 ≤ w) && decide (w ≤ 16) && decide (off + w ≤ 8 * B.length)

/-- R152 for encode: in bounds, and `value < 2^w`. -/
def bfAdmitsValue (off w v : Nat) (B : Bytes) : Bool := bfInBounds off w B && decide (v < 2 ^ w)

/-- The ADU of a list of fragments (R268): the header fields of the first, which must have an ADU
channel, and every payload in order. `none` when there is no such first fragment (log 10). -/
def aduOfFragments : List SpacePacket → Option Adu
  | [] => none
  | f :: rest =>
    match f.secondary with
    | none => none
    | some s =>
      match s.channel with
      | none => none
      | some ch => some
        { channelId := ch.aduChannelId
          category := s.category
          packetType := f.primary.packetType
          apidUpper := apidHigh f.primary
          apidLower := apidLow f.primary
          aduCount := s.aduCount
          timeField := s.time
          data := ((f :: rest).map SpacePacket.payload).flatten }

end Sys2Proof.Machine
end

