-- ==== Sys2Proof/Machine/Ops.lean ====
section
/-! DEFINITION. The operations the commands share: bits and fields of a byte sequence
(40_bitfield.md R150 to R153, 00_scope.md R20), ending a command (R21 to R23, 60_exceptions.md R326,
R327), the accumulator (44_segment_accumulator.md R250 to R268), the channel table (10_state.md R43
to R45), and taking the next frame from the command port (00_scope.md R5). -/

namespace Sys2Proof.Machine

/-! ### Byte sequences -/

/-- `Bit(B, p)`: wire bit `p`, counted from the most significant bit of byte 0 (R17, R150). -/
def bit (B : Bytes) (p : Nat) : Nat := ((B.getD (p / 8) 0).toNat >>> (7 - p % 8)) &&& 1

/-- `Field(B, off, w)`: the bit at the lowest wire index is the most significant (R151). -/
def field (B : Bytes) (off w : Nat) : Nat :=
  ((List.range w).map fun i => bit B (off + i) <<< (w - 1 - i)).sum

/-- The bit `p` of `SetField(B, off, w, v)` (R153). -/
def bitAfterSet (B : Bytes) (off w v p : Nat) : Nat :=
  if off ≤ p ∧ p < off + w then (v >>> (w - 1 - (p - off))) &&& 1 else bit B p

/-- The byte of eight wire bits, the first the most significant (R17). -/
def byteOfBits (bits : Nat → Nat) : Byte :=
  BitVec.ofNat 8 ((List.range 8).map fun j => bits j <<< (7 - j)).sum

/-- `SetField(B, off, w, v)`: the length is kept, and so is every bit outside the field (R153). -/
def setField (B : Bytes) (off w v : Nat) : Bytes :=
  (List.range B.length).map fun i => byteOfBits fun j => bitAfterSet B off w v (8 * i + j)

/-- `MemRead(B, i, n)`: the `n` bytes at `i`, big-endian (R20). -/
def memRead (B : Bytes) (i n : Nat) : Nat :=
  ((B.drop i).take n).foldl (fun acc b => 256 * acc + b.toNat) 0

/-- `MemWrite(B, i, n, v)`: the `n` bytes at `i` replaced by `v`, big-endian (R20). -/
def memWrite (B : Bytes) (i n v : Nat) : Bytes :=
  B.take i ++ (List.range n).map (fun k => BitVec.ofNat 8 (v >>> (8 * (n - 1 - k)))) ++
    B.drop (i + n)

/-! ### Ending a command -/

/-- The block after a command that left `b` and ends with `r`: a refusal sets the sticky mark
(R23, R48); a return or an error adds nothing (R22). -/
def markRefusal (b : Block) : Reply → Block
  | .error (.refuse _) => { b with refused := true }
  | .error (.raise _ _ _) => b
  | .ok _ => b

/-- Ends a command: the block's writes take effect and the response leaves on the response port (R5,
R123). This is all an error does (R326): it changes no mode and transfers no control. -/
def complete (s : State) (b : Block) (r : Reply) : State :=
  { s with st := markRefusal b r, responsePort := s.responsePort ++ [responseFrame r] }

/-- Ends a codec command: it has no state of its own to write (R7). -/
def reply (s : State) (r : Reply) : State := complete s s.st r

/-- Ends a command with the block and the reply it left. -/
def finish (s : State) (out : Block × Reply) : Host.Outcome State Fault Refusal :=
  .next (complete s out.1 out.2)

/-- The reply that carries a Boolean result `u8` (R122). -/
def boolReply (b : Bool) : Reply := .ok [boolByte b]

/-- Guards a command on R125: a packet operand that is not well formed is refused with reason 5. -/
def withPacket (x : SpacePacket) (b : Block) (run : Block × Reply) : Block × Reply :=
  if presenceAgrees x then run else (b, .error (.refuse .presenceMismatch))

/-! ### The segment counter -/

/-- `(c + 1) mod 16384` (10_state.md R41). -/
def nextCount (c : SegmentCount) : SegmentCount :=
  BitVec.ofNat 14 ((c.toNat + 1) % Config.nMaxAduSegmentCount)

/-- `(e − 1) mod 16384` (R262). -/
def previousCount (e : SegmentCount) : SegmentCount :=
  BitVec.ofNat 14 ((e.toNat + Config.nMaxAduSegmentCount - 1) % Config.nMaxAduSegmentCount)

/-! ### The accumulator -/

/-- An accumulator as it is created: Empty (R250, 10_state.md R52). -/
def newAccumulator (channelId : ChannelId) (watch : Bool) : Accumulator where
  channelId := channelId
  state := .empty
  pendingFragments := []
  expectedSegmentCount := none
  watchSegmentCounter := watch

/-- What a push leaves: the accumulator, the error if any, the log records to append (R266). -/
structure PushResult where
  acc : Accumulator
  error : Option (ErrorKind × MessageId)
  log : List LogRecord
  deriving DecidableEq, Repr

/-- The accumulator after a segment error: Error, fragments discarded, no expected count (R263). -/
def accError (acc : Accumulator) : Accumulator :=
  { acc with state := .error, pendingFragments := [], expectedSegmentCount := none }

/-- The accumulator after finalize: Empty, fragments cleared (R268). -/
def accEmptied (acc : Accumulator) : Accumulator :=
  { acc with state := .empty, pendingFragments := [], expectedSegmentCount := none }

/-- An illegal transition (R263). -/
def illegalPush (acc : Accumulator) (message : MessageId) : PushResult where
  acc := accError acc
  error := some (.illegalSegmentTransition, message)
  log := []

/-- An accepted segment: the fragments and the state given, the next count expected (R265). -/
def acceptPush (acc : Accumulator) (state : AccState) (fragments : List SpacePacket)
    (c : SegmentCount) : PushResult where
  acc := { acc with state, pendingFragments := fragments, expectedSegmentCount := some (nextCount c) }
  error := none
  log := []

/-- The effective state of a push: Complete is taken as Empty (R254). -/
def effectiveState : AccState → AccState
  | .complete => .empty
  | s => s

/-- The counter check (R262): the expected count when watching is on, the state is Assembling and the
count is another one. With no expected count there is "no prior counter to compare against" and no
check is made (log 9). -/
def counterMismatch (acc : Accumulator) (c : SegmentCount) : Option SegmentCount :=
  if acc.watchSegmentCounter && acc.state == .assembling then
    match acc.expectedSegmentCount with
    | none => none
    | some e => if c = e then none else some e
  else none

/-- A counter discontinuity: Error whatever the role, one log record (R262). -/
def discontinuityPush (acc : Accumulator) (r : SegmentRole) (e c : SegmentCount) : PushResult where
  acc := accError acc
  error := some (.segmentDiscontinuity, .counterDiscontinuity)
  log := [.discontinuity acc.channelId r (previousCount e) c]

/-- The transition table, keyed by the effective state and the role (R255 to R261, R264). -/
def transition (acc : Accumulator) (x : SpacePacket) (r : SegmentRole) (c : SegmentCount) :
    PushResult :=
  match effectiveState acc.state, r with
  | .assembling, .continuation => acceptPush acc .assembling (acc.pendingFragments ++ [x]) c
  | .assembling, .last => acceptPush acc .complete (acc.pendingFragments ++ [x]) c
  | .assembling, .unsegmented => illegalPush acc .unsegmentedMidAdu
  | .assembling, .first => illegalPush acc .firstMidAdu
  | .empty, .unsegmented | .error, .unsegmented | .complete, .unsegmented =>
    acceptPush acc .complete [x] c
  | .empty, .first | .error, .first | .complete, .first => acceptPush acc .assembling [x] c
  | .empty, .continuation | .error, .continuation | .complete, .continuation =>
    illegalPush acc .continuationWithNoOpener
  | .empty, .last | .error, .last | .complete, .last => illegalPush acc .lastWithNoOpener

/-- `accPush(acc, x)` (R266), in the order of R253; `none` is the refusal of a packet with no ADU
channel (R252). -/
def accPush (acc : Accumulator) (x : SpacePacket) : Option PushResult :=
  match aduChannel x with
  | none => none
  | some ch =>
    match counterMismatch acc ch.aduSegmentCount with
    | some e => some (discontinuityPush acc (role ch) e ch.aduSegmentCount)
    | none => some (transition acc x (role ch) ch.aduSegmentCount)

/-- `accFinalize(acc)` (R268): the ADU and the emptied accumulator; `none` is `NotComplete`. -/
def accFinalize (acc : Accumulator) : Option (Adu × Accumulator) :=
  if acc.state = .complete then
    match aduOfFragments acc.pendingFragments with
    | none => none
    | some adu => some (adu, accEmptied acc)
  else none

/-! ### The channel table -/

/-- `st.rs.channels[k]`, absent or an accumulator (10_state.md R43). -/
def lookupChannel : List (ChannelId × Accumulator) → ChannelId → Option Accumulator
  | [], _ => none
  | (j, a) :: rest, k => if j = k then some a else lookupChannel rest k

/-- `st.rs.channels[k] <- a`, keeping the channel ids strictly rising (log 12). -/
def setChannel : List (ChannelId × Accumulator) → ChannelId → Accumulator →
    List (ChannelId × Accumulator)
  | [], k, a => [(k, a)]
  | (j, b) :: rest, k, a =>
    if k.toNat < j.toNat then (k, a) :: (j, b) :: rest
    else if j = k then (k, a) :: rest
    else (j, b) :: setChannel rest k a

/-- `st.cfg.RS_WATCH(k)` (00_scope.md R12). -/
def rsWatchOf (cfg : Cfg) (k : ChannelId) : Bool := decide (k ∈ cfg.rsWatch)

/-- Lookup, or lazy creation with the watch value of the channel (45_reassembler.md R297). -/
def channelOrNew (b : Block) (k : ChannelId) : Accumulator :=
  match lookupChannel b.channels k with
  | some a => a
  | none => newAccumulator k (rsWatchOf b.cfg k)

/-! ### The command port -/

/-- Takes the next command frame from the command port (00_scope.md R5), if the host has issued one. -/
def takeFrame (s : State) : Option (Bytes × State) :=
  match s.commandPort with
  | [] => none
  | f :: rest => some (f, { s with commandPort := rest })

/-- Places a frame so that it is the next one taken. -/
def issueNext (s : State) (f : Bytes) : State := { s with commandPort := f :: s.commandPort }

end Sys2Proof.Machine
end

