-- ==== Sys2Proof/Machine/BitField.lean ====
section
/-! DEFINITION. The BitFieldCodec commands (40_bitfield.md R154, R155). -/

namespace Sys2Proof.Machine

/-- R154. -/
def bfDecodeReply (off w : Nat) (B : Bytes) : Reply :=
  if bfInBounds off w B then .ok (u16Bytes (BitVec.ofNat 16 (field B off w)))
  else .error (.refuse .bitFieldOutOfRange)

/-- R155. -/
def bfEncodeReply (off w v : Nat) (B : Bytes) : Reply :=
  if bfAdmitsValue off w v B then .ok (seqBlock (setField B off w v))
  else .error (.refuse .bitFieldOutOfRange)

/-- BF_DECODE (R154). -/
def execBfDecode (bitOffset : BitVec 16) (width : Byte) (bytes : Bytes) (s : State) :
    Host.Outcome State Fault Refusal :=
  .next (reply s (bfDecodeReply bitOffset.toNat width.toNat bytes))

/-- BF_ENCODE (R155). -/
def execBfEncode (bitOffset : BitVec 16) (width : Byte) (value : BitVec 16) (bytes : Bytes)
    (s : State) : Host.Outcome State Fault Refusal :=
  .next (reply s (bfEncodeReply bitOffset.toNat width.toNat value.toNat bytes))

end Sys2Proof.Machine
end

