-- ==== Sys2Proof/Machine/SegmentAccumulator.lean ====
section
/-! DEFINITION. The standalone accumulator's commands (44_segment_accumulator.md R250, R267, R269). -/

namespace Sys2Proof.Machine

/-- The reply of a standalone push: OK with no result, or the segment error (R267). -/
def pushReply (p : PushResult) : Reply :=
  match p.error with
  | none => .ok []
  | some (kind, message) => .error (.raise kind none message)

/-- `SA_PUSH x` (R267): absent accumulator (11), no ADU channel (10), then the push; its writes and
its log records are kept whatever its status (R327). -/
def saPush (x : SpacePacket) (b : Block) : Block × Reply :=
  match b.sa with
  | none => (b, .error (.refuse .noAccumulator))
  | some acc =>
    match accPush acc x with
    | none => (b, .error (.refuse .noAduChannel))
    | some p => ({ b with sa := some p.acc, diagLog := b.diagLog ++ p.log }, pushReply p)

/-- `SA_FINALIZE` (R269): absent accumulator (11), then `NotComplete` with no write. -/
def saFinalize (b : Block) : Block × Reply :=
  match b.sa with
  | none => (b, .error (.refuse .noAccumulator))
  | some acc =>
    match accFinalize acc with
    | none => (b, .error (raised .notComplete))
    | some (adu, acc') => ({ b with sa := some acc' }, .ok (aduBlock adu))

/-- SA_INIT: an accumulator already present is replaced, with its fragments (R250). -/
def execSaInit (channelId : ChannelId) (watch : Bool) (s : State) :
    Host.Outcome State Fault Refusal :=
  finish s ({ s.st with sa := some (newAccumulator channelId watch) }, .ok [])

/-- SA_PUSH (R267); a packet that is not well formed is refused first (R125, R325; log 14). -/
def execSaPush (x : SpacePacket) (s : State) : Host.Outcome State Fault Refusal :=
  finish s (withPacket x s.st (saPush x s.st))

/-- SA_FINALIZE (R269). -/
def execSaFinalize (s : State) : Host.Outcome State Fault Refusal :=
  finish s (saFinalize s.st)

end Sys2Proof.Machine
end

