-- ==== Sys2Proof/Machine/PrimaryHeader.lean ====
section
/-! DEFINITION. The PrimaryHeader commands (41_primary_header.md R170 to R179). -/

namespace Sys2Proof.Machine

/-- `PHBytes(h)` (R170). -/
def phBytes (h : PrimaryHeader) : Bytes :=
  let B : Bytes := [0, 0, 0, 0, 0, 0]
  let B := setField B 0 3 h.versionNumber.toNat
  let B := setField B 3 1 h.packetType.toNat
  let B := setField B 4 1 h.secondaryHeaderFlag.toNat
  let B := setField B 5 11 h.applicationId.toNat
  let B := setField B 16 2 h.sequenceFlag.toNat
  let B := setField B 18 14 h.sequenceCount.toNat
  setField B 32 16 h.packetDataLength.toNat

/-- `PHField(B)` (R170), at the offsets and widths of 30_encoding.md R101. -/
def phField (B : Bytes) : PrimaryHeader where
  versionNumber := BitVec.ofNat 3 (field B 0 3)
  packetType := BitVec.ofNat 1 (field B 3 1)
  secondaryHeaderFlag := BitVec.ofNat 1 (field B 4 1)
  applicationId := BitVec.ofNat 11 (field B 5 11)
  sequenceFlag := BitVec.ofNat 2 (field B 16 2)
  sequenceCount := BitVec.ofNat 14 (field B 18 14)
  packetDataLength := BitVec.ofNat 16 (field B 32 16)

/-- R171. -/
def phEncodeReply (h : PrimaryHeader) : Reply :=
  if h.versionNumber = 0 then .ok (phBytes h) else .error (.refuse .versionNotZero)

/-- R172. -/
def phDecodeReply (bytes : Bytes) : Reply :=
  if bytes.length < 6 then .error (raised .malformedHeader)
  else .ok (phBlock (phField (bytes.take 6)))

/-- PH_ENCODE (R171). -/
def execPhEncode (h : PrimaryHeader) (s : State) : Host.Outcome State Fault Refusal :=
  .next (reply s (phEncodeReply h))

/-- PH_DECODE (R172). -/
def execPhDecode (bytes : Bytes) (s : State) : Host.Outcome State Fault Refusal :=
  .next (reply s (phDecodeReply bytes))

/-- PH_IS_SEGMENTED: the flag is not Unsegmented (R175). -/
def execPhIsSegmented (h : PrimaryHeader) (s : State) : Host.Outcome State Fault Refusal :=
  .next (reply s (boolReply (h.sequenceFlag != 0b11)))

/-- PH_IS_FIRST (R176). -/
def execPhIsFirst (h : PrimaryHeader) (s : State) : Host.Outcome State Fault Refusal :=
  .next (reply s (boolReply (h.sequenceFlag == 0b01)))

/-- PH_IS_CONTINUATION (R177). -/
def execPhIsContinuation (h : PrimaryHeader) (s : State) : Host.Outcome State Fault Refusal :=
  .next (reply s (boolReply (h.sequenceFlag == 0b00)))

/-- PH_IS_LAST (R178). -/
def execPhIsLast (h : PrimaryHeader) (s : State) : Host.Outcome State Fault Refusal :=
  .next (reply s (boolReply (h.sequenceFlag == 0b10)))

/-- PH_IS_UNSEGMENTED (R179). -/
def execPhIsUnsegmented (h : PrimaryHeader) (s : State) : Host.Outcome State Fault Refusal :=
  .next (reply s (boolReply (h.sequenceFlag == 0b11)))

end Sys2Proof.Machine
end

