-- ==== Sys2Proof/Machine/SecondaryHeader.lean ====
section
/-! DEFINITION. The SecondaryHeader commands (42_secondary_header.md R200 to R204). -/

namespace Sys2Proof.Machine

/-- `SHLen(s)`: 6 or 9 (R200). -/
def shLen (h : SecondaryHeader) : Nat := if h.secondaryHeaderType = 0 then 6 else 9

/-- The first six bytes of a secondary header (R201). -/
def shCommonBytes (h : SecondaryHeader) : Bytes :=
  let B := h.time.bytes ++ [0, 0]
  let B := setField B 32 1 h.secondaryHeaderType.toNat
  let B := setField B 33 7 h.category.toNat
  setField B 40 8 h.aduCount.toNat

/-- `SH_ENCODE s` (R201): 6 bytes, or 9 with the channel fields. -/
def shBytes (h : SecondaryHeader) : Bytes :=
  match h.channel with
  | none => shCommonBytes h
  | some ch =>
    let B := shCommonBytes h ++ [0, 0, 0]
    let B := setField B 48 8 ch.aduChannelId.toNat
    let B := setField B 56 2 ch.aduSegmentFlag.toNat
    setField B 58 14 ch.aduSegmentCount.toNat

/-- `SHField(B, n)` (R202): the channel is read only when bit 7 of byte 4 is 1. -/
def shField (B : Bytes) : SecondaryHeader where
  time := ⟨B.getD 0 0, B.getD 1 0, B.getD 2 0, B.getD 3 0⟩
  category := BitVec.ofNat 7 (field B 33 7)
  aduCount := BitVec.ofNat 8 (field B 40 8)
  channel :=
    if field B 32 1 = 1 then
      some { aduChannelId := BitVec.ofNat 8 (field B 48 8)
             aduSegmentFlag := BitVec.ofNat 2 (field B 56 2)
             aduSegmentCount := BitVec.ofNat 14 (field B 58 14) }
    else none

/-- `SH_DECODE length, bytes` (R203), in its order of checks. -/
def shDecode (length : Nat) (bytes : Bytes) : Except Stop SecondaryHeader :=
  if length > bytes.length then .error (.refuse .lengthBeyondBytes)
  else if length < 6 then .error (raised .headerTooShort)
  else if field bytes 32 1 = 1 ∧ length < 9 then .error (raised .headerTooShort)
  else .ok (shField (bytes.take length))

/-- SH_ENCODE (R201). -/
def execShEncode (h : SecondaryHeader) (s : State) : Host.Outcome State Fault Refusal :=
  .next (reply s (.ok (seqBlock (shBytes h))))

/-- SH_DECODE (R203). -/
def execShDecode (length : BitVec 32) (bytes : Bytes) (s : State) :
    Host.Outcome State Fault Refusal :=
  .next (reply s ((shDecode length.toNat bytes).map shBlock))

/-- SH_LENGTH (R204). -/
def execShLength (h : SecondaryHeader) (s : State) : Host.Outcome State Fault Refusal :=
  .next (reply s (.ok [BitVec.ofNat 8 (shLen h)]))

end Sys2Proof.Machine
end

