-- ==== Sys2Proof/Machine/SpacePacket.lean ====
section
/-! DEFINITION. The SpacePacket commands (43_space_packet.md R220 to R231). -/

namespace Sys2Proof.Machine

/-- `encoded_size(secondary)`: 0, 6 or 9 (R220). -/
def encodedSize : Option SecondaryHeader → Nat
  | none => 0
  | some h => shLen h

/-- `D(x)`, the count of bytes after the primary header, unbounded (R221). -/
def dataFieldLength (x : SpacePacket) : Nat := encodedSize x.secondary + x.payload.length

/-- The packet with its recomputed `packetDataLength`, `D − 1` (R222, R223). -/
def withDataLength (x : SpacePacket) : SpacePacket :=
  { x with primary :=
    { x.primary with packetDataLength := BitVec.ofNat 16 (dataFieldLength x - 1) } }

/-- The bytes of a packet: primary header, secondary header if present, payload (R223). -/
def spBytes (x : SpacePacket) : Bytes :=
  phBytes x.primary ++
  (match x.secondary with
   | none => []
   | some h => shBytes h) ++
  x.payload

/-- `SP_ENCODE x` (R223), in its order of checks: the bytes and the packet with its new length. -/
def spEncode (x : SpacePacket) : Except Stop (Bytes × SpacePacket) :=
  if !presenceAgrees x then .error (.refuse .presenceMismatch)
  else if x.primary.versionNumber ≠ 0 then .error (.refuse .versionNotZero)
  else if dataFieldLength x = 0 then .error (.refuse .emptyDataField)
  else if dataFieldLength x > 65536 then .error (.refuse .dataFieldTooLong)
  else .ok (spBytes (withDataLength x), withDataLength x)

/-- `SP_DECODE bytes` (R228): the payload runs to the end of the buffer, whatever
`packetDataLength` says (R229). -/
def spDecode (bytes : Bytes) : Except Stop SpacePacket :=
  if bytes.length < 6 then .error (raised .notASpacePacket)
  else
    let h := phField (bytes.take 6)
    if h.secondaryHeaderFlag = 1 then
      let rest := bytes.drop 6
      match shDecode rest.length rest with
      | .error e => .error e
      | .ok sh =>
        .ok { primary := h, secondary := some sh, payload := bytes.drop (6 + shLen sh) }
    else .ok { primary := h, secondary := none, payload := bytes.drop 6 }

/-- SP_ENCODE (R223): `seq bytes`, then `SP` (R122, R224). -/
def execSpEncode (x : SpacePacket) (s : State) : Host.Outcome State Fault Refusal :=
  .next (reply s ((spEncode x).map fun p => seqBlock p.1 ++ spBlock p.2))

/-- SP_DECODE (R228). -/
def execSpDecode (bytes : Bytes) (s : State) : Host.Outcome State Fault Refusal :=
  .next (reply s ((spDecode bytes).map spBlock))

/-- R231. -/
def spHasSecondaryReply (x : SpacePacket) : Reply :=
  if presenceAgrees x then boolReply x.secondary.isSome
  else .error (.refuse .presenceMismatch)

/-- SP_HAS_SECONDARY (R231). -/
def execSpHasSecondary (x : SpacePacket) (s : State) : Host.Outcome State Fault Refusal :=
  .next (reply s (spHasSecondaryReply x))

end Sys2Proof.Machine
end

