-- ==== Sys2Proof/Machine/Reassembler.lean ====
section
/-! DEFINITION. The Reassembler's commands (45_reassembler.md R290 to R302). -/

namespace Sys2Proof.Machine

/-- Steps 5 and 6 of a push (R290): the accumulator's result goes into the channel's slot, its log
records into the log; an error is logged and wrapped (R298); a completed ADU is finalized at once and
queued (R299). -/
def rsAfterPush (b : Block) (k : ChannelId) (r : SegmentRole) (p : PushResult) : Block × Reply :=
  match p.error with
  | some (kind, message) =>
    ({ b with
        channels := setChannel b.channels k p.acc
        diagLog := b.diagLog ++ p.log ++ [.reassemblyFailure k r kind message] },
     .error (.raise .reassemblyError (some kind) message))
  | none =>
    match accFinalize p.acc with
    | some (adu, acc') =>
      ({ b with
          channels := setChannel b.channels k acc'
          completedQueue := b.completedQueue ++ [adu]
          diagLog := b.diagLog ++ p.log },
       .ok [])
    | none =>
      ({ b with
          channels := setChannel b.channels k p.acc
          diagLog := b.diagLog ++ p.log },
       .ok [])

/-- `RSPush(x)` (R296): no ADU channel (10), APID low byte (`ChannelMismatch`), then the channel's
accumulator, created if it is absent (R297). -/
def rsPush (x : SpacePacket) (b : Block) : Block × Reply :=
  match aduChannel x with
  | none => (b, .error (.refuse .noAduChannel))
  | some ch =>
    if apidLow x.primary ≠ b.cfg.appIdLow then (b, .error (raised .channelMismatch))
    else
      match accPush (channelOrNew b ch.aduChannelId) x with
      | none => (b, .error (.refuse .noAduChannel))
      | some p => rsAfterPush b ch.aduChannelId (role ch) p

/-- `RS_PUSH_BYTES bytes` (R291): a codec failure is wrapped as `MalformedPacket`. -/
def rsPushBytes (bytes : Bytes) (b : Block) : Block × Reply :=
  match spDecode bytes with
  | .error (.raise kind _ _) => (b, .error (.raise .malformedPacket (some kind) .noMessage))
  | .error (.refuse reason) => (b, .error (.refuse reason))
  | .ok x => rsPush x b

/-- `RS_POP_COMPLETED` (R302): the oldest ADU, or `NoCompletedADU`. -/
def rsPopCompleted (b : Block) : Block × Reply :=
  match b.completedQueue with
  | [] => (b, .error (raised .noCompletedAdu))
  | a :: rest => ({ b with completedQueue := rest }, .ok (aduBlock a))

/-- RS_PUSH_BYTES (R291). -/
def execRsPushBytes (bytes : Bytes) (s : State) : Host.Outcome State Fault Refusal :=
  finish s (rsPushBytes bytes s.st)

/-- RS_PUSH_PACKET (R292); a packet that is not well formed is refused first (R125, R325; log 14). -/
def execRsPushPacket (x : SpacePacket) (s : State) : Host.Outcome State Fault Refusal :=
  finish s (withPacket x s.st (rsPush x s.st))

/-- RS_HAS_COMPLETED (R301). -/
def execRsHasCompleted (s : State) : Host.Outcome State Fault Refusal :=
  .next (reply s (boolReply (!s.st.completedQueue.isEmpty)))

/-- RS_POP_COMPLETED (R302). -/
def execRsPopCompleted (s : State) : Host.Outcome State Fault Refusal :=
  finish s (rsPopCompleted s.st)

end Sys2Proof.Machine
end

