-- ==== Sys2Proof/Machine/Dispatch.lean ====
section
/-! DEFINITION. One arm per command: the meaning it runs. -/

namespace Sys2Proof.Machine

def exec (i : Instr) (s : State) : Host.Outcome State Fault Refusal :=
  match i with
  | .bfDecode off w bytes => Sys2Proof.Machine.execBfDecode off w bytes s
  | .bfEncode off w v bytes => Sys2Proof.Machine.execBfEncode off w v bytes s
  | .phEncode h => Sys2Proof.Machine.execPhEncode h s
  | .phDecode bytes => Sys2Proof.Machine.execPhDecode bytes s
  | .phIsSegmented h => Sys2Proof.Machine.execPhIsSegmented h s
  | .phIsFirst h => Sys2Proof.Machine.execPhIsFirst h s
  | .phIsContinuation h => Sys2Proof.Machine.execPhIsContinuation h s
  | .phIsLast h => Sys2Proof.Machine.execPhIsLast h s
  | .phIsUnsegmented h => Sys2Proof.Machine.execPhIsUnsegmented h s
  | .shEncode h => Sys2Proof.Machine.execShEncode h s
  | .shDecode length bytes => Sys2Proof.Machine.execShDecode length bytes s
  | .shLength h => Sys2Proof.Machine.execShLength h s
  | .spEncode x => Sys2Proof.Machine.execSpEncode x s
  | .spDecode bytes => Sys2Proof.Machine.execSpDecode bytes s
  | .spHasSecondary x => Sys2Proof.Machine.execSpHasSecondary x s
  | .saInit channelId watch => Sys2Proof.Machine.execSaInit channelId watch s
  | .saPush x => Sys2Proof.Machine.execSaPush x s
  | .saFinalize => Sys2Proof.Machine.execSaFinalize s
  | .rsPushBytes bytes => Sys2Proof.Machine.execRsPushBytes bytes s
  | .rsPushPacket x => Sys2Proof.Machine.execRsPushPacket x s
  | .rsHasCompleted => Sys2Proof.Machine.execRsHasCompleted s
  | .rsPopCompleted => Sys2Proof.Machine.execRsPopCompleted s

end Sys2Proof.Machine
end

