-- ==== Sys2Proof/Machine/Run.lean ====
section
/-! DEFINITION. Running one frame, and what a step does: one whole command (00_scope.md R5, R6,
20_memory.md R77). -/

namespace Sys2Proof.Machine

/-- Decodes a frame and runs its command to completion; a frame that decodes to no command is refused
with the decoder's reason (30_encoding.md R126, 00_scope.md R23). -/
def runFrame (frame : Bytes) (s : State) : Host.Outcome State Fault Refusal :=
  match decode frame with
  | .error reason => .next (reply s (.error (.refuse reason)))
  | .ok i => exec i s

/-- Takes the next frame and runs it; with no frame waiting the block is idle and keeps all its state
(60_exceptions.md R335, 70_reset_and_hazards.md R362; log 5). -/
def runNext (s : State) : Host.Outcome State Fault Refusal :=
  match takeFrame s with
  | none => .next s
  | some (frame, s') => runFrame frame s'

end Sys2Proof.Machine
end

