-- ==== Sys2Proof/Machine/Step.lean ====
section
/-! DEFINITION. The machine's step, and placing a table word's command where the step takes it. -/

namespace Sys2Proof.Machine

/-- One step: the next command, whole (00_scope.md R5). -/
def step (s : State) : Host.Outcome State Fault Refusal := runNext s

/-- `s` with the command of an opcode-table word issued as the very next frame (log 6). -/
def State.withFetchWord (s : State) (nbits w : Nat) : State :=
  issueNext s (completeFrame (tableBytes nbits w))

end Sys2Proof.Machine
end

