-- ==== Sys2Proof/Safety.lean ====
section
/-! DEFINITION. The terms claims use: how a command answers, where an operand block ends and the wire
layouts of 30_encoding.md, written byte by byte (apart from the codec that computes them), and the invariant of a block that no reset or
step leaves (10_state.md R39 to R45, 45_reassembler.md R305). -/

namespace Sys2Proof.Machine

/-! ### How a command answers -/

/-- The command `i` completes in `s`: it leaves the block `b`, takes nothing from the command port, and
answers exactly the one response frame `frame`. Together these say all of the next state. -/
def Answers (i : Instr) (s : State) (b : Block) (frame : Bytes) : Prop :=
  ∃ t, exec i s = .next t ∧ t.st = b ∧ t.commandPort = s.commandPort ∧
    t.responsePort = s.responsePort ++ [frame]

/-- The command answers status OK (codes 0 0 0) with the result block, leaving the block `b`. -/
def AnswersOk (i : Instr) (s : State) (b : Block) (result : Bytes) : Prop :=
  Answers i s b ([0, 0, 0] ++ result)

/-- The command is refused with a reason code: its only write is the sticky mark (R23, R48). -/
def RefusedWith (i : Instr) (s : State) (reason : Byte) : Prop :=
  Answers i s { s.st with refused := true } [255, reason, 0]

/-- Some command of the block's codec families (00_scope.md R7). -/
def isCodec : Instr → Bool
  | .bfDecode _ _ _ | .bfEncode _ _ _ _ | .phEncode _ | .phDecode _ | .phIsSegmented _
  | .phIsFirst _ | .phIsContinuation _ | .phIsLast _ | .phIsUnsegmented _ | .shEncode _
  | .shDecode _ _ | .shLength _ | .spEncode _ | .spDecode _ | .spHasSecondary _ => true
  | .saInit _ _ | .saPush _ | .saFinalize | .rsPushBytes _ | .rsPushPacket _ | .rsHasCompleted
  | .rsPopCompleted => false

/-! ### Where an operand block ends (30_encoding.md R120 to R122) -/

/-- The size of a `seq` that begins at byte `k`: its `u32` length, then that many bytes. A missing byte
counts as 0; the `seq` then ends past the bytes anyway. -/
def seqSize (B : Bytes) (k : Nat) : Nat :=
  4 + (B.getD k 0 ++ B.getD (k + 1) 0 ++ B.getD (k + 2) 0 ++ B.getD (k + 3) 0 : BitVec 32).toNat

/-- The size of an `SH` block with this type byte (R121; log 15). -/
def shSize (typeByte : Byte) : Nat := if typeByte = 1 then 11 else 7

/-- The size of an `SP` block: `PH`, the present byte, `SH` iff it is 1, `seq payload` (R121; log 15). -/
def spSize (B : Bytes) : Nat :=
  let headers := 11 + if B.getD 10 0 = 1 then shSize (B.getD 15 0) else 0
  headers + seqSize B headers

/-- The size of the operand block that follows an opcode, from the bytes after the opcode (R122). -/
def operandSize (op : Byte) (B : Bytes) : Nat :=
  match op.toNat with
  | 0x01 => 3 + seqSize B 3
  | 0x02 => 5 + seqSize B 5
  | 0x11 | 0x31 | 0x50 => seqSize B 0
  | 0x10 | 0x12 | 0x13 | 0x14 | 0x15 | 0x16 => 10
  | 0x20 | 0x22 => shSize (B.getD 4 0)
  | 0x21 => 4 + seqSize B 4
  | 0x30 | 0x32 | 0x41 | 0x51 => spSize B
  | 0x40 => 2
  | _ => 0

/-! ### Wire layouts, byte by byte (30_encoding.md R100 to R106) -/

/-- The six bytes of a primary header (R100). -/
def phWire (h : PrimaryHeader) : Bytes :=
  [h.versionNumber ++ h.packetType ++ h.secondaryHeaderFlag ++ h.applicationId.extractLsb' 8 3,
   h.applicationId.extractLsb' 0 8,
   h.sequenceFlag ++ h.sequenceCount.extractLsb' 8 6,
   h.sequenceCount.extractLsb' 0 8,
   h.packetDataLength.extractLsb' 8 8,
   h.packetDataLength.extractLsb' 0 8]

/-- The primary header six bytes spell (R106). -/
def phOfWire (b0 b1 b2 b3 b4 b5 : Byte) : PrimaryHeader where
  versionNumber := b0.extractLsb' 5 3
  packetType := b0.extractLsb' 4 1
  secondaryHeaderFlag := b0.extractLsb' 3 1
  applicationId := b0.extractLsb' 0 3 ++ b1
  sequenceFlag := b2.extractLsb' 6 2
  sequenceCount := b2.extractLsb' 0 6 ++ b3
  packetDataLength := b4 ++ b5

/-- The bytes of a secondary header: the 6-byte form (R102) or the 9-byte form (R103). -/
def shWire (h : SecondaryHeader) : Bytes :=
  [h.time.byte0, h.time.byte1, h.time.byte2, h.time.byte3] ++
  match h.channel with
  | none => [0#1 ++ h.category, h.aduCount]
  | some c =>
    [1#1 ++ h.category, h.aduCount, c.aduChannelId,
     c.aduSegmentFlag ++ c.aduSegmentCount.extractLsb' 8 6, c.aduSegmentCount.extractLsb' 0 8]

/-- The 6-byte secondary header that bytes spell (R102, R106). -/
def sh6OfWire (t0 t1 t2 t3 b4 b5 : Byte) : SecondaryHeader where
  time := ⟨t0, t1, t2, t3⟩
  category := b4.extractLsb' 0 7
  aduCount := b5
  channel := none

/-- The 9-byte secondary header that bytes spell (R103, R106). -/
def sh9OfWire (t0 t1 t2 t3 b4 b5 b6 b7 b8 : Byte) : SecondaryHeader where
  time := ⟨t0, t1, t2, t3⟩
  category := b4.extractLsb' 0 7
  aduCount := b5
  channel := some
    { aduChannelId := b6, aduSegmentFlag := b7.extractLsb' 6 2,
      aduSegmentCount := b7.extractLsb' 0 6 ++ b8 }

/-- The bytes of a packet on the wire: primary header, secondary header if any, payload (R105). -/
def spWire (x : SpacePacket) : Bytes :=
  phWire x.primary ++ (x.secondary.map shWire).getD [] ++ x.payload

/-! ### Result blocks, bit by bit (30_encoding.md R120, R121) -/

/-- A `u32` result, big-endian. -/
def u32Result (v : BitVec 32) : Bytes :=
  [v.extractLsb' 24 8, v.extractLsb' 16 8, v.extractLsb' 8 8, v.extractLsb' 0 8]

/-- A `seq` result of fewer than 2^32 bytes: its length, then the bytes. -/
def seqResult (B : Bytes) : Bytes := u32Result (BitVec.ofNat 32 B.length) ++ B

/-- The `PH` result block: each scalar right-aligned, zeros above it. -/
def phResult (h : PrimaryHeader) : Bytes :=
  [0#5 ++ h.versionNumber, 0#7 ++ h.packetType, 0#7 ++ h.secondaryHeaderFlag,
   0#5 ++ h.applicationId.extractLsb' 8 3, h.applicationId.extractLsb' 0 8,
   0#6 ++ h.sequenceFlag, 0#2 ++ h.sequenceCount.extractLsb' 8 6, h.sequenceCount.extractLsb' 0 8,
   h.packetDataLength.extractLsb' 8 8, h.packetDataLength.extractLsb' 0 8]

/-- The `SH` result block: 7 bytes, or 11 with the channel triple. -/
def shResult (h : SecondaryHeader) : Bytes :=
  [h.time.byte0, h.time.byte1, h.time.byte2, h.time.byte3] ++
  match h.channel with
  | none => [0, 0#1 ++ h.category, h.aduCount]
  | some c =>
    [1, 0#1 ++ h.category, h.aduCount, c.aduChannelId, 0#6 ++ c.aduSegmentFlag,
     0#2 ++ c.aduSegmentCount.extractLsb' 8 6, c.aduSegmentCount.extractLsb' 0 8]

/-- The `SP` result block of a packet with fewer than 2^32 payload bytes. -/
def spResult (x : SpacePacket) : Bytes :=
  phResult x.primary ++
  (match x.secondary with
   | none => [0]
   | some h => 1 :: shResult h) ++ seqResult x.payload

/-- The `ADU` result block whose data length field is `len`. -/
def aduResult (len : BitVec 32) (a : Adu) : Bytes :=
  [a.channelId, 0#1 ++ a.category, 0#7 ++ a.packetType, 0#5 ++ a.apidUpper, a.apidLower, a.aduCount,
   a.timeField.byte0, a.timeField.byte1, a.timeField.byte2, a.timeField.byte3] ++
  u32Result len ++ a.data

/-- The length field of an ADU's data: the number of bytes, where 32 bits hold it. Above that the
spec gives none, and nothing is said of it (log 8). -/
def DataLength (len : BitVec 32) (a : Adu) : Prop :=
  a.data.length < 2 ^ 32 → len.toNat = a.data.length

/-! ### The invariant -/

/-- The role of a fragment, if it has an ADU channel. -/
def fragmentRole (x : SpacePacket) : Option SegmentRole := (aduChannel x).map role

/-- The segment count of a fragment, if it has an ADU channel. -/
def fragmentCount (x : SpacePacket) : Option SegmentCount :=
  (aduChannel x).map AduChannel.aduSegmentCount

/-- First, then Continuations only (R39, state Assembling). -/
def OpenFragments (fs : List SpacePacket) : Prop :=
  ∃ f cs, fs = f :: cs ∧ fragmentRole f = some .first ∧
    ∀ c ∈ cs, fragmentRole c = some .continuation

/-- One Unsegmented, or First, Continuations, Last (R39, state Complete). -/
def ClosedFragments (fs : List SpacePacket) : Prop :=
  (∃ u, fs = [u] ∧ fragmentRole u = some .unsegmented) ∨
  ∃ f cs l, fs = f :: cs ++ [l] ∧ fragmentRole f = some .first ∧
    (∀ c ∈ cs, fragmentRole c = some .continuation) ∧ fragmentRole l = some .last

/-- What an accumulator's fragments and expected count are in each of its states (R39, R40, R41): the
expected count follows the last fragment's, and is absent when there is none. -/
structure Accumulator.Inv (a : Accumulator) : Prop where
  noFragments : a.state = .empty ∨ a.state = .error → a.pendingFragments = []
  openFragments : a.state = .assembling → OpenFragments a.pendingFragments
  closedFragments : a.state = .complete → ClosedFragments a.pendingFragments
  expected : a.expectedSegmentCount =
    (a.pendingFragments.getLast?.bind fragmentCount).map fun c => c + 1
  wellFormed : ∀ x ∈ a.pendingFragments, x.wellFormed = true

/-- What the slot `k` of the channel table holds (10_state.md R42, R45): an accumulator of that
channel, never Complete, with the channel's watch value, whose fragments all name channel `k` and
carry the configured APID low byte (R305). -/
structure SlotInv (cfg : Cfg) (k : ChannelId) (a : Accumulator) : Prop where
  acc : a.Inv
  channelId : a.channelId = k
  notComplete : a.state ≠ .complete
  watch : a.watchSegmentCounter = decide (k ∈ cfg.rsWatch)
  fragmentChannel : ∀ x ∈ a.pendingFragments, (aduChannel x).map AduChannel.aduChannelId = some k
  fragmentApid : ∀ x ∈ a.pendingFragments, x.primary.applicationId.extractLsb' 0 8 = cfg.appIdLow

/-- The invariant of the block: the two sparse tables are in canonical form, each slot holds what it
may hold, so does the standalone accumulator, and every queued ADU has the configured APID low
byte (R305). -/
structure Block.Inv (b : Block) : Prop where
  watchRising : b.cfg.rsWatch.Pairwise fun j k => j.toNat < k.toNat
  channelsRising : b.channels.Pairwise fun p q => p.1.toNat < q.1.toNat
  slots : ∀ p ∈ b.channels, SlotInv b.cfg p.1 p.2
  standalone : ∀ a, b.sa = some a → a.Inv
  queued : ∀ a ∈ b.completedQueue, a.apidLower = b.cfg.appIdLow

/-! ### Pushing a sequence of packets to the standalone accumulator -/

/-- Pushes a packet with SA_PUSH and keeps the next state only when the push answered OK. -/
def pushOk (s : State) (x : SpacePacket) : Option State :=
  match exec (.saPush x) s with
  | .next t => if t.responsePort = s.responsePort ++ [[0, 0, 0]] then some t else none
  | .fault _ => none
  | .refused _ => none

/-- Pushes packets in order, each answered OK. -/
def pushAllOk : State → List SpacePacket → Option State
  | s, [] => some s
  | s, x :: xs =>
    match pushOk s x with
    | none => none
    | some t => pushAllOk t xs

/-- The state of the standalone accumulator, if there is one. -/
def saState (s : State) : Option AccState := s.st.sa.map Accumulator.state

/-- The packets are accepted one after the other, and the last of them is the first to leave the
accumulator Complete: they form one ADU (R271). -/
def FormsOneAdu (s : State) (xs : List SpacePacket) : Prop :=
  (∃ t, pushAllOk s xs = some t ∧ saState t = some .complete) ∧
  ∀ n, 0 < n → n < xs.length → ∀ t, pushAllOk s (xs.take n) = some t → saState t ≠ some .complete

/-- Each count is the successor of the one before it, modulo 16384 (R262, R270). -/
def Consecutive : List SegmentCount → Prop
  | [] => True
  | [_] => True
  | c :: d :: rest => d = c + 1 ∧ Consecutive (d :: rest)

/-- The role sequences of R271: Unsegmented, or First Continuation* Last. -/
def LegalRoles (rs : List SegmentRole) : Prop :=
  rs = [.unsegmented] ∨ ∃ n, rs = .first :: List.replicate n .continuation ++ [.last]

end Sys2Proof.Machine
end

