-- ==== Sys2Proof/Certificates/Slice0/Obligations.lean ====
section
/-! DEFINITION. The statements for the provers, from the numbered rules of spec/. Opcodes, frame
layouts, status codes, refusal reasons and message ids are the spec's own choices (92_eei_decisions.md
D4, D5); every statement that names one rests on them. -/

open Sys2Proof Sys2Proof.Machine

/-! ### Frames (30_encoding.md R120 to R127) -/

/-- Decoding the frame of a well-formed command gives the command back, with every operand
(R120 to R122, R140). -/
def Obligations.DecodingAnEncodedCommandGivesItBack : Prop :=
  ∀ i : Instr, i.wellFormed = true → decode (encode i) = .ok i

/-- A frame that decodes is the frame of the command it decodes to, which is well formed: each command
has one frame, and no bit of a frame is dropped (R120 to R122, R126). -/
def Obligations.EncodingADecodedFrameGivesItBack : Prop :=
  ∀ (f : Bytes) (i : Instr), decode f = .ok i → i.wellFormed = true ∧ encode i = f

/-- A frame with an assigned opcode is refused with reason 2 exactly when it does not end where its
operand block ends: before its end or after it, and whatever its scalars and presence bytes hold, the
length being checked before reasons 3 and 5 (R126, R325; log 15 for a type or present byte above 1). So
is every cut (but for its opcode) and every extension of a well-formed command's frame. -/
def Obligations.TruncatedOrExtendedFrameIsRefused : Prop :=
  (∀ (op : Byte) (B : Bytes),
    op.toNat ∈ [0x01, 0x02, 0x10, 0x11, 0x12, 0x13, 0x14, 0x15, 0x16, 0x20, 0x21, 0x22, 0x30, 0x31,
      0x32, 0x40, 0x41, 0x42, 0x50, 0x51, 0x52, 0x53] →
    (decode (op :: B) = .error .badFrameLength ↔ B.length ≠ operandSize op B)) ∧
  ∀ i : Instr, i.wellFormed = true →
    (∀ (b : Byte) (tail : Bytes), decode (encode i ++ b :: tail) = .error .badFrameLength) ∧
    ∀ n, 0 < n → n < (encode i).length → decode ((encode i).take n) = .error .badFrameLength

/-- A frame is refused with reason 1 exactly when its first byte is none of the 22 opcodes; the empty
frame is refused with reason 1 or 2, the spec not saying which (R126, R127; log 7). -/
def Obligations.UnassignedOpcodeIsRefused : Prop :=
  (∀ (op : Byte) (rest : Bytes), decode (op :: rest) = .error .unassignedOpcode ↔
    op.toNat ∉ [0x01, 0x02, 0x10, 0x11, 0x12, 0x13, 0x14, 0x15, 0x16, 0x20, 0x21, 0x22, 0x30, 0x31,
      0x32, 0x40, 0x41, 0x42, 0x50, 0x51, 0x52, 0x53]) ∧
  (decode [] = .error .unassignedOpcode ∨ decode [] = .error .badFrameLength)

/-- A command with a PH operand is refused with reason 3 exactly when some scalar has a bit above its
field, and decodes otherwise (R124). -/
def Obligations.WidePrimaryScalarIsRefused : Prop :=
  ∀ op : Byte, op ∈ [0x10, 0x12, 0x13, 0x14, 0x15, 0x16] →
    ∀ v t f a1 a0 sf c1 c0 p1 p0 : Byte,
      if 8 ≤ v.toNat ∨ 2 ≤ t.toNat ∨ 2 ≤ f.toNat ∨ 8 ≤ a1.toNat ∨ 4 ≤ sf.toNat ∨ 64 ≤ c1.toNat
      then decode [op, v, t, f, a1, a0, sf, c1, c0, p1, p0] = .error .operandTooWide
      else ∃ i, decode [op, v, t, f, a1, a0, sf, c1, c0, p1, p0] = .ok i

/-- The same for SH_ENCODE and SH_LENGTH, in the 11-byte form of the SH operand (type byte 1) and its
7-byte form (any other type byte; log 15), and for the Boolean `watch` of SA_INIT (R124). -/
def Obligations.WideSecondaryScalarIsRefused : Prop :=
  (∀ op : Byte, op ∈ [0x20, 0x22] → ∀ t0 t1 t2 t3 c n ch f k1 k0 : Byte,
    if 128 ≤ c.toNat ∨ 4 ≤ f.toNat ∨ 64 ≤ k1.toNat
    then decode [op, t0, t1, t2, t3, 1, c, n, ch, f, k1, k0] = .error .operandTooWide
    else ∃ i, decode [op, t0, t1, t2, t3, 1, c, n, ch, f, k1, k0] = .ok i) ∧
  (∀ op : Byte, op ∈ [0x20, 0x22] → ∀ t0 t1 t2 t3 ty c n : Byte, ty ≠ 1 →
    if 2 ≤ ty.toNat ∨ 128 ≤ c.toNat
    then decode [op, t0, t1, t2, t3, ty, c, n] = .error .operandTooWide
    else ∃ i, decode [op, t0, t1, t2, t3, ty, c, n] = .ok i) ∧
  (∀ ch w : Byte,
    if 2 ≤ w.toNat then decode [0x40, ch, w] = .error .operandTooWide
    else decode [0x40, ch, w] = .ok (.saInit ch (w == 1)))

/-- A packet operand is refused with reason 5 exactly when its secondary header's presence disagrees
with `secondaryHeaderFlag`, in each of the four commands that take one (R125). -/
def Obligations.PresenceMismatchIsRefused : Prop :=
  ∀ x : SpacePacket, x.payload.length < 2 ^ 32 →
    ∀ p ∈ [((0x30 : Byte), Instr.spEncode x), (0x32, .spHasSecondary x), (0x41, .saPush x),
      (0x51, .rsPushPacket x)],
    decode (p.1 :: spBlock x) =
      if x.secondary.isSome = true ↔ x.primary.secondaryHeaderFlag = 1 then .ok p.2
      else .error .presenceMismatch

/-- The same for the four commands with an SP operand, in each form of it (no SH, the 7-byte and the
11-byte SH; log 15): refused with reason 3 exactly when a scalar of its PH or SH has a bit above its
field or `secondaryPresent` is neither 0 nor 1, whatever the presence; only otherwise is a presence
that disagrees with `secondaryHeaderFlag` refused, with reason 5 (R124, R125, R325). -/
def Obligations.WidePacketScalarIsRefusedBeforePresence : Prop :=
  ∀ op : Byte, op ∈ [0x30, 0x32, 0x41, 0x51] →
    ∀ (v t f a1 a0 sf c1 c0 p1 p0 present : Byte) (payload : Bytes), payload.length < 2 ^ 32 →
    let ph : Bytes := [v, t, f, a1, a0, sf, c1, c0, p1, p0]
    let widePh := 8 ≤ v.toNat ∨ 2 ≤ t.toNat ∨ 2 ≤ f.toNat ∨ 8 ≤ a1.toNat ∨ 4 ≤ sf.toNat ∨
      64 ≤ c1.toNat
    (present ≠ 1 →
      let frame := op :: (ph ++ [present] ++ seqResult payload)
      if widePh ∨ 2 ≤ present.toNat then decode frame = .error .operandTooWide
      else if f = 0 then ∃ i, decode frame = .ok i
      else decode frame = .error .presenceMismatch) ∧
    ∀ t0 t1 t2 t3 ty c n : Byte,
      (ty ≠ 1 →
        let frame := op :: (ph ++ [1, t0, t1, t2, t3, ty, c, n] ++ seqResult payload)
        if widePh ∨ 2 ≤ ty.toNat ∨ 128 ≤ c.toNat then decode frame = .error .operandTooWide
        else if f = 1 then ∃ i, decode frame = .ok i
        else decode frame = .error .presenceMismatch) ∧
      ∀ ch g k1 k0 : Byte,
        let frame := op :: (ph ++ [1, t0, t1, t2, t3, 1, c, n, ch, g, k1, k0] ++ seqResult payload)
        if widePh ∨ 128 ≤ c.toNat ∨ 4 ≤ g.toNat ∨ 64 ≤ k1.toNat
        then decode frame = .error .operandTooWide
        else if f = 1 then ∃ i, decode frame = .ok i
        else decode frame = .error .presenceMismatch

/-- Frames written out byte by byte from R120 to R122, one of each family, decode to their commands
(95_test_vectors.md V-BF-1, V-PH-1, V-SH-4, V-SP-2, P4, V-RS-3). -/
def Obligations.WrittenFramesDecode : Prop :=
  decode [0x01, 0x00, 0x05, 0x0B, 0x00, 0x00, 0x00, 0x02, 0x09, 0x23] =
    .ok (.bfDecode 5 11 [0x09, 0x23]) ∧
  decode [0x10, 0x00, 0x00, 0x01, 0x01, 0x23, 0x03, 0x00, 0x05, 0x00, 0x0A] =
    .ok (.phEncode ⟨0, 0, 1, 0x123, 3, 5, 10⟩) ∧
  decode [0x21, 0x00, 0x00, 0x00, 0x08, 0x00, 0x00, 0x00, 0x08, 0x00, 0x00, 0x00, 0x01, 0x85, 0x07,
    0x10, 0x40] = .ok (.shDecode 8 [0x00, 0x00, 0x00, 0x01, 0x85, 0x07, 0x10, 0x40]) ∧
  decode [0x30, 0x00, 0x00, 0x00, 0x01, 0x23, 0x03, 0x00, 0x00, 0x99, 0x99, 0x00, 0x00, 0x00, 0x00,
    0x01, 0x01] = .ok (.spEncode ⟨⟨0, 0, 0, 0x123, 3, 0, 0x9999⟩, none, [0x01]⟩) ∧
  decode [0x40, 0x10, 0x01] = .ok (.saInit 0x10 true) ∧
  decode [0x51, 0x00, 0x00, 0x01, 0x01, 0x23, 0x03, 0x00, 0x00, 0x00, 0x0A, 0x01, 0x00, 0x00, 0x00,
    0x01, 0x01, 0x05, 0x07, 0x11, 0x03, 0x00, 0x00, 0x00, 0x00, 0x00, 0x02, 0xDD, 0xEE] =
    .ok (.rsPushPacket ⟨⟨0, 0, 1, 0x123, 3, 0, 10⟩,
      some ⟨⟨0, 0, 0, 1⟩, 5, 7, some ⟨0x11, 3, 0⟩⟩, [0xDD, 0xEE]⟩)

/-! ### A step (00_scope.md R5, R23) -/

/-- A step takes the first frame from the command port and runs the command it decodes to; with no
frame waiting the state stays as it is (R5, R335; log 5). -/
def Obligations.AStepRunsTheDecodedCommand : Prop :=
  (∀ (s : State) (f : Bytes) (rest : List Bytes) (i : Instr), s.commandPort = f :: rest →
    decode f = .ok i → step s = exec i { s with commandPort := rest }) ∧
  ∀ s : State, s.commandPort = [] → step s = .next s

/-- A frame that decodes to no command is refused, with one of the four decoding reasons and its code;
the only write is the sticky mark, and the next step takes the next frame (R23, R126, R325). -/
def Obligations.AnUndecodableFrameIsRefused : Prop :=
  ∀ (s : State) (f : Bytes) (rest : List Bytes) (r : RefusalReason), s.commandPort = f :: rest →
    decode f = .error r →
    ∃ c : Byte, ((r = .unassignedOpcode ∧ c = 1) ∨ (r = .badFrameLength ∧ c = 2) ∨
        (r = .operandTooWide ∧ c = 3) ∨ (r = .presenceMismatch ∧ c = 5)) ∧
      step s = .next { st := { s.st with refused := true }, commandPort := rest,
                       responsePort := s.responsePort ++ [[255, c, 0]] }

/-- Every frame is run to completion in one step, and answered by exactly one response frame before
the next is taken (R5, 20_memory.md R77). -/
def Obligations.EveryFrameIsAnsweredOnce : Prop :=
  ∀ (s : State) (f : Bytes) (rest : List Bytes), s.commandPort = f :: rest →
    ∃ t frame, step s = .next t ∧ t.commandPort = rest ∧
      t.responsePort = s.responsePort ++ [frame] ∧ 3 ≤ frame.length

/-! ### BitFieldCodec (40_bitfield.md) -/

/-- BF_DECODE of admissible operands answers the field: the bit at the lowest wire index is the most
significant bit of the value, and the value is extended with zeros to 16 bits (R151). -/
def Obligations.BfDecodeReadsTheField : Prop :=
  ∀ (s : State) (off : BitVec 16) (w : Byte) (B : Bytes), 1 ≤ w.toNat → w.toNat ≤ 16 →
    off.toNat + w.toNat ≤ 8 * B.length →
    ∃ v : BitVec 16,
      AnswersOk (.bfDecode off w B) s s.st [v.extractLsb' 8 8, v.extractLsb' 0 8] ∧
      (∀ i < w.toNat, v.getLsbD (w.toNat - 1 - i) =
        (B.getD ((off.toNat + i) / 8) 0).getMsbD ((off.toNat + i) % 8)) ∧
      ∀ j, w.toNat ≤ j → v.getLsbD j = false

/-- BF_ENCODE of admissible operands answers a sequence of the same length, whose field holds the value
and whose other bits are kept (R153, R155). -/
def Obligations.BfEncodeWritesTheField : Prop :=
  ∀ (s : State) (off : BitVec 16) (w : Byte) (v : BitVec 16) (B : Bytes), B.length < 2 ^ 32 →
    1 ≤ w.toNat → w.toNat ≤ 16 → off.toNat + w.toNat ≤ 8 * B.length → v.toNat < 2 ^ w.toNat →
    ∃ B' : Bytes, AnswersOk (.bfEncode off w v B) s s.st (seqResult B') ∧ B'.length = B.length ∧
      ∀ p < 8 * B.length, (B'.getD (p / 8) 0).getMsbD (p % 8) =
        if off.toNat ≤ p ∧ p < off.toNat + w.toNat
        then v.getLsbD (w.toNat - 1 - (p - off.toNat))
        else (B.getD (p / 8) 0).getMsbD (p % 8)

/-- Any other operands of the two commands are refused with reason 4, a value too wide included: it is
not masked (R152). -/
def Obligations.BfRefusesInadmissibleOperands : Prop :=
  ∀ (s : State) (off : BitVec 16) (w : Byte) (v : BitVec 16) (B : Bytes),
    (¬(1 ≤ w.toNat ∧ w.toNat ≤ 16 ∧ off.toNat + w.toNat ≤ 8 * B.length) →
      RefusedWith (.bfDecode off w B) s 4) ∧
    (¬(1 ≤ w.toNat ∧ w.toNat ≤ 16 ∧ off.toNat + w.toNat ≤ 8 * B.length ∧
        v.toNat < 2 ^ w.toNat) →
      RefusedWith (.bfEncode off w v B) s 4)

/-- The laws of Field and SetField: a field written reads back, writing what was read changes nothing,
and writes to two disjoint fields commute (R156). -/
def Obligations.FieldAndSetFieldLaws : Prop :=
  ∀ (B : Bytes) (off w v : Nat), off + w ≤ 8 * B.length → v < 2 ^ w →
    field (setField B off w v) off w = v ∧
    setField B off w (field B off w) = B ∧
    ∀ off' w' v', off' + w' ≤ 8 * B.length → off + w ≤ off' ∨ off' + w' ≤ off →
      field (setField B off w v) off' w' = field B off' w' ∧
      setField (setField B off w v) off' w' v' = setField (setField B off' w' v') off w v

/-! ### PrimaryHeader (41_primary_header.md) -/

/-- PH_ENCODE of a header of version 0 answers the six bytes of the wire layout; of any other version
it is refused with reason 6 (R100, R171). -/
def Obligations.PhEncodeAnswersTheWireLayout : Prop :=
  ∀ (s : State) (h : PrimaryHeader),
    (h.versionNumber = 0 → AnswersOk (.phEncode h) s s.st (phWire h)) ∧
    (h.versionNumber ≠ 0 → RefusedWith (.phEncode h) s 6)

/-- PH_DECODE of six bytes or more answers the header they spell, whatever its version, the bytes after
the sixth being ignored; of fewer, `MalformedHeader` (R106, R172, R173). -/
def Obligations.PhDecodeAnswersTheFields : Prop :=
  ∀ s : State,
    (∀ (b0 b1 b2 b3 b4 b5 : Byte) (rest : Bytes),
      AnswersOk (.phDecode (b0 :: b1 :: b2 :: b3 :: b4 :: b5 :: rest)) s s.st
        (phResult (phOfWire b0 b1 b2 b3 b4 b5))) ∧
    ∀ B : Bytes, B.length < 6 → Answers (.phDecode B) s s.st [2, 0, 0]

/-- PH_DECODE undoes PH_ENCODE on every header of version 0, and PH_ENCODE undoes PH_DECODE on every
six bytes whose first three bits are 0 (R174). -/
def Obligations.PrimaryHeaderRoundTrip : Prop :=
  ∀ s : State,
    (∀ h : PrimaryHeader, h.versionNumber = 0 →
      ∃ B, AnswersOk (.phEncode h) s s.st B ∧ AnswersOk (.phDecode B) s s.st (phResult h)) ∧
    ∀ B : Bytes, B.length = 6 → (B.getD 0 0).toNat < 32 →
      ∃ h, AnswersOk (.phDecode B) s s.st (phResult h) ∧ AnswersOk (.phEncode h) s s.st B

/-- The four role predicates answer whether `sequenceFlag` is their role's code; they read nothing else
and write nothing (R176 to R179). -/
def Obligations.RolePredicatesTestTheSequenceFlag : Prop :=
  ∀ (s : State) (h : PrimaryHeader),
    AnswersOk (.phIsFirst h) s s.st [if h.sequenceFlag = 0b01 then 1 else 0] ∧
    AnswersOk (.phIsContinuation h) s s.st [if h.sequenceFlag = 0b00 then 1 else 0] ∧
    AnswersOk (.phIsLast h) s s.st [if h.sequenceFlag = 0b10 then 1 else 0] ∧
    AnswersOk (.phIsUnsegmented h) s s.st [if h.sequenceFlag = 0b11 then 1 else 0]

/-- PH_IS_SEGMENTED answers 1 exactly when one of PH_IS_FIRST, PH_IS_CONTINUATION and PH_IS_LAST does,
and 0 exactly when PH_IS_UNSEGMENTED answers 1 (R175, R180; R175's reading is the spec's own, D9). -/
def Obligations.SegmentedIsTheOtherThreeRoles : Prop :=
  ∀ (s : State) (h : PrimaryHeader), ∃ g f c l u : Bool,
    AnswersOk (.phIsSegmented h) s s.st [if g then 1 else 0] ∧
    AnswersOk (.phIsFirst h) s s.st [if f then 1 else 0] ∧
    AnswersOk (.phIsContinuation h) s s.st [if c then 1 else 0] ∧
    AnswersOk (.phIsLast h) s s.st [if l then 1 else 0] ∧
    AnswersOk (.phIsUnsegmented h) s s.st [if u then 1 else 0] ∧
    g = (f || c || l) ∧ u = !g ∧ [f, c, l, u].count true = 1

/-! ### SecondaryHeader (42_secondary_header.md) -/

/-- SH_ENCODE answers the 6-byte or the 9-byte wire form, as the type selects (R102, R103). -/
def Obligations.ShEncodeAnswersTheWireLayout : Prop :=
  ∀ (s : State) (h : SecondaryHeader), AnswersOk (.shEncode h) s s.st (seqResult (shWire h)) ∧
    (shWire h).length = if h.channel.isSome then 9 else 6

/-- SH_DECODE answers the header the bytes spell: the 6-byte form when bit 7 of byte 4 is 0, whatever
`length` beyond 6, and the 9-byte form when it is 1 (R106, R203). -/
def Obligations.ShDecodeAnswersTheFields : Prop :=
  ∀ (s : State) (length : BitVec 32) (t0 t1 t2 t3 b4 b5 : Byte) (rest : Bytes),
    length.toNat ≤ 6 + rest.length →
    (b4.getLsbD 7 = false → 6 ≤ length.toNat →
      AnswersOk (.shDecode length (t0 :: t1 :: t2 :: t3 :: b4 :: b5 :: rest)) s s.st
        (shResult (sh6OfWire t0 t1 t2 t3 b4 b5))) ∧
    ∀ (b6 b7 b8 : Byte) (more : Bytes), rest = b6 :: b7 :: b8 :: more → b4.getLsbD 7 = true →
      9 ≤ length.toNat →
      AnswersOk (.shDecode length (t0 :: t1 :: t2 :: t3 :: b4 :: b5 :: rest)) s s.st
        (shResult (sh9OfWire t0 t1 t2 t3 b4 b5 b6 b7 b8))

/-- SH_DECODE with `length` beyond the bytes is refused with reason 7; otherwise with `length` below 6,
or below 9 when bit 7 of byte 4 is 1, it answers `HeaderTooShort` (R203). -/
def Obligations.ShDecodeRefusesAndFailsShort : Prop :=
  ∀ (s : State) (length : BitVec 32) (B : Bytes),
    (B.length < length.toNat → RefusedWith (.shDecode length B) s 7) ∧
    (length.toNat ≤ B.length → length.toNat < 6 →
      Answers (.shDecode length B) s s.st [3, 0, 0]) ∧
    (length.toNat ≤ B.length → 6 ≤ length.toNat → length.toNat < 9 →
      (B.getD 4 0).getLsbD 7 = true → Answers (.shDecode length B) s s.st [3, 0, 0])

/-- SH_LENGTH answers 6 for type 0 and 9 for type 1 (R200, R204). -/
def Obligations.ShLengthIsSixOrNine : Prop :=
  ∀ (s : State) (h : SecondaryHeader),
    (h.secondaryHeaderType = 0 → AnswersOk (.shLength h) s s.st [6]) ∧
    (h.secondaryHeaderType = 1 → AnswersOk (.shLength h) s s.st [9])

/-- SH_DECODE undoes SH_ENCODE, and SH_ENCODE undoes SH_DECODE up to the header's own length
(R205). -/
def Obligations.SecondaryHeaderRoundTrip : Prop :=
  (∀ h : SecondaryHeader, shDecode (shLen h) (shBytes h) = .ok h) ∧
  ∀ (n : Nat) (B : Bytes) (h : SecondaryHeader), shDecode n B = .ok h →
    shBytes h = B.take (shLen h)

/-! ### SpacePacket (43_space_packet.md) -/

/-- SP_ENCODE of a packet it accepts answers the wire bytes of the packet with `packetDataLength` set to
`D − 1`, whatever it was, and that packet; the bytes number `6 + D` (R222, R223). -/
def Obligations.SpEncodeRecomputesTheLength : Prop :=
  ∀ (s : State) (x : SpacePacket) (d : Nat),
    d = (match x.secondary with | none => 0 | some h => if h.channel.isSome then 9 else 6) +
      x.payload.length →
    (x.secondary.isSome = true ↔ x.primary.secondaryHeaderFlag = 1) →
    x.primary.versionNumber = 0 → 1 ≤ d → d ≤ 65536 →
    ∃ y : SpacePacket, y = { x with primary :=
        { x.primary with packetDataLength := BitVec.ofNat 16 (d - 1) } } ∧
      y.primary.packetDataLength.toNat = d - 1 ∧
      AnswersOk (.spEncode x) s s.st (seqResult (spWire y) ++ spResult y) ∧
      (spWire y).length = 6 + d

/-- SP_ENCODE is refused, in this order, for a presence that disagrees (5), a version other than 0 (6),
an empty data field (8) and one above 65536 bytes (9) (R223, R225, R226, R325). -/
def Obligations.SpEncodeRefusesInOrder : Prop :=
  ∀ (s : State) (x : SpacePacket),
    (¬(x.secondary.isSome = true ↔ x.primary.secondaryHeaderFlag = 1) →
      RefusedWith (.spEncode x) s 5) ∧
    ((x.secondary.isSome = true ↔ x.primary.secondaryHeaderFlag = 1) →
      (x.primary.versionNumber ≠ 0 → RefusedWith (.spEncode x) s 6) ∧
      (x.primary.versionNumber = 0 →
        (x.secondary = none → x.payload = [] → RefusedWith (.spEncode x) s 8) ∧
        (65536 < (match x.secondary with | none => 0 | some h => if h.channel.isSome then 9 else 6) +
          x.payload.length → RefusedWith (.spEncode x) s 9)))

/-- SP_DECODE answers the primary header, the secondary header that follows when the flag is 1, and
every byte after them as payload (R228, R229). -/
def Obligations.SpDecodeAnswersTheParts : Prop :=
  ∀ (s : State) (b0 b1 b2 b3 b4 b5 : Byte) (rest : Bytes), rest.length < 2 ^ 32 →
    (b0.getLsbD 3 = false →
      AnswersOk (.spDecode (b0 :: b1 :: b2 :: b3 :: b4 :: b5 :: rest)) s s.st
        (spResult ⟨phOfWire b0 b1 b2 b3 b4 b5, none, rest⟩)) ∧
    (b0.getLsbD 3 = true → ∀ (t0 t1 t2 t3 c n : Byte) (payload : Bytes), c.getLsbD 7 = false →
      rest = t0 :: t1 :: t2 :: t3 :: c :: n :: payload →
      AnswersOk (.spDecode (b0 :: b1 :: b2 :: b3 :: b4 :: b5 :: rest)) s s.st
        (spResult ⟨phOfWire b0 b1 b2 b3 b4 b5, some (sh6OfWire t0 t1 t2 t3 c n), payload⟩)) ∧
    (b0.getLsbD 3 = true → ∀ (t0 t1 t2 t3 c n k f g : Byte) (payload : Bytes),
      c.getLsbD 7 = true → rest = t0 :: t1 :: t2 :: t3 :: c :: n :: k :: f :: g :: payload →
      AnswersOk (.spDecode (b0 :: b1 :: b2 :: b3 :: b4 :: b5 :: rest)) s s.st
        (spResult ⟨phOfWire b0 b1 b2 b3 b4 b5, some (sh9OfWire t0 t1 t2 t3 c n k f g), payload⟩))

/-- SP_DECODE answers `NotASpacePacket` below six bytes, and `HeaderTooShort` when the flag is 1 and
fewer than 6 bytes follow, or fewer than 9 when they begin a 9-byte header (R228). -/
def Obligations.SpDecodeFailsShort : Prop :=
  ∀ s : State,
    (∀ B : Bytes, B.length < 6 → Answers (.spDecode B) s s.st [1, 0, 0]) ∧
    ∀ (b0 b1 b2 b3 b4 b5 : Byte) (rest : Bytes), b0.getLsbD 3 = true →
      rest.length < 6 ∨ (rest.length < 9 ∧ (rest.getD 4 0).getLsbD 7 = true) →
      Answers (.spDecode (b0 :: b1 :: b2 :: b3 :: b4 :: b5 :: rest)) s s.st [3, 0, 0]

/-- SP_DECODE does not use `packetDataLength`: it keeps the value the bytes carry, the payload is every
byte after the headers to the end of the buffer, and any other declared length gives the same packet
but for that field, or the same error (R229). -/
def Obligations.SpDecodeIgnoresTheDeclaredLength : Prop :=
  ∀ (b0 b1 b2 b3 l1 l0 m1 m0 : Byte) (rest : Bytes),
    (∀ x, spDecode (b0 :: b1 :: b2 :: b3 :: l1 :: l0 :: rest) = .ok x →
      x.primary.packetDataLength = l1 ++ l0 ∧
      encodedSize x.secondary ≤ rest.length ∧
      x.payload = rest.drop (encodedSize x.secondary) ∧
      spDecode (b0 :: b1 :: b2 :: b3 :: m1 :: m0 :: rest) =
        .ok { x with primary := { x.primary with packetDataLength := m1 ++ m0 } }) ∧
    ∀ e, spDecode (b0 :: b1 :: b2 :: b3 :: l1 :: l0 :: rest) = .error e →
      spDecode (b0 :: b1 :: b2 :: b3 :: m1 :: m0 :: rest) = .error e

/-- SP_DECODE of what SP_ENCODE answers is the packet it answers, which is the operand exactly when its
`packetDataLength` was already `D − 1`; and SP_ENCODE gives a decoded buffer back exactly when its
version is 0 and its `packetDataLength` is its size minus 7 (R232). -/
def Obligations.SpacePacketRoundTrip : Prop :=
  (∀ (x y : SpacePacket) (B : Bytes), spEncode x = .ok (B, y) →
    spDecode B = .ok y ∧
    (y = x ↔ x.primary.packetDataLength.toNat + 1 =
      encodedSize x.secondary + x.payload.length)) ∧
  ∀ (x : SpacePacket) (B : Bytes), spDecode B = .ok x →
    ((∃ y, spEncode x = .ok (B, y)) ↔
      x.primary.versionNumber = 0 ∧ x.primary.packetDataLength.toNat + 7 = B.length)

/-- SP_HAS_SECONDARY answers whether the packet has a secondary header, and is refused with reason 5
when its presence disagrees with the flag (R231). -/
def Obligations.SpHasSecondaryAnswersPresence : Prop :=
  ∀ (s : State) (x : SpacePacket),
    ((x.secondary.isSome = true ↔ x.primary.secondaryHeaderFlag = 1) →
      AnswersOk (.spHasSecondary x) s s.st [if x.secondary = none then 0 else 1]) ∧
    (¬(x.secondary.isSome = true ↔ x.primary.secondaryHeaderFlag = 1) →
      RefusedWith (.spHasSecondary x) s 5)

/-! ### The standalone accumulator (44_segment_accumulator.md) -/

/-- SA_INIT installs an Empty accumulator with its channel id and watch value, whatever was there
(R250). -/
def Obligations.SaInitInstallsAnEmptyAccumulator : Prop :=
  ∀ (s : State) (k : ChannelId) (w : Bool),
    AnswersOk (.saInit k w) s
      { s.st with
        sa := some
          { channelId := k, state := .empty, pendingFragments := [], expectedSegmentCount := none,
            watchSegmentCounter := w } } []

/-- The packets a push can take: well formed, with the ADU channel `ch`. -/
def HasChannel (x : SpacePacket) (ch : AduChannel) : Prop :=
  x.wellFormed = true ∧ ∃ h, x.secondary = some h ∧ h.channel = some ch

/-- The counter check passes: watching is off, or no ADU is being assembled, or the count is the one
expected (R262). -/
def CountAdmitted (a : Accumulator) (c : SegmentCount) : Prop :=
  a.watchSegmentCounter = true → a.state = .assembling → a.expectedSegmentCount = some c

/-- SA_PUSH of a segment the transition table accepts: in Empty and Error an opener starts the buffer
anew, in Assembling a Continuation or a Last is appended; the expected count becomes the segment's plus
one modulo 16384, and the status is OK (R255, R256, R261, R264). -/
def Obligations.SaPushAcceptsLegalSegments : Prop :=
  ∀ (s : State) (a : Accumulator) (x : SpacePacket) (ch : AduChannel), s.st.sa = some a →
    HasChannel x ch → CountAdmitted a ch.aduSegmentCount →
    let after := fun (state : AccState) (fragments : List SpacePacket) =>
      { s.st with sa := some { a with
          state := state, pendingFragments := fragments,
          expectedSegmentCount := some (ch.aduSegmentCount + 1) } }
    (a.state = .empty ∨ a.state = .error →
      (ch.aduSegmentFlag = 0b11 → AnswersOk (.saPush x) s (after .complete [x]) []) ∧
      (ch.aduSegmentFlag = 0b01 → AnswersOk (.saPush x) s (after .assembling [x]) [])) ∧
    (a.state = .assembling →
      (ch.aduSegmentFlag = 0b00 →
        AnswersOk (.saPush x) s (after .assembling (a.pendingFragments ++ [x])) []) ∧
      (ch.aduSegmentFlag = 0b10 →
        AnswersOk (.saPush x) s (after .complete (a.pendingFragments ++ [x])) []))

/-- SA_PUSH to a Complete accumulator acts as to an Empty one, with no counter check: the completed
ADU's fragments are dropped by the push whatever its outcome (R254; the reading is the spec's own,
D37). -/
def Obligations.SaPushTakesCompleteAsEmpty : Prop :=
  ∀ (s : State) (a : Accumulator) (x : SpacePacket) (ch : AduChannel), s.st.sa = some a →
    a.state = .complete → HasChannel x ch →
    exec (.saPush x) s = exec (.saPush x)
      { s with st := { s.st with
        sa := some
          { a with state := .empty, pendingFragments := [], expectedSegmentCount := none } } } ∧
    ∃ b frame, Answers (.saPush x) s { s.st with sa := some b } frame ∧
      ∀ y ∈ b.pendingFragments, y = x

/-- SA_PUSH of a segment the table does not accept leaves the accumulator in Error with no fragments,
writes no log record and answers `IllegalSegmentTransition` with the cell's message id, R260's First
included (R257 to R260, R263). -/
def Obligations.SaPushRejectsIllegalSegments : Prop :=
  ∀ (s : State) (a : Accumulator) (x : SpacePacket) (ch : AduChannel), s.st.sa = some a →
    HasChannel x ch → CountAdmitted a ch.aduSegmentCount →
    let after :=
      { s.st with
        sa := some
          { a with state := .error, pendingFragments := [], expectedSegmentCount := none } }
    (a.state ≠ .assembling →
      (ch.aduSegmentFlag = 0b00 → Answers (.saPush x) s after [6, 0, 1]) ∧
      (ch.aduSegmentFlag = 0b10 → Answers (.saPush x) s after [6, 0, 2])) ∧
    (a.state = .assembling →
      (ch.aduSegmentFlag = 0b11 → Answers (.saPush x) s after [6, 0, 3]) ∧
      (ch.aduSegmentFlag = 0b01 → Answers (.saPush x) s after [6, 0, 4]))

/-- SA_PUSH with watching on, in Assembling, of a segment whose count is not the expected one: whatever
the role, the accumulator goes to Error with no fragments, one Discontinuity record with the previous
and the new count is logged, and the status is `SegmentDiscontinuity` with message 5 (R262). -/
def Obligations.SaPushDetectsDiscontinuity : Prop :=
  ∀ (s : State) (a : Accumulator) (x : SpacePacket) (ch : AduChannel) (e : SegmentCount)
    (r : SegmentRole), s.st.sa = some a → HasChannel x ch → a.watchSegmentCounter = true →
    a.state = .assembling → a.expectedSegmentCount = some e → ch.aduSegmentCount ≠ e →
    roleCode r = ch.aduSegmentFlag →
    Answers (.saPush x) s
      { s.st with
        sa := some { a with
          state := .error, pendingFragments := [], expectedSegmentCount := none }
        diagLog := s.st.diagLog ++ [.discontinuity a.channelId r (e - 1) ch.aduSegmentCount] }
      [7, 0, 5]

/-- SA_PUSH and SA_FINALIZE without an accumulator are refused with reason 11; a packet with no ADU
channel with reason 10, after that; a packet that is not well formed with reason 5, before both: the
decoder refuses such a frame (R125), and that the meaning of SA_PUSH, which R267 gives no such check,
refuses it too is the model's reading (log 14) (R125, R252, R267, R269, R325). -/
def Obligations.SaRefusesInOrder : Prop :=
  ∀ (s : State) (x : SpacePacket),
    (x.wellFormed = false → RefusedWith (.saPush x) s 5) ∧
    (s.st.sa = none → RefusedWith .saFinalize s 11 ∧
      (x.wellFormed = true → RefusedWith (.saPush x) s 11)) ∧
    ∀ a, s.st.sa = some a → x.wellFormed = true →
      (x.secondary = none ∨ ∃ h, x.secondary = some h ∧ h.channel = none) →
      RefusedWith (.saPush x) s 10

/-- SA_FINALIZE of a Complete accumulator answers the ADU: the header fields of the first fragment and
every payload in order, and leaves the accumulator Empty with no fragments (R268, R269). -/
def Obligations.SaFinalizeAnswersTheAdu : Prop :=
  ∀ (s : State) (a : Accumulator) (f : SpacePacket) (rest : List SpacePacket)
    (h : SecondaryHeader) (ch : AduChannel), s.st.sa = some a → a.state = .complete →
    a.pendingFragments = f :: rest → f.secondary = some h → h.channel = some ch →
    ∃ (adu : Adu) (len : BitVec 32), DataLength len adu ∧
      adu =
        { channelId := ch.aduChannelId, category := h.category,
          packetType := f.primary.packetType,
          apidUpper := f.primary.applicationId.extractLsb' 8 3,
          apidLower := f.primary.applicationId.extractLsb' 0 8,
          aduCount := h.aduCount, timeField := h.time,
          data := f.payload ++ rest.flatMap SpacePacket.payload } ∧
      AnswersOk .saFinalize s
        { s.st with
          sa := some
            { a with state := .empty, pendingFragments := [], expectedSegmentCount := none } }
        (aduResult len adu)

/-- SA_FINALIZE in Empty, Assembling or Error answers `NotComplete` and changes nothing (R268, R269). -/
def Obligations.SaFinalizeBeforeCompletionFails : Prop :=
  ∀ (s : State) (a : Accumulator), s.st.sa = some a → a.state ≠ .complete →
    Answers .saFinalize s s.st [9, 0, 0]

/-- From Empty or Error, packets form one ADU exactly when their roles are Unsegmented, or First
Continuation* Last, and, with watching on, their counts are consecutive modulo 16384; SA_FINALIZE then
answers an ADU whose data is their payloads in order (R270, R271). -/
def Obligations.OneAduIsFormedByLegalSequencesOnly : Prop :=
  ∀ (s : State) (a : Accumulator) (xs : List SpacePacket), s.st.sa = some a →
    a.state = .empty ∨ a.state = .error →
    (∀ x ∈ xs, x.wellFormed = true) →
    ∀ chs : List AduChannel, xs.map aduChannel = chs.map some →
      (FormsOneAdu s xs ↔
        LegalRoles (chs.map role) ∧
        (a.watchSegmentCounter = true → Consecutive (chs.map AduChannel.aduSegmentCount))) ∧
      ∀ t, FormsOneAdu s xs → pushAllOk s xs = some t →
        ∃ (b : Block) (adu : Adu) (len : BitVec 32), DataLength len adu ∧
          adu.data = xs.flatMap SpacePacket.payload ∧
          AnswersOk .saFinalize t b (aduResult len adu)

/-! ### The Reassembler (45_reassembler.md) -/

/-- The accumulator a push to channel `k` runs on: the slot's, or a new Empty one with the channel's
watch value (R297). -/
def SlotOrNew (b : Block) (k : ChannelId) (a : Accumulator) : Prop :=
  lookupChannel b.channels k = some a ∨
  (lookupChannel b.channels k = none ∧
    a = { channelId := k, state := .empty, pendingFragments := [], expectedSegmentCount := none,
          watchSegmentCounter := decide (k ∈ b.cfg.rsWatch) })

/-- `after` is the table `before` with the slot `k` holding `a`: every other slot as it was, and the
canonical form kept. -/
def SlotWritten (before after : List (ChannelId × Accumulator)) (k : ChannelId)
    (a : Accumulator) : Prop :=
  lookupChannel after k = some a ∧
  (∀ j, j ≠ k → lookupChannel after j = lookupChannel before j) ∧
  (before.Pairwise (fun p q => p.1.toNat < q.1.toNat) →
    after.Pairwise fun p q => p.1.toNat < q.1.toNat)

/-- RS_PUSH_BYTES of bytes that decode acts as RS_PUSH_PACKET of the packet decoded (R290, R291). -/
def Obligations.RsPushBytesPushesTheDecodedPacket : Prop :=
  ∀ (s : State) (B : Bytes) (x : SpacePacket), spDecode B = .ok x →
    exec (.rsPushBytes B) s = exec (.rsPushPacket x) s

/-- RS_PUSH_BYTES of bytes that do not decode answers `MalformedPacket` with the codec's kind and
changes nothing (R291). -/
def Obligations.RsPushBytesWrapsCodecErrors : Prop :=
  ∀ s : State,
    (∀ B : Bytes, B.length < 6 → Answers (.rsPushBytes B) s s.st [4, 1, 0]) ∧
    ∀ (b0 b1 b2 b3 b4 b5 : Byte) (rest : Bytes), b0.getLsbD 3 = true →
      rest.length < 6 ∨ (rest.length < 9 ∧ (rest.getD 4 0).getLsbD 7 = true) →
      Answers (.rsPushBytes (b0 :: b1 :: b2 :: b3 :: b4 :: b5 :: rest)) s s.st [4, 3, 0]

/-- A packet whose APID low byte is not `APP_ID_LOW` is rejected with `ChannelMismatch` by both entry
points: no channel is created and nothing is written (R295). -/
def Obligations.RsRejectsAnotherApplication : Prop :=
  ∀ (s : State) (x : SpacePacket) (ch : AduChannel), HasChannel x ch →
    x.primary.applicationId.extractLsb' 0 8 ≠ s.st.cfg.appIdLow →
    Answers (.rsPushPacket x) s s.st [5, 0, 0] ∧
    ∀ B, spDecode B = .ok x → Answers (.rsPushBytes B) s s.st [5, 0, 0]

/-- A packet with no ADU channel is refused with reason 10 by both entry points, whatever its APID; a
packet operand that is not well formed with reason 5: the decoder refuses such a frame (R125), and that
the meaning of RS_PUSH_PACKET, which R292 and R296 give no such check, refuses it too is the model's
reading (log 14) (R125, R290, R294, R325). -/
def Obligations.RsRefusesPacketsWithoutChannel : Prop :=
  ∀ (s : State) (x : SpacePacket),
    (x.wellFormed = false → RefusedWith (.rsPushPacket x) s 5) ∧
    (x.wellFormed = true → (x.secondary = none ∨ ∃ h, x.secondary = some h ∧ h.channel = none) →
      RefusedWith (.rsPushPacket x) s 10 ∧
      ∀ B, spDecode B = .ok x → RefusedWith (.rsPushBytes B) s 10)

/-- Either push, of a First outside an ADU or of a Continuation inside one: the channel's accumulator,
created if it is absent, is Assembling with the segment stored; nothing else changes
(R290, R296, R297). -/
def Obligations.RsPushOpensOrExtendsAnAdu : Prop :=
  ∀ (s : State) (x : SpacePacket) (ch : AduChannel) (a : Accumulator), HasChannel x ch →
    x.primary.applicationId.extractLsb' 0 8 = s.st.cfg.appIdLow →
    SlotOrNew s.st ch.aduChannelId a → CountAdmitted a ch.aduSegmentCount →
    ∀ fragments : List SpacePacket,
    (a.state ≠ .assembling ∧ ch.aduSegmentFlag = 0b01 ∧ fragments = [x]) ∨
    (a.state = .assembling ∧ ch.aduSegmentFlag = 0b00 ∧
      fragments = a.pendingFragments ++ [x]) →
    ∃ table, SlotWritten s.st.channels table ch.aduChannelId
        { a with state := .assembling, pendingFragments := fragments,
                 expectedSegmentCount := some (ch.aduSegmentCount + 1) } ∧
      AnswersOk (.rsPushPacket x) s { s.st with channels := table } [] ∧
      ∀ B, spDecode B = .ok x → AnswersOk (.rsPushBytes B) s { s.st with channels := table } []

/-- Either push, of an Unsegmented outside an ADU or of a Last inside one: the ADU is finalized in that
push and appended at the tail of the queue, and the channel's accumulator is Empty again; nothing else
changes (R290, R296, R299). -/
def Obligations.RsPushCompletesAndQueuesAnAdu : Prop :=
  ∀ (s : State) (x f : SpacePacket) (ch c : AduChannel) (h : SecondaryHeader) (a : Accumulator)
    (rest : List SpacePacket), HasChannel x ch →
    x.primary.applicationId.extractLsb' 0 8 = s.st.cfg.appIdLow →
    SlotOrNew s.st ch.aduChannelId a → CountAdmitted a ch.aduSegmentCount →
    (a.state ≠ .assembling ∧ ch.aduSegmentFlag = 0b11 ∧ f :: rest = [x]) ∨
    (a.state = .assembling ∧ ch.aduSegmentFlag = 0b10 ∧
      f :: rest = a.pendingFragments ++ [x]) →
    f.secondary = some h → h.channel = some c →
    ∃ table, SlotWritten s.st.channels table ch.aduChannelId
        { a with state := .empty, pendingFragments := [], expectedSegmentCount := none } ∧
      let after : Block :=
        { s.st with
          channels := table
          completedQueue := s.st.completedQueue ++
            [{ channelId := c.aduChannelId, category := h.category,
               packetType := f.primary.packetType,
               apidUpper := f.primary.applicationId.extractLsb' 8 3,
               apidLower := f.primary.applicationId.extractLsb' 0 8,
               aduCount := h.aduCount, timeField := h.time,
               data := f.payload ++ rest.flatMap SpacePacket.payload }] }
      AnswersOk (.rsPushPacket x) s after [] ∧
      ∀ B, spDecode B = .ok x → AnswersOk (.rsPushBytes B) s after []

/-- RS_PUSH_PACKET that its accumulator rejects answers `ReassemblyError` with the inner kind and the
message of the accumulator's error; the accumulator, created if it was absent, is left in Error with
no fragments, and the log gains the Discontinuity record, if any, and then a ReassemblyFailure
record (R297, R298). -/
def Obligations.RsPushWrapsAndLogsSegmentErrors : Prop :=
  ∀ (s : State) (x : SpacePacket) (ch : AduChannel) (a : Accumulator) (r : SegmentRole),
    HasChannel x ch → x.primary.applicationId.extractLsb' 0 8 = s.st.cfg.appIdLow →
    SlotOrNew s.st ch.aduChannelId a → roleCode r = ch.aduSegmentFlag →
    ∃ table, SlotWritten s.st.channels table ch.aduChannelId
        { a with state := .error, pendingFragments := [], expectedSegmentCount := none } ∧
      let after := fun (records : List LogRecord) =>
        { s.st with channels := table, diagLog := s.st.diagLog ++ records }
      (∀ e, a.watchSegmentCounter = true → a.state = .assembling →
        a.expectedSegmentCount = some e → ch.aduSegmentCount ≠ e →
        Answers (.rsPushPacket x) s
          (after [.discontinuity a.channelId r (e - 1) ch.aduSegmentCount,
            .reassemblyFailure ch.aduChannelId r .segmentDiscontinuity .counterDiscontinuity])
          [8, 7, 5]) ∧
      (CountAdmitted a ch.aduSegmentCount →
        ∀ (m : MessageId) (code : Byte),
        (a.state ≠ .assembling ∧ r = .continuation ∧ m = .continuationWithNoOpener ∧ code = 1) ∨
        (a.state ≠ .assembling ∧ r = .last ∧ m = .lastWithNoOpener ∧ code = 2) ∨
        (a.state = .assembling ∧ r = .unsegmented ∧ m = .unsegmentedMidAdu ∧ code = 3) ∨
        (a.state = .assembling ∧ r = .first ∧ m = .firstMidAdu ∧ code = 4) →
        Answers (.rsPushPacket x) s
          (after [.reassemblyFailure ch.aduChannelId r .illegalSegmentTransition m])
          [8, 6, code])

/-- RS_HAS_COMPLETED answers whether the queue holds an ADU, and changes nothing (R301). -/
def Obligations.RsHasCompletedTestsTheQueue : Prop :=
  ∀ s : State, AnswersOk .rsHasCompleted s s.st [if s.st.completedQueue = [] then 0 else 1]

/-- RS_POP_COMPLETED removes and answers the oldest ADU, and on an empty queue answers
`NoCompletedADU` with no state change (R302). -/
def Obligations.RsPopCompletedTakesTheOldest : Prop :=
  ∀ s : State,
    (∀ (adu : Adu) (rest : List Adu), s.st.completedQueue = adu :: rest →
      ∃ len, DataLength len adu ∧
        AnswersOk .rsPopCompleted s { s.st with completedQueue := rest } (aduResult len adu)) ∧
    (s.st.completedQueue = [] → Answers .rsPopCompleted s s.st [10, 0, 0])

/-- The queue list is a strict FIFO by completion: a command leaves it as it is, or takes its oldest ADU
(RS_POP_COMPLETED only), or appends one ADU at its tail: a push only, of a segment that is its ADU's
last (a Last or an Unsegmented), whose payload ends the ADU's data (R268, R299, R302, R303). -/
def Obligations.TheQueueIsFirstInFirstOut : Prop :=
  ∀ (i : Instr) (s t : State), exec i s = .next t →
    t.st.completedQueue = s.st.completedQueue ∨
    (i = .rsPopCompleted ∧ ∃ adu, s.st.completedQueue = adu :: t.st.completedQueue) ∨
    ∃ x ch adu front,
      (i = .rsPushPacket x ∨ ∃ B, i = .rsPushBytes B ∧ spDecode B = .ok x) ∧ HasChannel x ch ∧
      (ch.aduSegmentFlag = 0b10 ∨ ch.aduSegmentFlag = 0b11) ∧
      t.st.completedQueue = s.st.completedQueue ++ [adu] ∧ adu.data = front ++ x.payload

/-- Channels are independent: a push touches only the slot its packet names, and no other command
touches the table (R304). -/
def Obligations.ChannelsAreIndependent : Prop :=
  ∀ (i : Instr) (s t : State), exec i s = .next t → ∀ j : ChannelId,
    (∀ x, (i = .rsPushPacket x ∨ ∃ B, i = .rsPushBytes B ∧ spDecode B = .ok x) →
      (aduChannel x).map AduChannel.aduChannelId ≠ some j) →
    lookupChannel t.st.channels j = lookupChannel s.st.channels j

/-! ### The whole block -/

/-- The channel table never loses an entry: a channel present stays present, in some accumulator state
(10_state.md R44). -/
def Obligations.NoChannelIsEverLost : Prop :=
  ∀ (s t : State) (k : ChannelId) (a : Accumulator), step s = .next t →
    lookupChannel s.st.channels k = some a → ∃ b, lookupChannel t.st.channels k = some b

/-- No step changes the configuration, clears the refusal mark, drops a log record, or changes the watch
value of a channel (10_state.md R42, R47, R48, R50, 70_reset_and_hazards.md R361). -/
def Obligations.OnlyResetUndoesWhatStays : Prop :=
  ∀ s t : State, step s = .next t →
    t.st.cfg = s.st.cfg ∧ (s.st.refused = true → t.st.refused = true) ∧
    (∃ records, t.st.diagLog = s.st.diagLog ++ records) ∧
    ∀ k a b, lookupChannel s.st.channels k = some a → lookupChannel t.st.channels k = some b →
      b.watchSegmentCounter = a.watchSegmentCounter

/-- The commands that change block state are the six of R78; any other changes nothing, or only the
refusal mark, and RS_HAS_COMPLETED not even that (20_memory.md R78). -/
def Obligations.OnlySixCommandsWriteState : Prop :=
  ∀ (i : Instr) (s t : State), exec i s = .next t →
    (isCodec i = true → t.st = s.st ∨ t.st = { s.st with refused := true }) ∧
    (i = .rsHasCompleted → t.st = s.st)

/-- A codec command is pure: its response depends on its operands alone (00_scope.md R7). -/
def Obligations.CodecResponsesDependOnOperandsAlone : Prop :=
  ∀ i : Instr, isCodec i = true →
    ∃ frame, ∀ s : State, ∃ b, Answers i s b frame ∧ b.channels = s.st.channels ∧
      b.completedQueue = s.st.completedQueue ∧ b.sa = s.st.sa ∧ b.diagLog = s.st.diagLog ∧
      b.cfg = s.st.cfg

/-- The writes kept after an error, all of them, by the response: none for status 1 to 5, 9 and 10; the
mark for 255; for 6 and 7, SA_PUSH's accumulator in Error, with the Discontinuity record of the pushed
segment for 7 and no record for 6; for 8, in the slot of the pushed packet's ADU channel and no other,
the accumulator in Error, and the records of the pushed segment, the last a ReassemblyFailure with the
kind and the message that the frame's inner and message bytes name; no other status occurs but 0
(60_exceptions.md R320, R327). -/
def Obligations.WritesKeptAfterAnError : Prop :=
  ∀ (i : Instr) (s t : State) (frame : Bytes) (status : Byte), exec i s = .next t →
    t.responsePort = s.responsePort ++ [frame] → frame.head? = some status →
    status = 0 ∨
    (status.toNat ∈ [1, 2, 3, 4, 5, 9, 10] ∧ t.st = s.st) ∨
    (status = 255 ∧ t.st = { s.st with refused := true }) ∨
    (∃ x ch a, i = .saPush x ∧ HasChannel x ch ∧ s.st.sa = some a ∧
      let failed := { a with
        state := .error, pendingFragments := [], expectedSegmentCount := none }
      ((∃ message : Byte, message.toNat ∈ [1, 2, 3, 4] ∧ frame = [6, 0, message] ∧
          t.st = { s.st with sa := some failed }) ∨
       (∃ r e, roleCode r = ch.aduSegmentFlag ∧ a.expectedSegmentCount = some e ∧
          frame = [7, 0, 5] ∧
          t.st = { s.st with
            sa := some failed
            diagLog := s.st.diagLog ++
              [.discontinuity a.channelId r (e - 1) ch.aduSegmentCount] }))) ∨
    (∃ x ch a table r kind m inner message records,
      (i = .rsPushPacket x ∨ ∃ B, i = .rsPushBytes B ∧ spDecode B = .ok x) ∧ HasChannel x ch ∧
      SlotOrNew s.st ch.aduChannelId a ∧
      SlotWritten s.st.channels table ch.aduChannelId
        { a with state := .error, pendingFragments := [], expectedSegmentCount := none } ∧
      roleCode r = ch.aduSegmentFlag ∧ frame = [8, inner, message] ∧
      t.st = { s.st with
        channels := table
        diagLog := s.st.diagLog ++ records ++
          [.reassemblyFailure ch.aduChannelId r kind m] } ∧
      ((kind = .illegalSegmentTransition ∧ inner = 6 ∧ records = [] ∧
          (m, message) ∈ [(.continuationWithNoOpener, 1), (.lastWithNoOpener, 2),
            (.unsegmentedMidAdu, 3), (.firstMidAdu, 4)]) ∨
       (kind = .segmentDiscontinuity ∧ inner = 7 ∧ m = .counterDiscontinuity ∧ message = 5 ∧
          ∃ e, a.expectedSegmentCount = some e ∧
            records = [.discontinuity a.channelId r (e - 1) ch.aduSegmentCount])))

/-- Every step keeps the invariant of the block: tables in canonical form, accumulators as R39 to R41
say, no Complete accumulator in a slot, every fragment and every queued ADU of the configured
application (10_state.md R39, R41, R45, 45_reassembler.md R305). -/
def Obligations.EveryStepKeepsTheInvariant : Prop :=
  ∀ s t : State, s.st.Inv → step s = .next t → t.st.Inv

/-- Reset leaves the block with its parameters, no channel, an empty queue, no standalone accumulator, an
empty log and no refusal mark, for every value of the parameters; it meets the invariant whenever the
watch list is in canonical form, as at the default (10_state.md R52, 70_reset_and_hazards.md R360). -/
def Obligations.ResetLeavesTheEmptyBlock : Prop :=
  (∀ (app : Byte) (watch : List ChannelId),
    (State.resetWith app watch).st =
      { cfg := { appIdLow := app, rsWatch := watch }, channels := [], completedQueue := [],
        sa := none, diagLog := [], refused := false } ∧
    (watch.Pairwise (fun j k => j.toNat < k.toNat) → (State.resetWith app watch).st.Inv)) ∧
  State.reset = State.resetWith Config.appIdLow [] ∧ State.reset.st.Inv
end

