-- ==== Sys2Proof/Laws/State.lean ====
section
/-! SUPPORT. One lemma per field per update of the state, all true by `rfl`. -/

namespace Sys2Proof.Machine

@[simp] theorem complete_st (s : State) (b : Block) (r : Reply) :
    (complete s b r).st = markRefusal b r := rfl
@[simp] theorem complete_commandPort (s : State) (b : Block) (r : Reply) :
    (complete s b r).commandPort = s.commandPort := rfl
@[simp] theorem complete_responsePort (s : State) (b : Block) (r : Reply) :
    (complete s b r).responsePort = s.responsePort ++ [responseFrame r] := rfl

@[simp] theorem reply_st (s : State) (r : Reply) : (reply s r).st = markRefusal s.st r := rfl
@[simp] theorem reply_commandPort (s : State) (r : Reply) :
    (reply s r).commandPort = s.commandPort := rfl
@[simp] theorem reply_responsePort (s : State) (r : Reply) :
    (reply s r).responsePort = s.responsePort ++ [responseFrame r] := rfl

@[simp] theorem issueNext_st (s : State) (f : Bytes) : (issueNext s f).st = s.st := rfl
@[simp] theorem issueNext_commandPort (s : State) (f : Bytes) :
    (issueNext s f).commandPort = f :: s.commandPort := rfl
@[simp] theorem issueNext_responsePort (s : State) (f : Bytes) :
    (issueNext s f).responsePort = s.responsePort := rfl

@[simp] theorem markRefusal_ok (b : Block) (r : Bytes) : markRefusal b (.ok r) = b := rfl
@[simp] theorem markRefusal_raise (b : Block) (k : ErrorKind) (i : Option ErrorKind)
    (m : MessageId) : markRefusal b (.error (.raise k i m)) = b := rfl
@[simp] theorem markRefusal_refuse (b : Block) (r : RefusalReason) :
    markRefusal b (.error (.refuse r)) = { b with refused := true } := rfl

@[simp] theorem markRefusal_cfg (b : Block) (r : Reply) : (markRefusal b r).cfg = b.cfg := by
  rcases r with (_ | _) | _ <;> rfl
@[simp] theorem markRefusal_channels (b : Block) (r : Reply) :
    (markRefusal b r).channels = b.channels := by rcases r with (_ | _) | _ <;> rfl
@[simp] theorem markRefusal_completedQueue (b : Block) (r : Reply) :
    (markRefusal b r).completedQueue = b.completedQueue := by rcases r with (_ | _) | _ <;> rfl
@[simp] theorem markRefusal_sa (b : Block) (r : Reply) : (markRefusal b r).sa = b.sa := by
  rcases r with (_ | _) | _ <;> rfl
@[simp] theorem markRefusal_diagLog (b : Block) (r : Reply) :
    (markRefusal b r).diagLog = b.diagLog := by rcases r with (_ | _) | _ <;> rfl

@[simp] theorem resetWith_st (a : Byte) (w : List ChannelId) :
    (State.resetWith a w).st = Block.resetWith a w := rfl
@[simp] theorem reset_commandPort : State.reset.commandPort = [] := rfl
@[simp] theorem reset_responsePort : State.reset.responsePort = [] := rfl

@[simp] theorem accError_state (a : Accumulator) : (accError a).state = .error := rfl
@[simp] theorem accError_pendingFragments (a : Accumulator) :
    (accError a).pendingFragments = [] := rfl
@[simp] theorem accError_expectedSegmentCount (a : Accumulator) :
    (accError a).expectedSegmentCount = none := rfl
@[simp] theorem accError_channelId (a : Accumulator) : (accError a).channelId = a.channelId := rfl
@[simp] theorem accError_watchSegmentCounter (a : Accumulator) :
    (accError a).watchSegmentCounter = a.watchSegmentCounter := rfl

@[simp] theorem accEmptied_state (a : Accumulator) : (accEmptied a).state = .empty := rfl
@[simp] theorem accEmptied_pendingFragments (a : Accumulator) :
    (accEmptied a).pendingFragments = [] := rfl
@[simp] theorem accEmptied_expectedSegmentCount (a : Accumulator) :
    (accEmptied a).expectedSegmentCount = none := rfl
@[simp] theorem accEmptied_channelId (a : Accumulator) : (accEmptied a).channelId = a.channelId := rfl
@[simp] theorem accEmptied_watchSegmentCounter (a : Accumulator) :
    (accEmptied a).watchSegmentCounter = a.watchSegmentCounter := rfl

@[simp] theorem newAccumulator_state (k : ChannelId) (w : Bool) :
    (newAccumulator k w).state = .empty := rfl
@[simp] theorem newAccumulator_pendingFragments (k : ChannelId) (w : Bool) :
    (newAccumulator k w).pendingFragments = [] := rfl
@[simp] theorem newAccumulator_expectedSegmentCount (k : ChannelId) (w : Bool) :
    (newAccumulator k w).expectedSegmentCount = none := rfl
@[simp] theorem newAccumulator_channelId (k : ChannelId) (w : Bool) :
    (newAccumulator k w).channelId = k := rfl
@[simp] theorem newAccumulator_watchSegmentCounter (k : ChannelId) (w : Bool) :
    (newAccumulator k w).watchSegmentCounter = w := rfl

end Sys2Proof.Machine
end

