-- ==== Sys2Proof/Laws/Accumulator.lean ====
section
/-! SUPPORT. What a push and a finalize can do to an accumulator (44_segment_accumulator.md R250 to
R269), said once; and the segment counter. -/

namespace Sys2Proof.Machine

/-- The successor modulo 16384 is the 14-bit sum with 1 (R41, R11). -/
theorem nextCount_eq (c : SegmentCount) : nextCount c = c + 1 := by
  apply BitVec.eq_of_toNat_eq
  simp [nextCount, Config.nMaxAduSegmentCount, Config.aduSegmentCountWidth, BitVec.toNat_add]

/-- The predecessor modulo 16384 is the 14-bit difference with 1 (R262). -/
theorem previousCount_eq (c : SegmentCount) : previousCount c = c - 1 := by
  apply BitVec.eq_of_toNat_eq
  have := c.isLt
  simp [previousCount, Config.nMaxAduSegmentCount, Config.aduSegmentCountWidth, BitVec.toNat_sub]
  omega

@[simp] theorem roleOfCode_roleCode (r : SegmentRole) : roleOfCode (roleCode r) = r := by
  cases r <;> decide

@[simp] theorem roleCode_roleOfCode (c : BitVec 2) : roleCode (roleOfCode c) = c := by
  revert c; decide

/-- The counter check finds a mismatch exactly when watching is on, the accumulator is Assembling and
another count is expected (R262). -/
theorem counterMismatch_eq_some {a : Accumulator} {c e : SegmentCount} :
    counterMismatch a c = some e ↔ a.watchSegmentCounter = true ∧ a.state = .assembling ∧
      a.expectedSegmentCount = some e ∧ c ≠ e := by
  unfold counterMismatch
  rcases a.expectedSegmentCount with _ | d
  · simp
  · by_cases hw : a.watchSegmentCounter = true <;> by_cases hs : a.state = .assembling <;>
      by_cases hc : c = d <;> simp [hw, hs, hc]
    rintro rfl; exact hc

/-- The counter check passes in any other case (R262). -/
theorem counterMismatch_eq_none {a : Accumulator} {c : SegmentCount}
    (h : a.watchSegmentCounter = true → a.state = .assembling → a.expectedSegmentCount = some c) :
    counterMismatch a c = none := by
  rcases he : counterMismatch a c with _ | e
  · rfl
  · obtain ⟨hw, hs, hx, hc⟩ := counterMismatch_eq_some.1 he
    rw [h hw hs] at hx; cases hx; exact absurd rfl hc

/-- The cells of the transition table that are errors, each with its message; Complete is taken as
Empty (R254, R257 to R260). -/
def IllegalCell (state : AccState) (r : SegmentRole) (m : MessageId) : Prop :=
  (state ≠ .assembling ∧ r = .continuation ∧ m = .continuationWithNoOpener) ∨
  (state ≠ .assembling ∧ r = .last ∧ m = .lastWithNoOpener) ∨
  (state = .assembling ∧ r = .unsegmented ∧ m = .unsegmentedMidAdu) ∨
  (state = .assembling ∧ r = .first ∧ m = .firstMidAdu)

/-- The message of an illegal transition is one of ids 1 to 4 (30_encoding.md R133). -/
theorem IllegalCell.message_mem {state : AccState} {r : SegmentRole} {m : MessageId}
    (h : IllegalCell state r m) :
    (m, messageCode m) ∈ [(.continuationWithNoOpener, (1 : Byte)), (.lastWithNoOpener, 2),
      (.unsegmentedMidAdu, 3), (.firstMidAdu, 4)] := by
  rcases h with ⟨-, -, rfl⟩ | ⟨-, -, rfl⟩ | ⟨-, -, rfl⟩ | ⟨-, -, rfl⟩ <;> decide

/-- What a push can do (R266): it is refused for want of an ADU channel, or it ends in one of the three
ways of R262, R263 and R265. -/
theorem accPush_cases {a : Accumulator} {x : SpacePacket} {p : PushResult}
    (h : accPush a x = some p) : ∃ ch, aduChannel x = some ch ∧
      ((∃ e, counterMismatch a ch.aduSegmentCount = some e ∧
          p = discontinuityPush a (role ch) e ch.aduSegmentCount) ∨
       (counterMismatch a ch.aduSegmentCount = none ∧
          ((∃ m, IllegalCell a.state (role ch) m ∧ p = illegalPush a m) ∨
           (a.state = .assembling ∧ role ch = .continuation ∧
              p = acceptPush a .assembling (a.pendingFragments ++ [x]) ch.aduSegmentCount) ∨
           (a.state = .assembling ∧ role ch = .last ∧
              p = acceptPush a .complete (a.pendingFragments ++ [x]) ch.aduSegmentCount) ∨
           (a.state ≠ .assembling ∧ role ch = .first ∧
              p = acceptPush a .assembling [x] ch.aduSegmentCount) ∨
           (a.state ≠ .assembling ∧ role ch = .unsegmented ∧
              p = acceptPush a .complete [x] ch.aduSegmentCount)))) := by
  unfold accPush at h
  rcases hc : aduChannel x with _ | ch
  · simp [hc] at h
  · refine ⟨ch, rfl, ?_⟩
    rcases hm : counterMismatch a ch.aduSegmentCount with _ | e
    · refine .inr ⟨rfl, ?_⟩
      simp only [hc, hm, Option.some.injEq] at h
      subst h
      unfold transition
      cases hs : a.state <;> cases hr : role ch <;> simp [effectiveState, IllegalCell]
    · simp only [hc, hm, Option.some.injEq] at h
      exact .inl ⟨e, rfl, h.symm⟩

/-- A push keeps the channel id and the watch value (10_state.md R42). -/
theorem accPush_frame {a : Accumulator} {x : SpacePacket} {p : PushResult}
    (h : accPush a x = some p) :
    p.acc.channelId = a.channelId ∧ p.acc.watchSegmentCounter = a.watchSegmentCounter := by
  obtain ⟨ch, -, ⟨e, -, rfl⟩ | ⟨-, ⟨m, -, rfl⟩ | ⟨-, -, rfl⟩ | ⟨-, -, rfl⟩ | ⟨-, -, rfl⟩ | ⟨-, -, rfl⟩⟩⟩ :=
    accPush_cases h <;> exact ⟨rfl, rfl⟩

/-- What a finalize that answers an ADU does (R268). -/
theorem accFinalize_cases {a a' : Accumulator} {adu : Adu} (h : accFinalize a = some (adu, a')) :
    a.state = .complete ∧ aduOfFragments a.pendingFragments = some adu ∧ a' = accEmptied a := by
  unfold accFinalize at h
  split at h
  · rename_i hs
    rcases ha : aduOfFragments a.pendingFragments with _ | d
    · simp [ha] at h
    · simp only [ha, Option.some.injEq, Prod.mk.injEq] at h
      exact ⟨hs, by rw [h.1], h.2.symm⟩
  · simp at h

/-- A finalize in any state but Complete is `NotComplete` (R268). -/
theorem accFinalize_of_ne {a : Accumulator} (h : a.state ≠ .complete) : accFinalize a = none := by
  simp [accFinalize, h]

end Sys2Proof.Machine
end

