-- ==== Sys2Proof/Laws/Bits.lean ====
section
/-! SUPPORT. What `bit`, `field` and `setField` do (40_bitfield.md R150 to R153, R156): a sequence is
its bits, a field is its bits, and a write changes the field's bits only. -/

namespace Sys2Proof.Machine

theorem and_one_eq_testBit (v k : Nat) : (v >>> k) &&& 1 = (v.testBit k).toNat := by
  rw [Nat.testBit, Nat.and_one_is_mod, Nat.one_and_eq_mod_two]
  rcases Nat.mod_two_eq_zero_or_one (v >>> k) with h | h <;> simp [h]

/-- Bit `p` is bit `p mod 8` of byte `p div 8`, counted from the most significant (R150). -/
theorem bit_eq_getMsbD (B : Bytes) (p : Nat) :
    bit B p = ((B.getD (p / 8) 0).getMsbD (p % 8)).toNat := by
  have h : p % 8 < 8 := Nat.mod_lt _ (by decide)
  have e : 8 - 1 - p % 8 = 7 - p % 8 := by omega
  simp only [bit, and_one_eq_testBit, BitVec.getMsbD, BitVec.getLsbD, h, decide_true,
    Bool.true_and, e]

theorem bit_lt_two (B : Bytes) (p : Nat) : bit B p < 2 := by
  rw [bit_eq_getMsbD]; exact Bool.toNat_lt _

/-- The byte of eight bits has those bits (R17). -/
theorem byteOfBits_getMsbD (f : Nat → Bool) (j : Nat) (hj : j < 8) :
    (byteOfBits fun k => (f k).toNat).getMsbD j = f j := by
  have key : ∀ b0 b1 b2 b3 b4 b5 b6 b7 : Bool, ∀ j : Fin 8,
      (BitVec.ofNat 8 (b0.toNat <<< 7 + (b1.toNat <<< 6 + (b2.toNat <<< 5 + (b3.toNat <<< 4 +
        (b4.toNat <<< 3 + (b5.toNat <<< 2 + (b6.toNat <<< 1 + (b7.toNat <<< 0 + 0))))))))).getMsbD j
      = [b0, b1, b2, b3, b4, b5, b6, b7].getD j false := by decide +kernel
  have := key (f 0) (f 1) (f 2) (f 3) (f 4) (f 5) (f 6) (f 7) ⟨j, hj⟩
  have e : byteOfBits (fun k => (f k).toNat) =
      BitVec.ofNat 8 ((f 0).toNat <<< 7 + ((f 1).toNat <<< 6 + ((f 2).toNat <<< 5 +
        ((f 3).toNat <<< 4 + ((f 4).toNat <<< 3 + ((f 5).toNat <<< 2 + ((f 6).toNat <<< 1 +
        ((f 7).toNat <<< 0 + 0)))))))) := rfl
  rw [e, this]
  interval_cases j <;> rfl

/-- Two bytes with the same eight bits are equal. -/
theorem byte_ext {a b : Byte} (h : ∀ j < 8, a.getMsbD j = b.getMsbD j) : a = b := by
  apply BitVec.eq_of_getMsbD_eq
  intro i hi; exact h i hi

/-- A byte sequence is its length and its bits (R150). -/
theorem bytes_ext {A B : Bytes} (hl : A.length = B.length)
    (h : ∀ p < 8 * B.length, bit A p = bit B p) : A = B := by
  apply List.ext_getElem hl
  intro i h1 h2
  apply byte_ext
  intro j hj
  have := h (8 * i + j) (by omega)
  rw [bit_eq_getMsbD, bit_eq_getMsbD] at this
  have e1 : (8 * i + j) / 8 = i := by omega
  have e2 : (8 * i + j) % 8 = j := by omega
  rw [e1, e2, List.getD_eq_getElem _ _ h1, List.getD_eq_getElem _ _ h2] at this
  generalize A[i].getMsbD j = x at *
  generalize B[i].getMsbD j = y at *
  revert this; revert x y; decide

/-! ### Field -/

/-- The first `w + 1` bits are the first `w` with one more below them. -/
theorem field_succ (B : Bytes) (off w : Nat) :
    field B off (w + 1) = 2 * field B off w + bit B (off + w) := by
  have h : (List.range w).map (fun i => bit B (off + i) <<< (w + 1 - 1 - i)) =
      (List.range w).map (fun i => 2 * (bit B (off + i) <<< (w - 1 - i))) := by
    apply List.map_congr_left
    intro i hi
    have hi := List.mem_range.1 hi
    have e : w + 1 - 1 - i = (w - 1 - i) + 1 := by omega
    rw [e, Nat.shiftLeft_add, Nat.shiftLeft_eq _ 1]; omega
  rw [field, List.range_succ, List.map_append, List.sum_append, h, field]
  simp [List.sum_map_mul_left]

@[simp] theorem field_zero (B : Bytes) (off : Nat) : field B off 0 = 0 := rfl

/-- A field of width `w` is below `2^w` (R151). -/
theorem field_lt (B : Bytes) (off w : Nat) : field B off w < 2 ^ w := by
  induction w with
  | zero => simp
  | succ w ih =>
    have := bit_lt_two B (off + w)
    rw [field_succ, Nat.pow_succ]; omega

/-- Bit `w − 1 − i` of a field is wire bit `off + i` (R151). -/
theorem field_testBit (B : Bytes) (off w i : Nat) (hi : i < w) :
    (field B off w).testBit (w - 1 - i) = decide (bit B (off + i) = 1) := by
  induction w generalizing i with
  | zero => omega
  | succ w ih =>
    have hb := bit_lt_two B (off + w)
    rw [field_succ]
    rcases Nat.lt_or_ge i w with h | h
    · have e : w + 1 - 1 - i = (w - 1 - i) + 1 := by omega
      rw [e, Nat.testBit_add_one, ← ih i h]
      congr 1; omega
    · have e : i = w := by omega
      subst e
      simp only [Nat.add_sub_cancel, Nat.sub_self, Nat.testBit_zero]
      congr 1
      apply propext
      omega

/-- A number below `2^w` whose bits are the field's is the field. -/
theorem field_eq_of_bits {B : Bytes} {off w v : Nat} (hv : v < 2 ^ w)
    (h : ∀ i < w, bit B (off + i) = (v >>> (w - 1 - i)) &&& 1) : field B off w = v := by
  apply Nat.eq_of_testBit_eq
  intro k
  rcases Nat.lt_or_ge k w with hk | hk
  · have e : k = w - 1 - (w - 1 - k) := by omega
    have hb := h (w - 1 - k) (by omega)
    rw [e, field_testBit _ _ _ _ (by omega), hb, and_one_eq_testBit]
    cases v.testBit (w - 1 - (w - 1 - k)) <;> simp
  · rw [Nat.testBit_lt_two_pow (Nat.lt_of_lt_of_le (field_lt B off w) (Nat.pow_le_pow_right (by omega) hk)),
      Nat.testBit_lt_two_pow (Nat.lt_of_lt_of_le hv (Nat.pow_le_pow_right (by omega) hk))]

/-- A field depends on its bits only. -/
theorem field_congr {A B : Bytes} {offA offB w : Nat}
    (h : ∀ i < w, bit A (offA + i) = bit B (offB + i)) : field A offA w = field B offB w := by
  induction w with
  | zero => rfl
  | succ w ih =>
    rw [field_succ, field_succ, ih fun i hi => h i (by omega), h w (by omega)]

/-! ### SetField -/

/-- A write keeps the length (R153). -/
@[simp] theorem setField_length (B : Bytes) (off w v : Nat) :
    (setField B off w v).length = B.length := by
  simp [setField]

theorem bitAfterSet_eq_toNat (B : Bytes) (off w v p : Nat) :
    bitAfterSet B off w v p =
      (if off ≤ p ∧ p < off + w then v.testBit (w - 1 - (p - off))
        else (B.getD (p / 8) 0).getMsbD (p % 8)).toNat := by
  unfold bitAfterSet
  split
  · rw [and_one_eq_testBit]
  · rw [bit_eq_getMsbD]

/-- The bits after a write: the value's inside the field, the old ones outside (R153). -/
theorem bit_setField (B : Bytes) (off w v p : Nat) (hp : p < 8 * B.length) :
    bit (setField B off w v) p =
      if off ≤ p ∧ p < off + w then (v >>> (w - 1 - (p - off))) &&& 1 else bit B p := by
  have hi : p / 8 < (setField B off w v).length := by rw [setField_length]; omega
  have e : 8 * (p / 8) + p % 8 = p := by omega
  rw [bit_eq_getMsbD, List.getD_eq_getElem _ _ hi]
  simp only [setField, List.getElem_map, List.getElem_range, bitAfterSet_eq_toNat]
  rw [byteOfBits_getMsbD _ _ (Nat.mod_lt _ (by decide)), e, ← bitAfterSet_eq_toNat]
  rfl

/-- A bit outside the field is kept, even past the end of the sequence. -/
theorem bit_setField_of_not_mem (B : Bytes) (off w v p : Nat) (h : ¬(off ≤ p ∧ p < off + w)) :
    bit (setField B off w v) p = bit B p := by
  rcases Nat.lt_or_ge p (8 * B.length) with hp | hp
  · rw [bit_setField _ _ _ _ _ hp, if_neg h]
  · rw [bit_eq_getMsbD, bit_eq_getMsbD, List.getD_eq_default, List.getD_eq_default]
    · omega
    · rw [setField_length]; omega

end Sys2Proof.Machine
end

