-- ==== Sys2Proof/Laws/Channels.lean ====
section
/-! SUPPORT. The channel table: what a write of one slot does to every slot, that it keeps the canonical
form, and that tables in that form are equal when their slots are (log 12). -/

namespace Sys2Proof.Machine

/-- The canonical form: channel ids strictly rising. -/
abbrev Rising (t : List (ChannelId × Accumulator)) : Prop :=
  t.Pairwise fun p q => p.1.toNat < q.1.toNat

@[simp] theorem lookupChannel_nil (k : ChannelId) : lookupChannel [] k = none := rfl

theorem lookupChannel_cons (j : ChannelId) (a : Accumulator) (t : List (ChannelId × Accumulator))
    (k : ChannelId) :
    lookupChannel ((j, a) :: t) k = if j = k then some a else lookupChannel t k := rfl

/-- The slot written reads as what was written. -/
@[simp] theorem lookupChannel_setChannel_self (t : List (ChannelId × Accumulator)) (k : ChannelId)
    (a : Accumulator) : lookupChannel (setChannel t k a) k = some a := by
  induction t with
  | nil => simp [setChannel, lookupChannel]
  | cons p t ih =>
    obtain ⟨j, b⟩ := p
    unfold setChannel
    split
    · simp [lookupChannel]
    · split
      · simp [lookupChannel]
      · rename_i hj; rw [lookupChannel_cons, if_neg hj, ih]

/-- Every other slot reads as before. -/
theorem lookupChannel_setChannel_of_ne (t : List (ChannelId × Accumulator)) {k j : ChannelId}
    (a : Accumulator) (h : j ≠ k) : lookupChannel (setChannel t k a) j = lookupChannel t j := by
  induction t with
  | nil => simp [setChannel, lookupChannel, h.symm]
  | cons p t ih =>
    obtain ⟨i, b⟩ := p
    unfold setChannel
    split
    · rw [lookupChannel_cons, if_neg h.symm]
    · split
      · rename_i hi; subst hi; simp [lookupChannel_cons, h.symm]
      · rw [lookupChannel_cons, lookupChannel_cons, ih]

/-- What a written table holds. -/
theorem mem_setChannel {t : List (ChannelId × Accumulator)} {k : ChannelId} {a : Accumulator}
    {p : ChannelId × Accumulator} (h : p ∈ setChannel t k a) : p = (k, a) ∨ p ∈ t := by
  induction t with
  | nil => simpa [setChannel] using h
  | cons q t ih =>
    obtain ⟨j, b⟩ := q
    unfold setChannel at h
    split at h
    · simpa using h
    · split at h
      · rcases List.mem_cons.1 h with h | h
        · exact .inl h
        · exact .inr (List.mem_cons_of_mem _ h)
      · rcases List.mem_cons.1 h with h | h
        · exact .inr (by simp [h])
        · exact (ih h).imp id (List.mem_cons_of_mem _)

/-- A write keeps the canonical form. -/
theorem rising_setChannel {t : List (ChannelId × Accumulator)} (h : Rising t) (k : ChannelId)
    (a : Accumulator) : Rising (setChannel t k a) := by
  induction t with
  | nil => simp [setChannel]
  | cons p t ih =>
    obtain ⟨j, b⟩ := p
    obtain ⟨h1, h2⟩ := List.pairwise_cons.1 h
    unfold setChannel
    split
    · rename_i hk
      refine List.pairwise_cons.2 ⟨fun q hq => ?_, h⟩
      rcases List.mem_cons.1 hq with rfl | hq
      · exact hk
      · exact Nat.lt_trans hk (h1 q hq)
    · rename_i hk
      split
      · rename_i hj; subst hj; exact List.pairwise_cons.2 ⟨h1, h2⟩
      · rename_i hj
        refine List.pairwise_cons.2 ⟨fun q hq => ?_, ih h2⟩
        rcases mem_setChannel hq with rfl | hq
        · exact Nat.lt_of_le_of_ne (Nat.le_of_not_lt hk) fun e => hj (BitVec.eq_of_toNat_eq e)
        · exact h1 q hq

/-- A present slot is an entry of the table. -/
theorem mem_of_lookupChannel {t : List (ChannelId × Accumulator)} {k : ChannelId} {a : Accumulator}
    (h : lookupChannel t k = some a) : (k, a) ∈ t := by
  induction t with
  | nil => simp at h
  | cons p t ih =>
    obtain ⟨j, b⟩ := p
    rw [lookupChannel_cons] at h
    split at h
    · rename_i hj; subst hj; cases h; simp
    · exact List.mem_cons_of_mem _ (ih h)

/-- An entry of a canonical table is what its slot reads as. -/
theorem lookupChannel_of_mem {t : List (ChannelId × Accumulator)} (ht : Rising t) {k : ChannelId}
    {a : Accumulator} (h : (k, a) ∈ t) : lookupChannel t k = some a := by
  induction t with
  | nil => simp at h
  | cons p t ih =>
    obtain ⟨j, b⟩ := p
    obtain ⟨h1, h2⟩ := List.pairwise_cons.1 ht
    rw [lookupChannel_cons]
    rcases List.mem_cons.1 h with h | h
    · cases h; simp
    · have := h1 _ h
      rw [if_neg (by rintro rfl; exact absurd this (Nat.lt_irrefl _)), ih h2 h]

/-- Canonical tables with the same slots are the same list. -/
theorem rising_ext {t u : List (ChannelId × Accumulator)} (ht : Rising t) (hu : Rising u)
    (h : ∀ k, lookupChannel t k = lookupChannel u k) : t = u := by
  have hs : ∀ {t : List (ChannelId × Accumulator)}, Rising t →
      (t.map fun p => p.1.toNat).Pairwise (· < ·) := fun h => List.pairwise_map.2 h
  have hm : ∀ p, p ∈ t ↔ p ∈ u := fun p =>
    ⟨fun hp => mem_of_lookupChannel (h p.1 ▸ lookupChannel_of_mem ht hp),
     fun hp => mem_of_lookupChannel ((h p.1).symm ▸ lookupChannel_of_mem hu hp)⟩
  have nd : ∀ {t : List (ChannelId × Accumulator)}, Rising t → t.Nodup := fun h =>
    h.imp fun {p q} hlt e => absurd (e ▸ hlt) (Nat.lt_irrefl _)
  exact List.Perm.eq_of_pairwise (le := fun p q => p.1.toNat < q.1.toNat)
    (fun p q _ _ h1 h2 => absurd (Nat.lt_trans h1 h2) (Nat.lt_irrefl _)) ht hu
    ((List.perm_ext_iff_of_nodup (nd ht) (nd hu)).2 hm)

end Sys2Proof.Machine
end

