-- ==== Sys2Proof/Laws/Exec.lean ====
section
/-! SUPPORT. What a command and a step can do, said once: every command is a function of the block to
the block it leaves and its reply, and it ends by `complete`. -/

namespace Sys2Proof.Machine

/-- The block a command leaves and its reply. -/
def commandOutcome : Instr → Block → Block × Reply
  | .bfDecode off w bytes, b => (b, bfDecodeReply off.toNat w.toNat bytes)
  | .bfEncode off w v bytes, b => (b, bfEncodeReply off.toNat w.toNat v.toNat bytes)
  | .phEncode h, b => (b, phEncodeReply h)
  | .phDecode bytes, b => (b, phDecodeReply bytes)
  | .phIsSegmented h, b => (b, boolReply (h.sequenceFlag != 0b11))
  | .phIsFirst h, b => (b, boolReply (h.sequenceFlag == 0b01))
  | .phIsContinuation h, b => (b, boolReply (h.sequenceFlag == 0b00))
  | .phIsLast h, b => (b, boolReply (h.sequenceFlag == 0b10))
  | .phIsUnsegmented h, b => (b, boolReply (h.sequenceFlag == 0b11))
  | .shEncode h, b => (b, .ok (seqBlock (shBytes h)))
  | .shDecode length bytes, b => (b, (shDecode length.toNat bytes).map shBlock)
  | .shLength h, b => (b, .ok [BitVec.ofNat 8 (shLen h)])
  | .spEncode x, b => (b, (spEncode x).map fun p => seqBlock p.1 ++ spBlock p.2)
  | .spDecode bytes, b => (b, (spDecode bytes).map spBlock)
  | .spHasSecondary x, b => (b, spHasSecondaryReply x)
  | .saInit k w, b => ({ b with sa := some (newAccumulator k w) }, .ok [])
  | .saPush x, b => withPacket x b (saPush x b)
  | .saFinalize, b => saFinalize b
  | .rsPushBytes bytes, b => rsPushBytes bytes b
  | .rsPushPacket x, b => withPacket x b (rsPush x b)
  | .rsHasCompleted, b => (b, boolReply (!b.completedQueue.isEmpty))
  | .rsPopCompleted, b => rsPopCompleted b

/-- A command never stops the machine: it ends by `complete`, with the block and the reply that its
operands and the block before it give. -/
theorem exec_eq (i : Instr) (s : State) : exec i s =
    .next (complete s (commandOutcome i s.st).1 (commandOutcome i s.st).2) := by
  cases i <;> rfl

/-- How a command answers, from its outcome. -/
theorem answers_of_outcome {i : Instr} {s : State} {b : Block} {r : Reply}
    (h : commandOutcome i s.st = (b, r)) : Answers i s (markRefusal b r) (responseFrame r) :=
  ⟨_, exec_eq i s, by rw [h]; rfl, rfl, by rw [h]; rfl⟩

/-- The next state of a command is the one its outcome gives. -/
theorem exec_next_iff {i : Instr} {s t : State} :
    exec i s = .next t ↔
      t = complete s (commandOutcome i s.st).1 (commandOutcome i s.st).2 := by
  rw [exec_eq]; simp [eq_comm]

/-- What a step does: nothing when no frame waits; otherwise it takes the first frame, and runs its
command or refuses it. -/
theorem step_cases (s : State) :
    (s.commandPort = [] ∧ step s = .next s) ∨
    (∃ f rest r, s.commandPort = f :: rest ∧ decode f = .error r ∧
      step s = .next (reply { s with commandPort := rest } (.error (.refuse r)))) ∨
    (∃ f rest i, s.commandPort = f :: rest ∧ decode f = .ok i ∧
      step s = exec i { s with commandPort := rest }) := by
  unfold step runNext takeFrame
  rcases h : s.commandPort with _ | ⟨f, rest⟩
  · exact .inl ⟨rfl, rfl⟩
  · simp only [runFrame]
    rcases hd : decode f with r | i
    · exact .inr (.inl ⟨f, rest, r, rfl, hd, rfl⟩)
    · exact .inr (.inr ⟨f, rest, i, rfl, hd, rfl⟩)

end Sys2Proof.Machine
end

