-- ==== Sys2Proof/Laws/Commands.lean ====
section
/-! SUPPORT. What each shared operation behind the commands can do, said once: the codecs'
ways to end, what a Reassembler push leaves, and, for every command, what it can write. -/

namespace Sys2Proof.Machine

/-! ### Buffers (00_scope.md R20) -/

/-- `MemRead` of no byte is 0. -/
@[simp] theorem memRead_zero (B : Bytes) (i : Nat) : memRead B i 0 = 0 := by simp [memRead]

/-- `MemRead` reads big-endian: the last byte has the least weight. -/
theorem memRead_succ (B : Bytes) (i n : Nat) (h : i + n < B.length) :
    memRead B i (n + 1) = 256 * memRead B i n + (B.getD (i + n) 0).toNat := by
  have hn : n < (B.drop i).length := by rw [List.length_drop]; omega
  rw [memRead, List.take_succ_eq_append_getElem hn, List.foldl_append, List.getElem_drop,
    List.getD_eq_getElem _ _ h]
  rfl

/-- `MemWrite` within the buffer keeps its length. -/
theorem memWrite_length (B : Bytes) (i n v : Nat) (h : i + n ≤ B.length) :
    (memWrite B i n v).length = B.length := by
  simp [memWrite]; omega

/-! ### The codecs -/

/-- The ways SH_DECODE ends (42_secondary_header.md R203), in its order of checks. -/
theorem shDecode_cases (n : Nat) (B : Bytes) :
    (B.length < n ∧ shDecode n B = .error (.refuse .lengthBeyondBytes)) ∨
    (n ≤ B.length ∧ (n < 6 ∨ field B 32 1 = 1 ∧ n < 9) ∧
      shDecode n B = .error (raised .headerTooShort)) ∨
    (n ≤ B.length ∧ 6 ≤ n ∧ (field B 32 1 = 1 → 9 ≤ n) ∧
      shDecode n B = .ok (shField (B.take n))) := by
  unfold shDecode
  by_cases h1 : n > B.length
  · exact .inl ⟨h1, if_pos h1⟩
  · rw [if_neg h1]
    by_cases h2 : n < 6
    · exact .inr (.inl ⟨by omega, .inl h2, if_pos h2⟩)
    · rw [if_neg h2]
      by_cases h3 : field B 32 1 = 1 ∧ n < 9
      · exact .inr (.inl ⟨by omega, .inr h3, if_pos h3⟩)
      · exact .inr (.inr ⟨by omega, by omega, fun h => by omega, if_neg h3⟩)

/-- The ways SP_ENCODE ends (43_space_packet.md R223), in its order of checks. -/
theorem spEncode_cases (x : SpacePacket) :
    (x.wellFormed = false ∧ spEncode x = .error (.refuse .presenceMismatch)) ∨
    (x.wellFormed = true ∧ x.primary.versionNumber ≠ 0 ∧
      spEncode x = .error (.refuse .versionNotZero)) ∨
    (x.wellFormed = true ∧ x.primary.versionNumber = 0 ∧ dataFieldLength x = 0 ∧
      spEncode x = .error (.refuse .emptyDataField)) ∨
    (x.wellFormed = true ∧ x.primary.versionNumber = 0 ∧ 65536 < dataFieldLength x ∧
      spEncode x = .error (.refuse .dataFieldTooLong)) ∨
    (x.wellFormed = true ∧ x.primary.versionNumber = 0 ∧ 1 ≤ dataFieldLength x ∧
      dataFieldLength x ≤ 65536 ∧
      spEncode x = .ok (spBytes (withDataLength x), withDataLength x)) := by
  have hw : presenceAgrees x = x.wellFormed := rfl
  unfold spEncode
  rw [hw]
  cases x.wellFormed
  · simp
  · by_cases h1 : x.primary.versionNumber = 0
    · by_cases h2 : dataFieldLength x = 0
      · simp [h1, h2]
      · by_cases h3 : dataFieldLength x > 65536
        · simp [h1, h2, h3]
        · simp [h1, h2, h3]; omega
    · have h1' : ¬x.primary.versionNumber = 0#3 := h1
      simp [h1']

/-- The ways SP_DECODE ends (R228). -/
theorem spDecode_cases (B : Bytes) :
    (B.length < 6 ∧ spDecode B = .error (raised .notASpacePacket)) ∨
    (6 ≤ B.length ∧ (phField (B.take 6)).secondaryHeaderFlag = 0 ∧
      spDecode B = .ok ⟨phField (B.take 6), none, B.drop 6⟩) ∨
    (6 ≤ B.length ∧ (phField (B.take 6)).secondaryHeaderFlag = 1 ∧
      shDecode (B.drop 6).length (B.drop 6) = .error (raised .headerTooShort) ∧
      spDecode B = .error (raised .headerTooShort)) ∨
    (6 ≤ B.length ∧ (phField (B.take 6)).secondaryHeaderFlag = 1 ∧
      ∃ h, shDecode (B.drop 6).length (B.drop 6) = .ok h ∧
        spDecode B = .ok ⟨phField (B.take 6), some h, B.drop (6 + shLen h)⟩) := by
  have two : ∀ f : BitVec 1, f ≠ 1 → f = 0 := by decide
  by_cases h1 : B.length < 6
  · exact .inl ⟨h1, by rw [spDecode, if_pos h1]⟩
  · by_cases h2 : (phField (B.take 6)).secondaryHeaderFlag = 1
    · rcases shDecode_cases (B.drop 6).length (B.drop 6) with ⟨h, -⟩ | ⟨-, -, h⟩ | ⟨-, -, -, h⟩
      · omega
      · exact .inr (.inr (.inl ⟨by omega, h2, h, by
          rw [spDecode, if_neg h1]; simp only [h2, if_true, h]⟩))
      · exact .inr (.inr (.inr ⟨by omega, h2, _, h, by
          rw [spDecode, if_neg h1]; simp only [h2, if_true, h]⟩))
    · exact .inr (.inl ⟨by omega, two _ h2, by
        rw [spDecode, if_neg h1]; simp only [h2, if_false]⟩)

/-- A packet that SP_DECODE answers is well formed (10_state.md R34). -/
theorem spDecode_wellFormed {B : Bytes} {x : SpacePacket} (h : spDecode B = .ok x) :
    x.wellFormed = true := by
  rcases spDecode_cases B with ⟨-, e⟩ | ⟨-, hf, e⟩ | ⟨-, -, -, e⟩ | ⟨-, hf, _, -, e⟩ <;>
    rw [e] at h <;> simp only [reduceCtorEq, Except.ok.injEq] at h
  · subst h; simp [SpacePacket.wellFormed, hf]
  · subst h; simp [SpacePacket.wellFormed, hf]

/-! ### Pushes -/

/-- An ADU's APID low byte is that of one of its fragments (44_segment_accumulator.md R268). -/
theorem aduOfFragments_apidLower {fs : List SpacePacket} {adu : Adu}
    (h : aduOfFragments fs = some adu) : ∃ f ∈ fs, adu.apidLower = apidLow f.primary := by
  unfold aduOfFragments at h
  split at h
  · cases h
  · split at h
    · cases h
    · split at h
      · cases h
      · cases h; exact ⟨_, List.mem_cons_self, rfl⟩

/-- A push of a packet with an ADU channel has a result (R252). -/
theorem accPush_isSome {a : Accumulator} {x : SpacePacket} {ch : AduChannel}
    (h : aduChannel x = some ch) : ∃ p, accPush a x = some p := by
  unfold accPush
  rw [h]
  simp only
  split <;> exact ⟨_, rfl⟩

/-- What a Reassembler push leaves (45_reassembler.md R290 steps 5 and 6): the push's accumulator, or
that one finalized with its ADU queued; on an error the push's own records and one more. -/
theorem rsAfterPush_cases (b : Block) (k : ChannelId) (r : SegmentRole) (p : PushResult) :
    (∃ kind m, p.error = some (kind, m) ∧ rsAfterPush b k r p =
      ({ b with
          channels := setChannel b.channels k p.acc
          diagLog := b.diagLog ++ p.log ++ [.reassemblyFailure k r kind m] },
       .error (.raise .reassemblyError (some kind) m))) ∨
    (p.error = none ∧ accFinalize p.acc = none ∧ rsAfterPush b k r p =
      ({ b with channels := setChannel b.channels k p.acc, diagLog := b.diagLog ++ p.log },
       .ok [])) ∨
    (p.error = none ∧ ∃ adu, accFinalize p.acc = some (adu, accEmptied p.acc) ∧
      rsAfterPush b k r p =
      ({ b with
          channels := setChannel b.channels k (accEmptied p.acc)
          completedQueue := b.completedQueue ++ [adu]
          diagLog := b.diagLog ++ p.log },
       .ok [])) := by
  unfold rsAfterPush
  rcases he : p.error with _ | ⟨kind, m⟩
  · rcases hf : accFinalize p.acc with _ | ⟨adu, a'⟩
    · exact .inr (.inl ⟨rfl, rfl, rfl⟩)
    · obtain ⟨-, -, rfl⟩ := accFinalize_cases hf
      exact .inr (.inr ⟨rfl, adu, rfl, rfl⟩)
  · exact .inl ⟨kind, m, rfl, rfl⟩

/-- What `RSPush` can do (R296): refuse or reject the packet with no write, or run the channel's
accumulator. -/
theorem rsPush_cases (x : SpacePacket) (b : Block) :
    (aduChannel x = none ∧ rsPush x b = (b, .error (.refuse .noAduChannel))) ∨
    (apidLow x.primary ≠ b.cfg.appIdLow ∧ rsPush x b = (b, .error (raised .channelMismatch))) ∨
    ∃ ch p, aduChannel x = some ch ∧ apidLow x.primary = b.cfg.appIdLow ∧
      accPush (channelOrNew b ch.aduChannelId) x = some p ∧
      rsPush x b = rsAfterPush b ch.aduChannelId (role ch) p := by
  unfold rsPush
  rcases hc : aduChannel x with _ | ch
  · exact .inl ⟨rfl, rfl⟩
  · by_cases h : apidLow x.primary = b.cfg.appIdLow
    · obtain ⟨p, hp⟩ := accPush_isSome (a := channelOrNew b ch.aduChannelId) hc
      exact .inr (.inr ⟨ch, p, rfl, h, hp, by simp [h, hp]⟩)
    · exact .inr (.inl ⟨h, by simp [h]⟩)

/-! ### Every command -/

/-- A reply that is none of the errors which keep a write (60_exceptions.md R327). -/
def Reply.keepsNothing : Reply → Bool
  | .error (.raise .illegalSegmentTransition _ _) => false
  | .error (.raise .segmentDiscontinuity _ _) => false
  | .error (.raise .reassemblyError _ _) => false
  | _ => true

/-- The packet that a Reassembler push takes. -/
def Pushes (i : Instr) (x : SpacePacket) : Prop :=
  i = .rsPushPacket x ∨ ∃ B, i = .rsPushBytes B ∧ spDecode B = .ok x

/-- What a command can write, all of it (20_memory.md R78): nothing; a new standalone accumulator; the
push of a packet to it; its finalize; a push to a channel; the removal of the oldest ADU. -/
theorem commandOutcome_cases (i : Instr) (b : Block) :
    (∃ r, commandOutcome i b = (b, r) ∧ Reply.keepsNothing r = true) ∨
    (∃ k w, i = .saInit k w ∧
      commandOutcome i b = ({ b with sa := some (newAccumulator k w) }, .ok [])) ∨
    (∃ x a p, i = .saPush x ∧ x.wellFormed = true ∧ b.sa = some a ∧ accPush a x = some p ∧
      commandOutcome i b = ({ b with sa := some p.acc, diagLog := b.diagLog ++ p.log },
        pushReply p)) ∨
    (∃ a adu, i = .saFinalize ∧ b.sa = some a ∧ a.state = .complete ∧
      commandOutcome i b = ({ b with sa := some (accEmptied a) }, .ok (aduBlock adu))) ∨
    (∃ x ch p, Pushes i x ∧ x.wellFormed = true ∧ aduChannel x = some ch ∧
      apidLow x.primary = b.cfg.appIdLow ∧ accPush (channelOrNew b ch.aduChannelId) x = some p ∧
      commandOutcome i b = rsAfterPush b ch.aduChannelId (role ch) p) ∨
    (∃ adu rest, i = .rsPopCompleted ∧ b.completedQueue = adu :: rest ∧
      commandOutcome i b = ({ b with completedQueue := rest }, .ok (aduBlock adu))) := by
  have rs : ∀ x, Pushes i x → x.wellFormed = true → commandOutcome i b = rsPush x b →
      (∃ r, commandOutcome i b = (b, r) ∧ Reply.keepsNothing r = true) ∨
      (∃ x ch p, Pushes i x ∧ x.wellFormed = true ∧ aduChannel x = some ch ∧
        apidLow x.primary = b.cfg.appIdLow ∧ accPush (channelOrNew b ch.aduChannelId) x = some p ∧
        commandOutcome i b = rsAfterPush b ch.aduChannelId (role ch) p) := by
    intro x hi hw ho
    rcases rsPush_cases x b with ⟨-, h⟩ | ⟨-, h⟩ | ⟨ch, p, h1, h2, h3, h⟩ <;> rw [ho]
    · exact .inl ⟨_, h, rfl⟩
    · exact .inl ⟨_, h, rfl⟩
    · exact .inr ⟨x, ch, p, hi, hw, h1, h2, h3, h⟩
  cases i
  case saInit k w => exact .inr (.inl ⟨k, w, rfl, rfl⟩)
  case saPush x =>
    by_cases hw : presenceAgrees x = true
    · rcases hs : b.sa with _ | a
      · exact .inl ⟨_, by simp only [commandOutcome, withPacket, hw, if_true, saPush, hs]; rfl, rfl⟩
      · rcases hp : accPush a x with _ | p
        · exact .inl ⟨_, by
            simp only [commandOutcome, withPacket, hw, if_true, saPush, hs, hp]; rfl, rfl⟩
        · exact .inr (.inr (.inl ⟨x, a, p, rfl, hw, rfl, hp, by
            simp only [commandOutcome, withPacket, hw, if_true, saPush, hs, hp]⟩))
    · exact .inl ⟨_, by simp only [commandOutcome, withPacket, if_neg hw]; rfl, rfl⟩
  case saFinalize =>
    rcases hs : b.sa with _ | a
    · exact .inl ⟨_, by simp only [commandOutcome, saFinalize, hs]; rfl, rfl⟩
    · rcases hf : accFinalize a with _ | ⟨adu, a'⟩
      · exact .inl ⟨_, by simp only [commandOutcome, saFinalize, hs, hf]; rfl, rfl⟩
      · obtain ⟨h1, -, rfl⟩ := accFinalize_cases hf
        exact .inr (.inr (.inr (.inl ⟨a, adu, rfl, rfl, h1, by
          simp only [commandOutcome, saFinalize, hs, hf]⟩)))
  case rsPushPacket x =>
    by_cases hw : presenceAgrees x = true
    · rcases rs x (.inl rfl) hw (by simp only [commandOutcome, withPacket, if_pos hw]) with h | h
      · exact .inl h
      · exact .inr (.inr (.inr (.inr (.inl h))))
    · exact .inl ⟨_, by simp only [commandOutcome, withPacket, if_neg hw]; rfl, rfl⟩
  case rsPushBytes B =>
    rcases hd : spDecode B with (⟨k, inner, m⟩ | r) | x
    · exact .inl ⟨_, by simp only [commandOutcome, rsPushBytes, hd]; rfl, rfl⟩
    · exact .inl ⟨_, by simp only [commandOutcome, rsPushBytes, hd]; rfl, rfl⟩
    · rcases rs x (.inr ⟨B, rfl, hd⟩) (spDecode_wellFormed hd)
        (by simp only [commandOutcome, rsPushBytes, hd]) with h | h
      · exact .inl h
      · exact .inr (.inr (.inr (.inr (.inl h))))
  case rsPopCompleted =>
    rcases hq : b.completedQueue with _ | ⟨adu, rest⟩
    · exact .inl ⟨_, by simp only [commandOutcome, rsPopCompleted, hq]; rfl, rfl⟩
    · exact .inr (.inr (.inr (.inr (.inr ⟨adu, rest, rfl, rfl, by
        simp only [commandOutcome, rsPopCompleted, hq]⟩))))
  all_goals refine .inl ⟨_, rfl, ?_⟩
  case bfDecode => unfold bfDecodeReply; split <;> rfl
  case bfEncode => unfold bfEncodeReply; split <;> rfl
  case phEncode => unfold phEncodeReply; split <;> rfl
  case phDecode => unfold phDecodeReply; split <;> rfl
  case spHasSecondary => unfold spHasSecondaryReply; split <;> rfl
  case shDecode n B =>
    rcases shDecode_cases n.toNat B with ⟨-, h⟩ | ⟨-, -, h⟩ | ⟨-, -, -, h⟩ <;> rw [h] <;> rfl
  case spDecode B =>
    rcases spDecode_cases B with ⟨-, h⟩ | ⟨-, -, h⟩ | ⟨-, -, -, h⟩ | ⟨-, -, _, -, h⟩ <;> rw [h] <;>
      rfl
  case spEncode x =>
    rcases spEncode_cases x with ⟨-, h⟩ | ⟨-, -, h⟩ | ⟨-, -, -, h⟩ | ⟨-, -, -, h⟩ |
      ⟨-, -, -, -, h⟩ <;> rw [h] <;> rfl
  all_goals rfl

end Sys2Proof.Machine
end

