-- ==== Sys2Proof/Laws/Decode.lean ====
section
/-! SUPPORT. Reading and writing the operand blocks of 30_encoding.md R120 and R121 are inverse: each
lemma says exactly when a read answers a value, by the bytes its writer gives. -/

namespace Sys2Proof

/-! ### Scalars and sequences -/

theorem toNat_append_byte {n : Nat} (a : BitVec n) (b : Byte) :
    (a ++ b).toNat = 256 * a.toNat + b.toNat := by
  rw [BitVec.toNat_append, ← Nat.shiftLeft_add_eq_or_of_lt b.isLt, Nat.shiftLeft_eq]; omega

theorem extract_byte_toNat {n : Nat} (v : BitVec n) (k : Nat) :
    (v.extractLsb' k 8).toNat = v.toNat / 2 ^ k % 256 := by
  rw [BitVec.extractLsb'_toNat, Nat.shiftRight_eq_div_pow]

/-- Two bytes joined, as a number. -/
theorem u16_toNat (a b : Byte) : (a ++ b : BitVec 16).toNat = 256 * a.toNat + b.toNat :=
  toNat_append_byte a b

/-- Four bytes joined, as a number. -/
theorem u32_toNat (a b c d : Byte) : (a ++ b ++ c ++ d : BitVec 32).toNat =
    256 * (256 * (256 * a.toNat + b.toNat) + c.toNat) + d.toNat := by
  refine (toNat_append_byte (a ++ b ++ c) d).trans ?_
  rw [toNat_append_byte (a ++ b) c, toNat_append_byte a b]

theorem u16Bytes_append (a b : Byte) : u16Bytes (a ++ b) = [a, b] := by
  have h := u16_toNat a b
  have ha := a.isLt
  have hb := b.isLt
  simp only [u16Bytes, List.cons.injEq, and_true]
  constructor <;> apply BitVec.eq_of_toNat_eq <;> rw [extract_byte_toNat, h] <;> omega

theorem append_u16Bytes (v : BitVec 16) :
    (v.extractLsb' 8 8 ++ v.extractLsb' 0 8 : BitVec 16) = v := by
  apply BitVec.eq_of_toNat_eq
  have hv := v.isLt
  rw [u16_toNat, extract_byte_toNat, extract_byte_toNat]; omega

theorem u32Bytes_append (a b c d : Byte) : u32Bytes (a ++ b ++ c ++ d) = [a, b, c, d] := by
  have h := u32_toNat a b c d
  have ha := a.isLt
  have hb := b.isLt
  have hc := c.isLt
  have hd := d.isLt
  simp only [u32Bytes, List.cons.injEq, and_true]
  refine ⟨?_, ?_, ?_, ?_⟩ <;> apply BitVec.eq_of_toNat_eq <;> rw [extract_byte_toNat, h] <;> omega

theorem append_u32Bytes (v : BitVec 32) : (v.extractLsb' 24 8 ++ v.extractLsb' 16 8 ++
    v.extractLsb' 8 8 ++ v.extractLsb' 0 8 : BitVec 32) = v := by
  apply BitVec.eq_of_toNat_eq
  have hv := v.isLt
  rw [u32_toNat, extract_byte_toNat, extract_byte_toNat, extract_byte_toNat, extract_byte_toNat]
  omega

theorem takeU8_eq_some {B rest : Bytes} {b : Byte} :
    takeU8 B = some (b, rest) ↔ B = b :: rest := by
  cases B <;> simp [takeU8]

theorem takeU16_eq_some {B rest : Bytes} {v : BitVec 16} :
    takeU16 B = some (v, rest) ↔ B = u16Bytes v ++ rest := by
  constructor
  · intro h
    unfold takeU16 at h
    split at h
    · simp only [Option.some.injEq, Prod.mk.injEq] at h
      obtain ⟨rfl, rfl⟩ := h
      rw [u16Bytes_append]; rfl
    · simp at h
  · rintro rfl
    exact congrArg some (Prod.ext (append_u16Bytes v) rfl)

theorem takeU32_eq_some {B rest : Bytes} {v : BitVec 32} :
    takeU32 B = some (v, rest) ↔ B = u32Bytes v ++ rest := by
  constructor
  · intro h
    unfold takeU32 at h
    split at h
    · simp only [Option.some.injEq, Prod.mk.injEq] at h
      obtain ⟨rfl, rfl⟩ := h
      rw [u32Bytes_append]; rfl
    · simp at h
  · rintro rfl
    exact congrArg some (Prod.ext (append_u32Bytes v) rfl)

theorem takeTime_eq_some {B rest : Bytes} {t : TimeField} :
    takeTime B = some (t, rest) ↔ B = t.bytes ++ rest := by
  unfold takeTime TimeField.bytes
  constructor
  · intro h
    split at h
    · simp only [Option.some.injEq, Prod.mk.injEq] at h
      obtain ⟨rfl, rfl⟩ := h; simp
    · simp at h
  · rintro rfl; simp

theorem seqLength_toNat {n : Nat} (h : n < 2 ^ 32) : (seqLength n).toNat = n := by
  rw [seqLength, if_pos h, BitVec.toNat_ofNat, Nat.mod_eq_of_lt h]

theorem takeSeq_eq_some {B S rest : Bytes} :
    takeSeq B = some (S, rest) ↔ S.length < 2 ^ 32 ∧ B = seqBlock S ++ rest := by
  unfold takeSeq seqBlock
  constructor
  · intro h
    rcases h32 : takeU32 B with _ | ⟨n, B'⟩
    · simp [h32] at h
    · rw [takeU32_eq_some] at h32
      subst h32
      have h32 : takeU32 (u32Bytes n ++ B') = some (n, B') := takeU32_eq_some.2 rfl
      rw [h32] at h
      simp only at h
      split at h
      · rename_i hn
        simp only [Option.some.injEq, Prod.mk.injEq] at h
        obtain ⟨rfl, rfl⟩ := h
        have hl : (B'.take n.toNat).length = n.toNat := by simp [hn]
        have hs : seqLength n.toNat = n := by
          apply BitVec.eq_of_toNat_eq; exact seqLength_toNat n.isLt
        rw [hl, hs, List.append_assoc, List.take_append_drop]
        exact ⟨n.isLt, rfl⟩
      · simp at h
  · rintro ⟨hS, rfl⟩
    rw [List.append_assoc, takeU32_eq_some.2 rfl]
    simp [seqLength_toNat hS]

/-! ### Widths -/

theorem narrow_eq_ok {n m : Nat} (hnm : n ≤ m) {v : BitVec m} {x : BitVec n} :
    narrow n v = .ok x ↔ v = x.setWidth m := by
  unfold narrow
  constructor
  · intro h
    split at h
    · rename_i hv
      simp only [Except.ok.injEq] at h
      subst h
      apply BitVec.eq_of_toNat_eq
      simp [BitVec.toNat_setWidth, Nat.mod_eq_of_lt hv, Nat.mod_eq_of_lt v.isLt]
    · simp at h
  · rintro rfl
    have hx := x.isLt
    have hm : 2 ^ n ≤ 2 ^ m := Nat.pow_le_pow_right (by omega) hnm
    have hlt : (x.setWidth m).toNat = x.toNat := by
      rw [BitVec.toNat_setWidth, Nat.mod_eq_of_lt (by omega)]
    rw [if_pos (by rw [hlt]; exact hx)]
    congr 1
    apply BitVec.eq_of_toNat_eq
    rw [BitVec.toNat_setWidth, hlt, Nat.mod_eq_of_lt hx]

/-- The only refusal of a width check is reason 3 (R124). -/
theorem narrow_cases (n : Nat) {m : Nat} (v : BitVec m) :
    narrow n v = .ok (v.setWidth n) ∨ narrow n v = .error .operandTooWide := by
  unfold narrow; split <;> simp

theorem boolOfByte_eq_ok {b : Byte} {x : Bool} : boolOfByte b = .ok x ↔ b = boolByte x := by
  unfold boolOfByte boolByte
  cases x <;> by_cases h0 : b = 0 <;> by_cases h1 : b = 1 <;> simp [h0, h1] <;> simp_all

/-! ### Blocks -/

theorem except_bind_eq_ok {ε α β : Type} {x : Except ε α} {f : α → Except ε β} {b : β} :
    (x >>= f) = .ok b ↔ ∃ a, x = .ok a ∧ f a = .ok b := by
  rcases x with e | a
  · simp [bind, Except.bind]
  · simp [bind, Except.bind]

theorem except_map_eq_ok {ε α β : Type} {x : Except ε α} {f : α → β} {b : β} :
    x.map f = .ok b ↔ ∃ a, x = .ok a ∧ f a = b := by
  rcases x with e | a <;> simp [Except.map]

theorem phOfScalars_eq_ok {v t f : Byte} {a : BitVec 16} {sf : Byte} {sc pdl : BitVec 16}
    {h : PrimaryHeader} : phOfScalars v t f a sf sc pdl = .ok h ↔
      v = u8Of h.versionNumber ∧ t = u8Of h.packetType ∧ f = u8Of h.secondaryHeaderFlag ∧
      a = h.applicationId.setWidth 16 ∧ sf = u8Of h.sequenceFlag ∧
      sc = h.sequenceCount.setWidth 16 ∧ pdl = h.packetDataLength := by
  unfold phOfScalars u8Of
  simp only [except_bind_eq_ok, Except.ok.injEq]
  constructor
  · rintro ⟨x1, h1, x2, h2, x3, h3, x4, h4, x5, h5, x6, h6, rfl⟩
    exact ⟨(narrow_eq_ok (by decide)).1 h1, (narrow_eq_ok (by decide)).1 h2,
      (narrow_eq_ok (by decide)).1 h3, (narrow_eq_ok (by decide)).1 h4,
      (narrow_eq_ok (by decide)).1 h5, (narrow_eq_ok (by decide)).1 h6, rfl⟩
  · rintro ⟨h1, h2, h3, h4, h5, h6, rfl⟩
    exact ⟨_, (narrow_eq_ok (by decide)).2 h1, _, (narrow_eq_ok (by decide)).2 h2,
      _, (narrow_eq_ok (by decide)).2 h3, _, (narrow_eq_ok (by decide)).2 h4,
      _, (narrow_eq_ok (by decide)).2 h5, _, (narrow_eq_ok (by decide)).2 h6, rfl⟩

/-- A `PH` block reads as a header exactly when it is that header's block (R121). -/
theorem takePh_eq_ok {B rest : Bytes} {h : PrimaryHeader} :
    takePh B = some (.ok h, rest) ↔ B = phBlock h ++ rest := by
  unfold takePh
  simp only [Option.bind_eq_bind, Option.bind_eq_some_iff, Prod.exists, takeU8_eq_some,
    takeU16_eq_some, Option.some.injEq, Prod.mk.injEq, phOfScalars_eq_ok]
  constructor
  · rintro ⟨_, _, rfl, _, _, rfl, _, _, rfl, _, _, rfl, _, _, rfl, _, _, rfl, _, _, rfl,
      ⟨rfl, rfl, rfl, rfl, rfl, rfl, rfl⟩, rfl⟩
    simp [phBlock, u16Of, List.append_assoc]
  · rintro rfl
    refine ⟨_, u8Of h.packetType :: u8Of h.secondaryHeaderFlag :: (u16Of h.applicationId ++
        u8Of h.sequenceFlag :: (u16Of h.sequenceCount ++ (u16Of h.packetDataLength ++ rest))),
      ?_, _, _, rfl, _, _, rfl, _, _, rfl, _, _, rfl, _, _, rfl, h.packetDataLength, rest, ?_,
      ⟨rfl, rfl, rfl, rfl, rfl, rfl, rfl⟩, rfl⟩
    · simp [phBlock]
    · simp [u16Of]

theorem channelOfScalars_eq_ok {ch f : Byte} {n : BitVec 16} {c : AduChannel} :
    channelOfScalars ch f n = .ok c ↔ ch = u8Of c.aduChannelId ∧ f = u8Of c.aduSegmentFlag ∧
      n = c.aduSegmentCount.setWidth 16 := by
  unfold channelOfScalars u8Of
  simp only [except_bind_eq_ok, Except.ok.injEq, BitVec.setWidth_eq]
  constructor
  · rintro ⟨x1, h1, x2, h2, rfl⟩
    exact ⟨rfl, (narrow_eq_ok (by decide)).1 h1, (narrow_eq_ok (by decide)).1 h2⟩
  · rintro ⟨rfl, h1, h2⟩
    exact ⟨_, (narrow_eq_ok (by decide)).2 h1, _, (narrow_eq_ok (by decide)).2 h2, rfl⟩

theorem takeChannel_eq_ok {B rest : Bytes} {c : AduChannel} :
    takeChannel B = some (.ok c, rest) ↔ B = channelBlock c ++ rest := by
  unfold takeChannel
  simp only [Option.bind_eq_bind, Option.bind_eq_some_iff, Prod.exists, takeU8_eq_some,
    takeU16_eq_some, Option.some.injEq, Prod.mk.injEq, channelOfScalars_eq_ok]
  constructor
  · rintro ⟨_, _, rfl, _, _, rfl, _, _, rfl, ⟨rfl, rfl, rfl⟩, rfl⟩
    simp [channelBlock, u16Of]
  · rintro rfl
    exact ⟨_, _, rfl, _, _, rfl, _, _, rfl, ⟨rfl, rfl, rfl⟩, rfl⟩

theorem u8Of_type_eq_one {s : SecondaryHeader} :
    u8Of s.secondaryHeaderType = 1 ↔ s.channel.isSome = true := by
  unfold SecondaryHeader.secondaryHeaderType
  split <;> simp_all [u8Of]

theorem shOfScalars_none_eq_ok {time : TimeField} {t c n : Byte} (ht : t ≠ 1)
    {s : SecondaryHeader} : shOfScalars time t c n none = .ok s ↔
      s.channel = none ∧ time = s.time ∧ t = u8Of s.secondaryHeaderType ∧
      c = u8Of s.category ∧ n = u8Of s.aduCount := by
  unfold shOfScalars
  simp only [except_bind_eq_ok, Except.ok.injEq, u8Of, BitVec.setWidth_eq]
  constructor
  · rintro ⟨x1, h1, x2, h2, rfl⟩
    refine ⟨rfl, rfl, ?_, (narrow_eq_ok (by decide)).1 h2, rfl⟩
    have hx := (narrow_eq_ok (by decide)).1 h1
    have key : ∀ x : BitVec 1, x.setWidth 8 ≠ (1 : Byte) → x.setWidth 8 = (0 : Byte) := by decide
    rw [hx] at ht ⊢
    exact key x1 ht
  · rintro ⟨h0, rfl, h1, h2, rfl⟩
    exact ⟨_, (narrow_eq_ok (by decide)).2 h1, _, (narrow_eq_ok (by decide)).2 h2, by rw [← h0]⟩

theorem shOfScalars_some_eq_ok {time : TimeField} {c n : Byte}
    {ch : Except RefusalReason AduChannel} {s : SecondaryHeader} :
    shOfScalars time 1 c n (some ch) = .ok s ↔
      ∃ d, s.channel = some d ∧ ch = .ok d ∧ time = s.time ∧ c = u8Of s.category ∧
        n = u8Of s.aduCount := by
  unfold shOfScalars
  simp only [except_bind_eq_ok, Except.ok.injEq, u8Of, BitVec.setWidth_eq]
  constructor
  · rintro ⟨x1, h1, x2, h2, d, h3, rfl⟩
    exact ⟨d, rfl, h3, rfl, (narrow_eq_ok (by decide)).1 h2, rfl⟩
  · rintro ⟨d, h0, h1, rfl, h2, rfl⟩
    exact ⟨1, by decide, _, (narrow_eq_ok (by decide)).2 h2, d, h1, by rw [← h0]⟩

/-- An `SH` block reads as a header exactly when it is that header's block (R121). -/
theorem takeSh_eq_ok {B rest : Bytes} {s : SecondaryHeader} :
    takeSh B = some (.ok s, rest) ↔ B = shBlock s ++ rest := by
  unfold takeSh
  simp only [Option.bind_eq_bind, Option.bind_eq_some_iff, Prod.exists, takeU8_eq_some,
    takeTime_eq_some]
  constructor
  · rintro ⟨time, _, rfl, t, _, rfl, c, _, rfl, n, _, rfl, h⟩
    split at h
    · rename_i ht
      subst ht
      simp only [Option.bind_eq_some_iff, Prod.exists, Option.some.injEq, Prod.mk.injEq,
        shOfScalars_some_eq_ok] at h
      obtain ⟨r, _, hc, ⟨d, hd, rfl, rfl, rfl, rfl⟩, rfl⟩ := h
      rw [takeChannel_eq_ok] at hc
      subst hc
      have : u8Of s.secondaryHeaderType = 1 := u8Of_type_eq_one.2 (by simp [hd])
      simp [shBlock, hd, this]
    · rename_i ht
      simp only [Option.some.injEq, Prod.mk.injEq, shOfScalars_none_eq_ok ht] at h
      obtain ⟨⟨hd, rfl, rfl, rfl, rfl⟩, rfl⟩ := h
      simp [shBlock, hd]
  · rintro rfl
    rcases hd : s.channel with _ | d
    · have ht : u8Of s.secondaryHeaderType ≠ 1 := fun h => by
        have := u8Of_type_eq_one.1 h
        simp [hd] at this
      refine ⟨s.time, u8Of s.secondaryHeaderType :: u8Of s.category :: u8Of s.aduCount :: rest,
        by simp [shBlock, hd], _, _, rfl, _, _, rfl, _, _, rfl, ?_⟩
      rw [if_neg ht, (shOfScalars_none_eq_ok ht).2 ⟨hd, rfl, rfl, rfl, rfl⟩]
    · have ht : u8Of s.secondaryHeaderType = 1 := u8Of_type_eq_one.2 (by simp [hd])
      refine ⟨s.time, u8Of s.secondaryHeaderType :: u8Of s.category :: u8Of s.aduCount ::
        (channelBlock d ++ rest), by simp [shBlock, hd], _, _, rfl, _, _, rfl, _, _, rfl, ?_⟩
      rw [if_pos ht]
      simp only [Option.bind_eq_some_iff, Prod.exists, Option.some.injEq, Prod.mk.injEq]
      refine ⟨_, _, takeChannel_eq_ok.2 rfl, ?_, rfl⟩
      rw [ht, shOfScalars_some_eq_ok]
      exact ⟨d, hd, rfl, rfl, rfl, rfl⟩

/-- The decoder's presence check is well-formedness (R125, R34). -/
theorem presenceAgrees_eq_wellFormed (x : SpacePacket) : presenceAgrees x = x.wellFormed := rfl

/-- The blocks of a packet give a packet exactly when each gives its part and presence agrees. -/
theorem spOfBlocks_eq_ok {ph : Except RefusalReason PrimaryHeader} {present : Byte}
    {sh : Option (Except RefusalReason SecondaryHeader)} {payload : Bytes} {x : SpacePacket} :
    spOfBlocks ph present sh payload = .ok x ↔
      ph = .ok x.primary ∧ (∃ b, present = boolByte b) ∧ payload = x.payload ∧
      x.wellFormed = true ∧ sh = x.secondary.map .ok := by
  unfold spOfBlocks
  simp only [except_bind_eq_ok, boolOfByte_eq_ok]
  constructor
  · rintro ⟨p, hp, b, hb, sec, hs, h⟩
    split at h
    · rename_i hw
      simp only [Except.ok.injEq] at h
      subst h
      refine ⟨hp, ⟨b, hb⟩, rfl, hw, ?_⟩
      rcases sh with _ | r
      · cases hs; rfl
      · obtain ⟨a, rfl, rfl⟩ := except_map_eq_ok.1 hs; rfl
    · simp at h
  · rintro ⟨hp, ⟨b, hb⟩, rfl, hw, rfl⟩
    refine ⟨_, hp, b, hb, x.secondary, ?_, ?_⟩
    · rcases x.secondary with _ | s <;> rfl
    · rw [if_pos (by exact hw)]

/-- An `SP` block reads as a packet exactly when it is that packet's block, the packet is well formed
and its payload has a u32 length (R121, R125). -/
theorem takeSp_eq_ok {B rest : Bytes} {x : SpacePacket} :
    takeSp B = some (.ok x, rest) ↔ x.operandOk = true ∧ B = spBlock x ++ rest := by
  have hone : ∀ b, boolByte b = 1 ↔ b = true := by decide
  unfold takeSp SpacePacket.operandOk Bytes.fitsSeq
  simp only [Option.bind_eq_bind, Option.bind_eq_some_iff, Prod.exists, takeU8_eq_some,
    Bool.and_eq_true, decide_eq_true_eq]
  constructor
  · rintro ⟨ph, B1, hph, present, B2, rfl, h⟩
    split at h
    · rename_i hp
      subst hp
      simp only [Option.bind_eq_some_iff, Prod.exists, Option.some.injEq, Prod.mk.injEq,
        spOfBlocks_eq_ok, takeSeq_eq_some] at h
      obtain ⟨sh, B3, hsh, pl, B4, ⟨hl, rfl⟩, ⟨rfl, -, rfl, hw, hs⟩, rfl⟩ := h
      rcases hx : x.secondary with _ | s
      · simp [hx] at hs
      · simp only [hx, Option.map_some, Option.some.injEq] at hs
        subst hs
        rw [takeSh_eq_ok] at hsh
        subst hsh
        rw [takePh_eq_ok] at hph
        subst hph
        exact ⟨⟨hw, hl⟩, by simp [spBlock, hx, boolByte]⟩
    · rename_i hp
      simp only [Option.bind_eq_some_iff, Prod.exists, Option.some.injEq, Prod.mk.injEq,
        spOfBlocks_eq_ok, takeSeq_eq_some] at h
      obtain ⟨pl, B4, ⟨hl, rfl⟩, ⟨rfl, ⟨b, rfl⟩, rfl, hw, hs⟩, rfl⟩ := h
      rcases hx : x.secondary with _ | s
      · have hb : b = false := by
          rw [hone] at hp; simpa using hp
        subst hb
        rw [takePh_eq_ok] at hph
        subst hph
        exact ⟨⟨hw, hl⟩, by simp [spBlock, hx]⟩
      · simp [hx] at hs
  · rintro ⟨⟨hw, hl⟩, rfl⟩
    refine ⟨.ok x.primary, boolByte x.secondary.isSome ::
      ((match x.secondary with | none => [] | some s => shBlock s) ++ (seqBlock x.payload ++ rest)),
      takePh_eq_ok.2 (by simp [spBlock] <;> rfl), _, _, rfl, ?_⟩
    rcases hx : x.secondary with _ | s
    · rw [if_neg (by simp [boolByte])]
      simp only [Option.bind_eq_some_iff, Prod.exists, Option.some.injEq, Prod.mk.injEq,
        spOfBlocks_eq_ok, takeSeq_eq_some]
      exact ⟨x.payload, rest, ⟨hl, by simp⟩, ⟨trivial, ⟨false, rfl⟩, rfl, hw, by simp [hx]⟩, rfl⟩
    · rw [if_pos (by simp [boolByte])]
      simp only [Option.bind_eq_some_iff, Prod.exists, Option.some.injEq, Prod.mk.injEq,
        spOfBlocks_eq_ok, takeSeq_eq_some]
      exact ⟨.ok s, _, takeSh_eq_ok.2 rfl, x.payload, rest, ⟨hl, rfl⟩,
        ⟨trivial, ⟨true, rfl⟩, rfl, hw, by simp [hx]⟩, rfl⟩

/-! ### Whole frames -/

theorem decode_cons_none {op : Byte} {B : Bytes} (h : operandReader op = none) :
    decode (op :: B) = .error .unassignedOpcode := by
  simp only [decode, h]

theorem decode_cons_some {op : Byte} {B : Bytes} {reader : Bytes → Option (Taken Instr)}
    (h : operandReader op = some reader) : decode (op :: B) = wholeFrame (reader B) := by
  simp only [decode, h]

/-- A frame is accepted when its operand block ends where the frame ends (R126). -/
theorem wholeFrame_eq_ok {o : Option (Taken Instr)} {i : Instr} :
    wholeFrame o = .ok i ↔ o = some (.ok i, []) := by
  rcases o with _ | ⟨r, _ | ⟨b, l⟩⟩ <;> simp [wholeFrame]

/-- Every command's opcode is assigned (R122). -/
theorem operandReader_opcode (i : Instr) : ∃ reader, operandReader (opcode i) = some reader := by
  cases i <;> exact ⟨_, rfl⟩

end Sys2Proof
end

