-- ==== Sys2Proof/Laws/FrameSize.lean ====
section
/-! SUPPORT. How many bytes each read of 30_encoding.md R120 to R122 takes: it answers a value exactly
when that many bytes are there, whatever they hold, and leaves the bytes after them. -/

namespace Sys2Proof.Machine

/-- On `B` the read takes `n` bytes: it answers with the bytes after them, or there are fewer. -/
def Takes {α : Type} (tk : Bytes → Option (α × Bytes)) (B : Bytes) (n : Nat) : Prop :=
  (n ≤ B.length ∧ ∃ r, tk B = some (r, B.drop n)) ∨ (B.length < n ∧ tk B = none)

/-- A read followed by another takes the bytes of both. -/
theorem Takes.bind {α β : Type} {tk : Bytes → Option (α × Bytes)}
    {k : α × Bytes → Option (β × Bytes)} {B : Bytes} {n m : Nat} (h : Takes tk B n)
    (hk : ∀ r, tk B = some (r, B.drop n) → Takes (fun C => k (r, C)) (B.drop n) m) :
    Takes (fun B => (tk B).bind k) B (n + m) := by
  rcases h with ⟨h1, r, h2⟩ | ⟨h1, h2⟩
  · rcases hk r h2 with ⟨h3, q, h4⟩ | ⟨h3, h4⟩ <;> simp only [List.length_drop] at h3 <;>
      simp only at h4
    · exact .inl ⟨by omega, q, by simp [h2, h4, List.drop_drop]⟩
    · exact .inr ⟨by omega, by simp [h2, h4]⟩
  · exact .inr ⟨by omega, by simp [h2]⟩

/-- Answering takes nothing. -/
theorem Takes.pure {α : Type} (a : α) (B : Bytes) : Takes (fun B => some (a, B)) B 0 :=
  .inl ⟨by simp, a, by simp⟩

/-- What is made of the value read takes nothing more. -/
theorem Takes.map {α β : Type} {tk : Bytes → Option (α × Bytes)} {k : α × Bytes → Option (β × Bytes)}
    {B : Bytes} {n : Nat} (h : Takes tk B n) (hk : ∀ p, ∃ b, k p = some (b, p.2)) :
    Takes (fun B => (tk B).bind k) B n := by
  refine h.bind (m := 0) fun r _ => ?_
  obtain ⟨b, hb⟩ := hk (r, B.drop n)
  exact .inl ⟨by simp, b, by simp [hb]⟩

theorem getD_drop (B : Bytes) (n k : Nat) : (B.drop n).getD k 0 = B.getD (n + k) 0 := by
  simp only [List.getD_eq_getElem?_getD, List.getElem?_drop]

theorem seqSize_drop (B : Bytes) (n k : Nat) : seqSize (B.drop n) k = seqSize B (n + k) := by
  unfold seqSize; simp only [getD_drop, Nat.add_assoc]

theorem takes_u8 (B : Bytes) : Takes takeU8 B 1 := by
  rcases B with _ | ⟨a, B⟩ <;> simp [Takes, takeU8]

theorem takes_u16 (B : Bytes) : Takes takeU16 B 2 := by
  rcases B with _ | ⟨a, _ | ⟨b, B⟩⟩ <;> simp [Takes, takeU16]

theorem takes_u32 (B : Bytes) : Takes takeU32 B 4 := by
  rcases B with _ | ⟨a, _ | ⟨b, _ | ⟨c, _ | ⟨d, B⟩⟩⟩⟩ <;> simp [Takes, takeU32]

theorem takes_time (B : Bytes) : Takes takeTime B 4 := by
  rcases B with _ | ⟨a, _ | ⟨b, _ | ⟨c, _ | ⟨d, B⟩⟩⟩⟩ <;> simp [Takes, takeTime]

/-- The byte a `u8` read answers. -/
theorem takeU8_getD {B rest : Bytes} {b : Byte} (h : takeU8 B = some (b, rest)) :
    b = B.getD 0 0 := by
  rw [takeU8_eq_some] at h; subst h; rfl

theorem takes_seq (B : Bytes) : Takes takeSeq B (seqSize B 0) := by
  rcases B with _ | ⟨a, _ | ⟨b, _ | ⟨c, _ | ⟨d, B⟩⟩⟩⟩
  case cons.cons.cons.cons =>
    have : seqSize (a :: b :: c :: d :: B) 0 = 4 + (a ++ b ++ c ++ d : BitVec 32).toNat := rfl
    simp only [Takes, this, takeSeq, takeU32, List.length_cons]
    by_cases h : (a ++ b ++ c ++ d : BitVec 32).toNat ≤ B.length
    · refine .inl ⟨by omega, B.take (a ++ b ++ c ++ d : BitVec 32).toNat, ?_⟩
      rw [if_pos h, Nat.add_comm 4]; rfl
    · exact .inr ⟨by omega, if_neg h⟩
  all_goals exact .inr ⟨by unfold seqSize; simp only [List.length_cons, List.length_nil]; omega, rfl⟩

theorem takes_ph (B : Bytes) : Takes takePh B 10 :=
  (takes_u8 _).bind (m := 9) fun _ _ => (takes_u8 _).bind (m := 8) fun _ _ =>
  (takes_u8 _).bind (m := 7) fun _ _ => (takes_u16 _).bind (m := 5) fun _ _ =>
  (takes_u8 _).bind (m := 4) fun _ _ => (takes_u16 _).bind (m := 2) fun _ _ =>
  (takes_u16 _).map fun _ => ⟨_, rfl⟩

theorem takes_channel (B : Bytes) : Takes takeChannel B 4 :=
  (takes_u8 _).bind (m := 3) fun _ _ => (takes_u8 _).bind (m := 2) fun _ _ =>
  (takes_u16 _).map fun _ => ⟨_, rfl⟩

/-- An `SH` block takes 11 bytes when its type byte is 1 and 7 otherwise (R121; log 15). -/
theorem takes_sh (B : Bytes) : Takes takeSh B (shSize (B.getD 4 0)) := by
  have e : shSize (B.getD 4 0) = 4 + (1 + (1 + (1 + if B.getD 4 0 = 1 then 4 else 0))) := by
    unfold shSize; split <;> rfl
  rw [e]
  refine (takes_time B).bind fun time _ => (takes_u8 _).bind fun t ht =>
    (takes_u8 _).bind fun c _ => (takes_u8 _).bind fun n _ => ?_
  have ht := takeU8_getD ht
  rw [getD_drop] at ht
  rw [← ht]
  by_cases h : t = 1 <;> simp only [h, if_true, if_false]
  · exact (takes_channel _).map fun _ => ⟨_, rfl⟩
  · exact Takes.pure _ _

/-- An `SP` block takes its headers and its payload `seq` (R121; log 15). -/
theorem takes_sp (B : Bytes) : Takes takeSp B (spSize B) := by
  have e : spSize B = 10 + (1 + ((if B.getD 10 0 = 1 then shSize (B.getD 15 0) else 0) +
      seqSize B (11 + if B.getD 10 0 = 1 then shSize (B.getD 15 0) else 0))) := by
    unfold spSize; simp only; omega
  rw [e]
  refine (takes_ph B).bind fun ph _ => (takes_u8 _).bind fun b hb => ?_
  have hb := takeU8_getD hb
  rw [getD_drop] at hb
  rw [← hb, List.drop_drop]
  by_cases h : b = 1 <;> simp only [h, if_true, if_false]
  · have hs := takes_sh (B.drop 11)
    rw [getD_drop] at hs
    refine hs.bind fun sh _ => ?_
    have hq := takes_seq ((B.drop 11).drop (shSize (B.getD 15 0)))
    rw [seqSize_drop, seqSize_drop] at hq
    exact hq.map fun _ => ⟨_, rfl⟩
  · have hq := takes_seq (B.drop 11)
    rw [seqSize_drop] at hq
    rw [Nat.zero_add]
    exact hq.map fun _ => ⟨_, rfl⟩

/-- The value read turned into its command. -/
theorem takes_asInstr {α : Type} {tk : Bytes → Option (Taken α)} {B : Bytes} {n : Nat} (f : α → Instr)
    (h : Takes tk B n) : Takes (fun B => asInstr f (tk B)) B n := by
  rcases h with ⟨h1, r, h2⟩ | ⟨h1, h2⟩
  · exact .inl ⟨h1, r.map f, by simp [h2, asInstr]⟩
  · exact .inr ⟨h1, by simp [h2, asInstr]⟩

theorem takes_seqInstr (f : Bytes → Instr) (B : Bytes) :
    Takes (takeSeqInstr f) B (seqSize B 0) := by
  unfold takeSeqInstr
  rcases takes_seq B with ⟨h1, r, h2⟩ | ⟨h1, h2⟩
  · exact .inl ⟨h1, .ok (f r), by simp [h2]⟩
  · exact .inr ⟨h1, by simp [h2]⟩

/-- The `seq` that follows `n` bytes. -/
theorem takes_seq_drop (B : Bytes) (n : Nat) : Takes takeSeq (B.drop n) (seqSize B n) := by
  have h := takes_seq (B.drop n)
  rwa [seqSize_drop] at h

theorem takes_bfDecode (B : Bytes) : Takes takeBfDecode B (3 + seqSize B 3) := by
  rw [show 3 + seqSize B 3 = 2 + (1 + seqSize B 3) by omega]
  refine (takes_u16 B).bind fun off _ => (takes_u8 _).bind fun w _ => ?_
  rw [List.drop_drop]
  exact (takes_seq_drop B 3).map fun _ => ⟨_, rfl⟩

theorem takes_bfEncode (B : Bytes) : Takes takeBfEncode B (5 + seqSize B 5) := by
  rw [show 5 + seqSize B 5 = 2 + (1 + (2 + seqSize B 5)) by omega]
  refine (takes_u16 B).bind fun off _ => (takes_u8 _).bind fun w _ => (takes_u16 _).bind fun v _ => ?_
  rw [List.drop_drop, List.drop_drop]
  exact (takes_seq_drop B 5).map fun _ => ⟨_, rfl⟩

theorem takes_shDecode (B : Bytes) : Takes takeShDecode B (4 + seqSize B 4) :=
  (takes_u32 B).bind fun _ _ => (takes_seq_drop B 4).map fun _ => ⟨_, rfl⟩

theorem takes_saInit (B : Bytes) : Takes takeSaInit B 2 :=
  (takes_u8 B).bind (m := 1) fun _ _ => (takes_u8 _).map fun _ => ⟨_, rfl⟩

/-- Every operand block takes the size of its layout (R122). -/
theorem takes_operandReader {op : Byte} {reader : Bytes → Option (Taken Instr)}
    (h : operandReader op = some reader) (B : Bytes) : Takes reader B (operandSize op B) := by
  unfold operandReader at h
  split at h <;> rename_i hn <;> simp only [Option.some.injEq, reduceCtorEq] at h <;> subst h <;>
    simp only [operandSize, hn]
  all_goals first
    | exact takes_seqInstr _ B
    | exact takes_asInstr _ (takes_ph B)
    | exact takes_asInstr _ (takes_sh B)
    | exact takes_asInstr _ (takes_sp B)
    | exact takes_bfDecode B
    | exact takes_bfEncode B
    | exact takes_shDecode B
    | exact takes_saInit B
    | exact Takes.pure _ B

end Sys2Proof.Machine
end

