-- ==== Sys2Proof/Laws/PerInstr.lean ====
section
/-! SUPPORT. A statement about every command as syntax: its frame begins with an opcode of the
opcode map, and its operand block follows (30_encoding.md R120, R122, R140). One lemma per
constructor. -/

namespace Sys2Proof.Laws.OpcodeFirst

/-- The frame is the opcode byte of the command and its operand block; the opcode is one that R122
assigns, so the decoder reads an operand block after it. -/
def Statement (i : Instr) : Prop :=
  encode i = opcode i :: operandBlock i ∧ (operandReader (opcode i)).isSome = true

theorem bfDecode (off : BitVec 16) (w : Byte) (bytes : Bytes) : Statement (.bfDecode off w bytes) :=
  ⟨rfl, rfl⟩
theorem bfEncode (off : BitVec 16) (w : Byte) (v : BitVec 16) (bytes : Bytes) :
    Statement (.bfEncode off w v bytes) :=
  ⟨rfl, rfl⟩
theorem phEncode (h : PrimaryHeader) : Statement (.phEncode h) :=
  ⟨rfl, rfl⟩
theorem phDecode (bytes : Bytes) : Statement (.phDecode bytes) :=
  ⟨rfl, rfl⟩
theorem phIsSegmented (h : PrimaryHeader) : Statement (.phIsSegmented h) :=
  ⟨rfl, rfl⟩
theorem phIsFirst (h : PrimaryHeader) : Statement (.phIsFirst h) :=
  ⟨rfl, rfl⟩
theorem phIsContinuation (h : PrimaryHeader) : Statement (.phIsContinuation h) :=
  ⟨rfl, rfl⟩
theorem phIsLast (h : PrimaryHeader) : Statement (.phIsLast h) :=
  ⟨rfl, rfl⟩
theorem phIsUnsegmented (h : PrimaryHeader) : Statement (.phIsUnsegmented h) :=
  ⟨rfl, rfl⟩
theorem shEncode (h : SecondaryHeader) : Statement (.shEncode h) :=
  ⟨rfl, rfl⟩
theorem shDecode (length : BitVec 32) (bytes : Bytes) : Statement (.shDecode length bytes) :=
  ⟨rfl, rfl⟩
theorem shLength (h : SecondaryHeader) : Statement (.shLength h) :=
  ⟨rfl, rfl⟩
theorem spEncode (x : SpacePacket) : Statement (.spEncode x) :=
  ⟨rfl, rfl⟩
theorem spDecode (bytes : Bytes) : Statement (.spDecode bytes) :=
  ⟨rfl, rfl⟩
theorem spHasSecondary (x : SpacePacket) : Statement (.spHasSecondary x) :=
  ⟨rfl, rfl⟩
theorem saInit (k : ChannelId) (watch : Bool) : Statement (.saInit k watch) :=
  ⟨rfl, rfl⟩
theorem saPush (x : SpacePacket) : Statement (.saPush x) :=
  ⟨rfl, rfl⟩
theorem saFinalize : Statement .saFinalize :=
  ⟨rfl, rfl⟩
theorem rsPushBytes (bytes : Bytes) : Statement (.rsPushBytes bytes) :=
  ⟨rfl, rfl⟩
theorem rsPushPacket (x : SpacePacket) : Statement (.rsPushPacket x) :=
  ⟨rfl, rfl⟩
theorem rsHasCompleted : Statement .rsHasCompleted :=
  ⟨rfl, rfl⟩
theorem rsPopCompleted : Statement .rsPopCompleted :=
  ⟨rfl, rfl⟩

end Sys2Proof.Laws.OpcodeFirst
end

