-- ==== Sys2Proof/Machine/Text.lean ====
section
/-! DEFINITION. The spec's textual notation for commands (30_encoding.md R140): `MNEMONIC` and its
operands, separated by commas, in the order of R122. It names commands; the hardware never reads it.
A nested record block is written flat, its fields in the order of R121 (log 17). -/

namespace Sys2Proof.Machine

/-- A hexadecimal digit. -/
def hexDigit (n : Nat) : Char := if n < 10 then Char.ofNat (48 + n) else Char.ofNat (55 + n)

/-- A byte in two hexadecimal digits. -/
def hexByte (b : Byte) : List Char := [hexDigit (b.toNat / 16), hexDigit (b.toNat % 16)]

/-- Items with a separator between each two. -/
def joinWith (sep : List Char) : List (List Char) → List Char
  | [] => []
  | [x] => x
  | x :: y :: rest => x ++ sep ++ joinWith sep (y :: rest)

/-- A byte sequence: `[09 23 C0 00]`. -/
def seqText (B : Bytes) : List Char := '[' :: joinWith [' '] (B.map hexByte) ++ [']']

/-- A scalar, in decimal. -/
def scalarText (n : Nat) : List Char := Nat.toDigits 10 n

/-- A field of a record block: its name, `=`, its value. -/
def fieldText (name : String) (value : List Char) : List Char := name.toList ++ '=' :: value

/-- A record block: its fields between braces. -/
def recordText (fields : List (List Char)) : List Char :=
  Char.ofNat 0x7B :: joinWith [',', ' '] fields ++ [Char.ofNat 0x7D]

/-- The fields of a `PH` block (R121). -/
def phFields (h : PrimaryHeader) : List (List Char) :=
  [fieldText "versionNumber" (scalarText h.versionNumber.toNat),
   fieldText "packetType" (scalarText h.packetType.toNat),
   fieldText "secondaryHeaderFlag" (scalarText h.secondaryHeaderFlag.toNat),
   fieldText "applicationId" (scalarText h.applicationId.toNat),
   fieldText "sequenceFlag" (scalarText h.sequenceFlag.toNat),
   fieldText "sequenceCount" (scalarText h.sequenceCount.toNat),
   fieldText "packetDataLength" (scalarText h.packetDataLength.toNat)]

/-- The fields of an `SH` block (R121). -/
def shFields (s : SecondaryHeader) : List (List Char) :=
  [fieldText "time" (seqText s.time.bytes),
   fieldText "secondaryHeaderType" (scalarText s.secondaryHeaderType.toNat),
   fieldText "category" (scalarText s.category.toNat),
   fieldText "aduCount" (scalarText s.aduCount.toNat)] ++
  match s.channel with
  | none => []
  | some c =>
    [fieldText "aduChannelId" (scalarText c.aduChannelId.toNat),
     fieldText "aduSegmentFlag" (scalarText c.aduSegmentFlag.toNat),
     fieldText "aduSegmentCount" (scalarText c.aduSegmentCount.toNat)]

/-- The fields of an `SP` block (R121). -/
def spFields (x : SpacePacket) : List (List Char) :=
  phFields x.primary ++ [fieldText "secondaryPresent" (scalarText x.secondary.isSome.toNat)] ++
  (match x.secondary with
   | none => []
   | some s => shFields s) ++
  [fieldText "payload" (seqText x.payload)]

/-- The operands of a command, in the order of R122. -/
def operandTexts : Instr → List (List Char)
  | .bfDecode off w bytes => [scalarText off.toNat, scalarText w.toNat, seqText bytes]
  | .bfEncode off w v bytes =>
    [scalarText off.toNat, scalarText w.toNat, scalarText v.toNat, seqText bytes]
  | .phEncode h => [recordText (phFields h)]
  | .phDecode bytes => [seqText bytes]
  | .phIsSegmented h => [recordText (phFields h)]
  | .phIsFirst h => [recordText (phFields h)]
  | .phIsContinuation h => [recordText (phFields h)]
  | .phIsLast h => [recordText (phFields h)]
  | .phIsUnsegmented h => [recordText (phFields h)]
  | .shEncode h => [recordText (shFields h)]
  | .shDecode length bytes => [scalarText length.toNat, seqText bytes]
  | .shLength h => [recordText (shFields h)]
  | .spEncode x => [recordText (spFields x)]
  | .spDecode bytes => [seqText bytes]
  | .spHasSecondary x => [recordText (spFields x)]
  | .saInit ch watch => [scalarText ch.toNat, scalarText watch.toNat]
  | .saPush x => [recordText (spFields x)]
  | .saFinalize => []
  | .rsPushBytes bytes => [seqText bytes]
  | .rsPushPacket x => [recordText (spFields x)]
  | .rsHasCompleted => []
  | .rsPopCompleted => []

/-- The line of a command (R140); every mnemonic is one opcode (R141). -/
def commandText (i : Instr) : List Char :=
  match operandTexts i with
  | [] => (mnemonic i).toList
  | ops => (mnemonic i).toList ++ ' ' :: joinWith [',', ' '] ops

end Sys2Proof.Machine
end

