-- ==== Sys2Proof/Tests/Slice0.lean ====
section
/-! SUPPORT. Tests. Every expected frame and response is one of 95_test_vectors.md (its name stands in
the comment) or is written by hand from the rules it cites; every witness shows states and operands
that meet the hypotheses of the obligation it is named after, at the boundaries of its clauses. -/

open Sys2Proof Sys2Proof.Machine

namespace Sys2Proof.Tests

-- Many small kernel evaluations: one at a time, or their threads' stacks exceed the memory limit.
set_option Elab.async false

/-! ### Helpers -/

/-- Reset with the parameters of the test vectors: `APP_ID_LOW = 0x23`, `RS_WATCH` constant false. -/
def standard : State := State.resetWith 0x23 []

/-- The responses after one step that takes the frame `f`. -/
def answerTo (s : State) (f : Bytes) : Option (List Bytes) :=
  match step (issueNext s f) with
  | .next t => some t.responsePort
  | .fault _ => none
  | .refused _ => none

/-- The block after one step that takes the frame `f`. -/
def blockAfter (s : State) (f : Bytes) : Option Block :=
  match step (issueNext s f) with
  | .next t => some t.st
  | .fault _ => none
  | .refused _ => none

/-- A packet of the standard layout with an ADU channel. -/
def packet (k : ChannelId) (flag : BitVec 2) (count : SegmentCount) (payload : Bytes) : SpacePacket :=
  ⟨⟨0, 0, 1, 0x123, flag, 0, 9⟩, some ⟨⟨0, 0, 0, 1⟩, 5, 7, some ⟨k, flag, count⟩⟩, payload⟩

/-- A packet with no secondary header. -/
def bare (payload : Bytes) : SpacePacket := ⟨⟨0, 0, 0, 0x123, 3, 0, 0⟩, none, payload⟩

/-- An accumulator of channel 0x10. -/
def accumulator (state : AccState) (fs : List SpacePacket) (e : Option SegmentCount) (watch : Bool) :
    Accumulator := ⟨0x10, state, fs, e, watch⟩

/-- `standard` with a standalone accumulator. -/
def withSa (a : Accumulator) : State := { standard with st := { standard.st with sa := some a } }

/-- `standard` with one channel. -/
def withSlot (a : Accumulator) : State :=
  { standard with st := { standard.st with channels := [(0x10, a)] } }

/-- `F` of the vectors: First, count 5. -/
def pF : SpacePacket := packet 0x10 0b01 5 [0xAA]

/-- An accumulator that holds `F`. -/
def opened (watch : Bool) : Accumulator := accumulator .assembling [pF] (some 6) watch

/-! ### Decoding: every constructor, from a frame of the vectors -/

theorem test_decode_bfDecode : decode [0x01, 0x00, 0x05, 0x0B, 0x00, 0x00, 0x00, 0x02, 0x09, 0x23] =
    .ok (.bfDecode 5 11 [0x09, 0x23]) := by decide +kernel  -- V-BF-1
theorem test_decode_bfEncode :
    decode [0x02, 0x00, 0x10, 0x02, 0x00, 0x03, 0x00, 0x00, 0x00, 0x04, 0x00, 0x00, 0x00, 0x05] =
    .ok (.bfEncode 16 2 3 [0, 0, 0, 5]) := by decide +kernel  -- V-BF-9
theorem test_decode_phEncode :
    decode [0x10, 0x00, 0x01, 0x01, 0x07, 0xFF, 0x03, 0x3F, 0xFF, 0xFF, 0xFF] =
    .ok (.phEncode ⟨0, 1, 1, 0x7FF, 3, 0x3FFF, 0xFFFF⟩) := by decide +kernel  -- V-PH-10
theorem test_decode_phDecode : decode [0x11, 0x00, 0x00, 0x00, 0x05, 0x09, 0x23, 0xC0, 0x05, 0x00] =
    .ok (.phDecode [0x09, 0x23, 0xC0, 0x05, 0x00]) := by decide +kernel  -- V-PH-4
theorem test_decode_phIsSegmented :
    decode [0x12, 0x00, 0x00, 0x01, 0x01, 0x23, 0x01, 0x00, 0x00, 0x00, 0x00] =
    .ok (.phIsSegmented ⟨0, 0, 1, 0x123, 1, 0, 0⟩) := by decide +kernel  -- V-PH-15
theorem test_decode_phIsFirst :
    decode [0x13, 0x00, 0x00, 0x01, 0x01, 0x23, 0x01, 0x00, 0x00, 0x00, 0x00] =
    .ok (.phIsFirst ⟨0, 0, 1, 0x123, 1, 0, 0⟩) := by decide +kernel  -- V-PH-15
theorem test_decode_phIsContinuation :
    decode [0x14, 0x00, 0x00, 0x01, 0x01, 0x23, 0x01, 0x00, 0x00, 0x00, 0x00] =
    .ok (.phIsContinuation ⟨0, 0, 1, 0x123, 1, 0, 0⟩) := by decide +kernel  -- V-PH-15
theorem test_decode_phIsLast :
    decode [0x15, 0x00, 0x00, 0x01, 0x01, 0x23, 0x02, 0x00, 0x00, 0x00, 0x00] =
    .ok (.phIsLast ⟨0, 0, 1, 0x123, 2, 0, 0⟩) := by decide +kernel  -- V-PH-16
theorem test_decode_phIsUnsegmented :
    decode [0x16, 0x00, 0x00, 0x01, 0x01, 0x23, 0x03, 0x00, 0x00, 0x00, 0x00] =
    .ok (.phIsUnsegmented ⟨0, 0, 1, 0x123, 3, 0, 0⟩) := by decide +kernel  -- V-PH-17
theorem test_decode_shEncode :
    decode [0x20, 0x01, 0x02, 0x03, 0x04, 0x01, 0x00, 0xFF, 0xFF, 0x02, 0x3F, 0xFF] =
    .ok (.shEncode ⟨⟨1, 2, 3, 4⟩, 0, 0xFF, some ⟨0xFF, 2, 0x3FFF⟩⟩) := by
  decide +kernel  -- V-SH-10
theorem test_decode_shDecode :
    decode [0x21, 0x00, 0x00, 0x00, 0x09, 0x00, 0x00, 0x00, 0x04, 0x00, 0x00, 0x00, 0x01] =
    .ok (.shDecode 9 [0, 0, 0, 1]) := by decide +kernel  -- V-SH-6
theorem test_decode_shLength : decode [0x22, 0xDE, 0xAD, 0xBE, 0xEF, 0x00, 0x05, 0x2A] =
    .ok (.shLength ⟨⟨0xDE, 0xAD, 0xBE, 0xEF⟩, 5, 0x2A, none⟩) := by decide +kernel  -- V-SH-13
theorem test_decode_spEncode :
    decode [0x30, 0x00, 0x01, 0x01, 0x07, 0xFF, 0x00, 0x3F, 0xFF, 0x00, 0x00, 0x01, 0xDE, 0xAD, 0xBE,
      0xEF, 0x00, 0x05, 0x2A, 0x00, 0x00, 0x00, 0x01, 0x99] =
    .ok (.spEncode ⟨⟨0, 1, 1, 0x7FF, 0, 0x3FFF, 0⟩,
      some ⟨⟨0xDE, 0xAD, 0xBE, 0xEF⟩, 5, 0x2A, none⟩, [0x99]⟩) := by decide +kernel  -- V-SP-11
theorem test_decode_spDecode : decode [0x31, 0x00, 0x00, 0x00, 0x05, 0x01, 0x23, 0xC0, 0x00, 0x00] =
    .ok (.spDecode [0x01, 0x23, 0xC0, 0x00, 0x00]) := by decide +kernel  -- V-SP-4
theorem test_decode_spHasSecondary :
    decode [0x32, 0x00, 0x00, 0x00, 0x01, 0x23, 0x03, 0x00, 0x00, 0x00, 0x00, 0x00, 0x00, 0x00, 0x00,
      0x01, 0x01] = .ok (.spHasSecondary (bare [0x01])) := by decide +kernel  -- V-SP-16
theorem test_decode_saInit : decode [0x40, 0x10, 0x01] = .ok (.saInit 0x10 true) := by
  decide +kernel  -- V-SA-5
theorem test_decode_saPush :
    decode [0x41, 0x00, 0x00, 0x01, 0x01, 0x23, 0x01, 0x00, 0x00, 0x00, 0x09, 0x01, 0x00, 0x00, 0x00,
      0x01, 0x01, 0x05, 0x07, 0x10, 0x01, 0x00, 0x05, 0x00, 0x00, 0x00, 0x01, 0xAA] =
    .ok (.saPush pF) := by decide +kernel  -- V-SA-1, first push
theorem test_decode_saFinalize : decode [0x42] = .ok .saFinalize := by decide +kernel  -- V-SA-13
theorem test_decode_rsPushBytes : decode [0x50, 0x00, 0x00, 0x00, 0x05, 0x09, 0x23, 0x40, 0x00, 0x00] =
    .ok (.rsPushBytes [0x09, 0x23, 0x40, 0x00, 0x00]) := by decide +kernel  -- V-RS-4
theorem test_decode_rsPushPacket :
    decode [0x51, 0x00, 0x00, 0x01, 0x01, 0x23, 0x03, 0x00, 0x00, 0x00, 0x0A, 0x01, 0x00, 0x00, 0x00,
      0x01, 0x01, 0x05, 0x07, 0x11, 0x03, 0x00, 0x00, 0x00, 0x00, 0x00, 0x02, 0xDD, 0xEE] =
    .ok (.rsPushPacket ⟨⟨0, 0, 1, 0x123, 3, 0, 10⟩,
      some ⟨⟨0, 0, 0, 1⟩, 5, 7, some ⟨0x11, 3, 0⟩⟩, [0xDD, 0xEE]⟩) := by decide +kernel  -- V-RS-3
theorem test_decode_rsHasCompleted : decode [0x52] = .ok .rsHasCompleted := by decide +kernel  -- P1
theorem test_decode_rsPopCompleted : decode [0x53] = .ok .rsPopCompleted := by decide +kernel  -- P1

/-- Two words of the opcode table (8 bits, operand words zero), decoded. -/
theorem test_decodeTableWord : decodeTableWord 8 0x40 = some (.saInit 0 false) ∧
    decodeTableWord 8 0x51 = some (.rsPushPacket ⟨⟨0, 0, 0, 0, 0, 0, 0⟩, none, []⟩) ∧
    decodeTableWord 8 0x03 = none := by decide +kernel

/-- A table word placed for the fetch is the next command: SA_INIT 0, false (R250). -/
theorem test_withFetchWord : step (State.reset.withFetchWord 8 0x40) =
    exec (.saInit 0 false) State.reset := rfl

/-- R140's example line. -/
theorem test_commandText : commandText (.rsPushBytes [0x09, 0x23, 0xC0, 0x00, 0x00, 0x0A, 0x00, 0x00,
    0x00, 0x01, 0x85, 0x07, 0x11, 0xC0, 0x00, 0xDD, 0xEE]) =
    "RS_PUSH_BYTES [09 23 C0 00 00 0A 00 00 00 01 85 07 11 C0 00 DD EE]".toList := by decide +kernel

/-! ### WellFormed, each check with an ill-formed term -/

/-- R125: a flag of 1 with no secondary header. -/
theorem test_wellFormed_flag_without_header :
    (Instr.spEncode { bare [1] with primary := ⟨0, 0, 1, 0x123, 3, 0, 0⟩ }).wellFormed = false := by
  decide
/-- R125: a secondary header with a flag of 0. -/
theorem test_wellFormed_header_without_flag :
    (Instr.saPush { pF with primary := ⟨0, 0, 0, 0x123, 3, 0, 0⟩ }).wellFormed = false := by decide
/-- R120: a `seq` of 2^32 bytes or more has no u32 length, alone or as a payload. -/
theorem test_wellFormed_seq_too_long (n : Nat) (h : 2 ^ 32 ≤ n) :
    (Instr.phDecode (List.replicate n 0)).wellFormed = false ∧
    (Instr.spHasSecondary (bare (List.replicate n 0))).wellFormed = false := by
  have hf : Bytes.fitsSeq (List.replicate n 0) = false :=
    decide_eq_false (by rw [List.length_replicate]; omega)
  exact ⟨hf, by simp only [Instr.wellFormed, SpacePacket.operandOk, bare, hf, Bool.and_false]⟩

/-! ### One step of every command, on frames and responses of the vectors -/

theorem test_bfDecode : answerTo standard  -- V-BF-3: unaligned, three bytes
    [0x01, 0x00, 0x04, 0x10, 0x00, 0x00, 0x00, 0x03, 0x12, 0x34, 0x56] =
    some [[0, 0, 0, 0x23, 0x45]] := by decide +kernel
theorem test_bfDecode_refused : answerTo standard  -- V-BF-5: one bit past the end
    [0x01, 0x00, 0x09, 0x08, 0x00, 0x00, 0x00, 0x02, 0xFF, 0xFF] = some [[0xFF, 4, 0]] := by
  decide +kernel
theorem test_bfEncode : answerTo standard  -- V-BF-11: other bits kept
    [0x02, 0x00, 0x03, 0x02, 0x00, 0x00, 0x00, 0x00, 0x00, 0x01, 0xFF] =
    some [[0, 0, 0, 0, 0, 0, 1, 0xE7]] := by decide +kernel
theorem test_bfEncode_refused : answerTo standard  -- V-BF-14: value not masked
    [0x02, 0x00, 0x00, 0x02, 0x00, 0x04, 0x00, 0x00, 0x00, 0x01, 0x00] = some [[0xFF, 4, 0]] := by
  decide +kernel
theorem test_phEncode : answerTo standard  -- V-PH-11
    [0x10, 0x00, 0x00, 0x00, 0x04, 0x00, 0x02, 0x20, 0x01, 0x12, 0x34] =
    some [[0, 0, 0, 0x04, 0x00, 0xA0, 0x01, 0x12, 0x34]] := by decide +kernel
theorem test_phEncode_version : answerTo standard  -- V-PH-7
    [0x10, 0x01, 0x00, 0x00, 0x00, 0x00, 0x00, 0x00, 0x00, 0x00, 0x00] = some [[0xFF, 6, 0]] := by
  decide +kernel
theorem test_phDecode : answerTo standard  -- V-PH-3
    [0x11, 0x00, 0x00, 0x00, 0x06, 0x17, 0xFF, 0x7F, 0xFF, 0xFF, 0xFF] =
    some [[0, 0, 0, 0, 1, 0, 0x07, 0xFF, 1, 0x3F, 0xFF, 0xFF, 0xFF]] := by decide +kernel
theorem test_phIsSegmented : answerTo standard  -- V-PH-17
    [0x12, 0x00, 0x00, 0x01, 0x01, 0x23, 0x03, 0x00, 0x00, 0x00, 0x00] = some [[0, 0, 0, 0]] := by
  decide +kernel
theorem test_phIsFirst : answerTo standard  -- V-PH-15
    [0x13, 0x00, 0x00, 0x01, 0x01, 0x23, 0x01, 0x00, 0x00, 0x00, 0x00] = some [[0, 0, 0, 1]] := by
  decide +kernel
theorem test_phIsContinuation : answerTo standard  -- V-PH-14
    [0x14, 0x00, 0x00, 0x01, 0x01, 0x23, 0x00, 0x00, 0x00, 0x00, 0x00] = some [[0, 0, 0, 1]] := by
  decide +kernel
theorem test_phIsLast : answerTo standard  -- V-PH-16
    [0x15, 0x00, 0x00, 0x01, 0x01, 0x23, 0x02, 0x00, 0x00, 0x00, 0x00] = some [[0, 0, 0, 1]] := by
  decide +kernel
theorem test_phIsUnsegmented : answerTo standard  -- V-PH-16
    [0x16, 0x00, 0x00, 0x01, 0x01, 0x23, 0x02, 0x00, 0x00, 0x00, 0x00] = some [[0, 0, 0, 0]] := by
  decide +kernel
theorem test_shEncode : answerTo standard  -- V-SH-1
    [0x20, 0x00, 0x00, 0x00, 0x01, 0x01, 0x7F, 0x03, 0x10, 0x01, 0x00, 0x05] =
    some [[0, 0, 0, 0, 0, 0, 9, 0, 0, 0, 1, 0xFF, 0x03, 0x10, 0x40, 0x05]] := by decide +kernel
theorem test_shDecode : answerTo standard  -- V-SH-8
    [0x21, 0x00, 0x00, 0x00, 0x09, 0x00, 0x00, 0x00, 0x09, 0x00, 0x00, 0x00, 0x01, 0xFF, 0x03, 0x10,
      0x40, 0x05] =
    some [[0, 0, 0, 0, 0, 0, 1, 1, 0x7F, 3, 0x10, 1, 0, 5]] := by decide +kernel
theorem test_shDecode_length : answerTo standard  -- V-SH-9: only `length` counts
    [0x21, 0x00, 0x00, 0x00, 0x06, 0x00, 0x00, 0x00, 0x09, 0x00, 0x00, 0x00, 0x01, 0x85, 0x07, 0x10,
      0x40, 0x05] = some [[3, 0, 0]] := by decide +kernel
theorem test_shLength : answerTo standard  -- V-SH-14
    [0x22, 0x00, 0x00, 0x00, 0x01, 0x01, 0x05, 0x07, 0x10, 0x01, 0x00, 0x00] =
    some [[0, 0, 0, 9]] := by decide +kernel
theorem test_spEncode : answerTo standard  -- V-SP-2: the operand's length field is replaced
    [0x30, 0x00, 0x00, 0x00, 0x01, 0x23, 0x03, 0x00, 0x00, 0x99, 0x99, 0x00, 0x00, 0x00, 0x00, 0x01,
      0x01] =
    some [[0, 0, 0, 0, 0, 0, 7, 0x01, 0x23, 0xC0, 0x00, 0x00, 0x00, 0x01,
      0, 0, 0, 0x01, 0x23, 3, 0, 0, 0, 0, 0, 0, 0, 0, 1, 0x01]] := by decide +kernel
theorem test_spDecode : answerTo standard  -- V-SP-3: the declared length does not bound the payload
    [0x31, 0x00, 0x00, 0x00, 0x09, 0x01, 0x23, 0xC0, 0x00, 0x00, 0x00, 0x01, 0x02, 0x03] =
    some [[0, 0, 0, 0, 0, 0, 0x01, 0x23, 3, 0, 0, 0, 0, 0, 0, 0, 0, 3, 1, 2, 3]] := by decide +kernel
theorem test_spDecode_short : answerTo standard  -- V-SP-5
    [0x31, 0x00, 0x00, 0x00, 0x0B, 0x09, 0x23, 0xC0, 0x00, 0x00, 0x0A, 0x00, 0x00, 0x00, 0x01, 0xFF] =
    some [[3, 0, 0]] := by decide +kernel
theorem test_spHasSecondary : answerTo standard  -- V-SP-16
    [0x32, 0x00, 0x00, 0x00, 0x01, 0x23, 0x03, 0x00, 0x00, 0x00, 0x00, 0x00, 0x00, 0x00, 0x00, 0x01,
      0x01] = some [[0, 0, 0, 0]] := by decide +kernel
theorem test_saInit : blockAfter (withSa (opened false)) [0x40, 0x10, 0x01] =  -- V-SA-23
    some { standard.st with sa := some (accumulator .empty [] none true) } := by decide +kernel
theorem test_saPush_wrap :  -- V-SA-7: 16383 is followed by 0
    blockAfter (withSa (accumulator .assembling [packet 0x10 0b01 16383 [1]] (some 0) true))
      (encode (.saPush (packet 0x10 0b10 0 [2]))) =
    some { standard.st with
      sa := some (accumulator .complete [packet 0x10 0b01 16383 [1], packet 0x10 0b10 0 [2]]
        (some 1) true) } := by decide +kernel
theorem test_saPush_counter_first :  -- V-SA-17: the counter check precedes the table
    answerTo (withSa (opened true)) (encode (.saPush (packet 0x10 0b01 9 [0xAA]))) =
    some [[7, 0, 5]] := by decide +kernel
theorem test_saFinalize :  -- V-SA-2
    answerTo (withSa (accumulator .complete [pF, packet 0x10 0b10 7 [0xCC]] (some 8) false)) [0x42] =
    some [[0, 0, 0, 0x10, 5, 0, 1, 0x23, 7, 0, 0, 0, 1, 0, 0, 0, 2, 0xAA, 0xCC]] := by decide +kernel
theorem test_saFinalize_absent : answerTo standard [0x42] = some [[0xFF, 0x0B, 0]] := by  -- V-SA-14
  decide +kernel
theorem test_rsPushBytes_orphan :  -- V-RS-6: the channel is created and left in Error
    blockAfter standard [0x50, 0x00, 0x00, 0x00, 0x10, 0x09, 0x23, 0x00, 0x00, 0x00, 0x09, 0x00, 0x00,
      0x00, 0x01, 0x85, 0x07, 0x10, 0x00, 0x06, 0xBB] =
    some { standard.st with
      channels := [(0x10, accumulator .error [] none false)]
      diagLog := [.reassemblyFailure 0x10 .continuation .illegalSegmentTransition
        .continuationWithNoOpener] } := by decide +kernel
theorem test_rsPushBytes_malformed :  -- V-RS-5
    answerTo standard [0x50, 0x00, 0x00, 0x00, 0x0E, 0x09, 0x23, 0xC0, 0x00, 0x00, 0x0A, 0x00, 0x00,
      0x00, 0x01, 0x85, 0x07, 0x10, 0x40] = some [[4, 3, 0]] := by decide +kernel
theorem test_rsPushPacket :  -- V-RS-11: the accumulator's record, then the Reassembler's
    blockAfter { standard with st := { standard.st with
        cfg := ⟨0x23, [0x10]⟩, channels := [(0x10, opened true)] } }
      (encode (.rsPushPacket (packet 0x10 0b10 9 [0xCC]))) =
    some { standard.st with
      cfg := ⟨0x23, [0x10]⟩
      channels := [(0x10, accumulator .error [] none true)]
      diagLog := [.discontinuity 0x10 .last 5 9,
        .reassemblyFailure 0x10 .last .segmentDiscontinuity .counterDiscontinuity] } := by
  decide +kernel
theorem test_rsPushPacket_order :  -- V-RS-15: no channel is checked before the APID
    answerTo standard (encode (.rsPushPacket
      { bare [1] with primary := ⟨0, 0, 0, 0x124, 3, 0, 0⟩ })) = some [[0xFF, 0x0A, 0]] := by
  decide +kernel
theorem test_rsHasCompleted : answerTo standard [0x52] = some [[0, 0, 0, 0]] := by  -- V-RS-7
  decide +kernel
theorem test_rsPopCompleted : answerTo standard [0x53] = some [[0x0A, 0, 0]] := by  -- V-RS-7
  decide +kernel
theorem test_unassigned : answerTo standard [0x03] = some [[0xFF, 1, 0]] ∧  -- V-FR-1
    blockAfter standard [0x03] = some { standard.st with refused := true } := by decide +kernel
theorem test_wide_before_version : answerTo standard  -- V-FR-5: reason 3 precedes reason 6
    [0x10, 0x08, 0x00, 0x01, 0x01, 0x23, 0x03, 0x00, 0x05, 0x00, 0x0A] = some [[0xFF, 3, 0]] := by
  decide +kernel

/-! ### Witnesses: states and operands that meet the hypotheses of each obligation -/

/-- A port with one frame. -/
def issued (f : Bytes) : State := issueNext standard f

theorem witness_DecodingAnEncodedCommandGivesItBack :
    (Instr.phEncode ⟨7, 1, 1, 0x7FF, 3, 0x3FFF, 0xFFFF⟩).wellFormed = true ∧
    (Instr.saPush pF).wellFormed = true ∧ (Instr.spEncode (bare [])).wellFormed = true := by
  decide +kernel

theorem witness_EncodingADecodedFrameGivesItBack :
    decode [0x40, 0x10, 0x01] = .ok (.saInit 0x10 true) := by decide +kernel

/-- Among the frames of wrong length: one with a version too wide (reason 3 if the length were right)
and one of a presence that disagrees (reason 5 if it were). The last size counts an 11-byte SH. -/
theorem witness_TruncatedOrExtendedFrameIsRefused :
    ((0x10 : Byte).toNat ∈ [0x01, 0x02, 0x10, 0x11, 0x12, 0x13, 0x14, 0x15, 0x16, 0x20, 0x21, 0x22,
      0x30, 0x31, 0x32, 0x40, 0x41, 0x42, 0x50, 0x51, 0x52, 0x53] ∧
      operandSize 0x10 [8, 0] = 10 ∧ decode [0x10, 8, 0] = .error .badFrameLength) ∧
    decode [0x30, 0, 0, 1, 1, 0x23, 3, 0, 0, 0, 0, 0, 0, 0, 0, 1] = .error .badFrameLength ∧
    operandSize 0x51 (spBlock pF) = 27 ∧ (spBlock pF).length = 27 ∧
    (Instr.saInit 0x10 true).wellFormed = true ∧ 0 < 1 ∧
    2 < (encode (Instr.saInit 0x10 true)).length := by decide +kernel

theorem witness_UnassignedOpcodeIsRefused :
    (0x00 : Byte).toNat ∉ [0x01, 0x02, 0x10, 0x11, 0x12, 0x13, 0x14, 0x15, 0x16, 0x20, 0x21, 0x22,
      0x30, 0x31, 0x32, 0x40, 0x41, 0x42, 0x50, 0x51, 0x52, 0x53] ∧
    decode [0x00] = .error .unassignedOpcode ∧ decode [0x17] = .error .unassignedOpcode := by
  decide +kernel

theorem witness_WidePrimaryScalarIsRefused :
    (0x10 : Byte) ∈ [(0x10 : Byte), 0x12, 0x13, 0x14, 0x15, 0x16] ∧
    decode [0x10, 8, 0, 0, 0, 0, 0, 0, 0, 0, 0] = .error .operandTooWide ∧
    decode [0x10, 7, 1, 1, 7, 0xFF, 3, 0x3F, 0xFF, 0xFF, 0xFF] =
      .ok (.phEncode ⟨7, 1, 1, 0x7FF, 3, 0x3FFF, 0xFFFF⟩) := by decide +kernel

theorem witness_WideSecondaryScalarIsRefused :
    (0x20 : Byte) ∈ [(0x20 : Byte), 0x22] ∧ (0 : Byte) ≠ 1 ∧ (2 : Byte) ≠ 1 ∧
    decode [0x20, 0, 0, 0, 0, 1, 0x7F, 0xFF, 0xFF, 3, 0x3F, 0xFF] =
      .ok (.shEncode ⟨⟨0, 0, 0, 0⟩, 0x7F, 0xFF, some ⟨0xFF, 3, 0x3FFF⟩⟩) ∧
    decode [0x20, 0, 0, 0, 0, 1, 0x7F, 0xFF, 0xFF, 3, 0x40, 0xFF] = .error .operandTooWide ∧
    decode [0x20, 0, 0, 0, 0, 0, 0x80, 0xFF] = .error .operandTooWide ∧
    decode [0x20, 0, 0, 0, 0, 2, 0x7F, 0xFF] = .error .operandTooWide ∧
    decode [0x40, 0, 2] = .error .operandTooWide := by decide +kernel

theorem witness_PresenceMismatchIsRefused :
    pF.payload.length < 2 ^ 32 ∧ (pF.secondary.isSome = true ↔ pF.primary.secondaryHeaderFlag = 1) ∧
    (let x : SpacePacket := { pF with secondary := none }
     x.payload.length < 2 ^ 32 ∧ ¬(x.secondary.isSome = true ↔ x.primary.secondaryHeaderFlag = 1)) := by
  decide

/-- Each form at its boundary: the widest scalars decode or are refused with reason 5, one more bit is
refused with reason 3, whatever the presence. -/
theorem witness_WidePacketScalarIsRefusedBeforePresence :
    (0x41 : Byte) ∈ [(0x30 : Byte), 0x32, 0x41, 0x51] ∧ ([0xAA] : Bytes).length < 2 ^ 32 ∧
    (2 : Byte) ≠ 1 ∧ (0 : Byte) ≠ 1 ∧
    decode [0x41, 7, 1, 0, 7, 0xFF, 3, 0x3F, 0xFF, 0xFF, 0xFF, 0, 0, 0, 0, 0] =
      .ok (.saPush ⟨⟨7, 1, 0, 0x7FF, 3, 0x3FFF, 0xFFFF⟩, none, []⟩) ∧
    decode [0x41, 7, 1, 1, 7, 0xFF, 3, 0x3F, 0xFF, 0xFF, 0xFF, 0, 0, 0, 0, 0] =
      .error .presenceMismatch ∧
    decode [0x41, 0, 0, 0, 0, 0, 0, 0, 0, 0, 0, 2, 0, 0, 0, 0] = .error .operandTooWide ∧
    decode [0x41, 8, 0, 1, 0, 0, 0, 0, 0, 0, 0, 0, 0, 0, 0, 0] = .error .operandTooWide ∧
    decode [0x41, 0, 0, 0, 0, 0, 0, 0, 0, 0, 0, 1, 0, 0, 0, 0, 0, 0x80, 0, 0, 0, 0, 0] =
      .error .operandTooWide ∧
    decode [0x41, 0, 0, 0, 0, 0, 0, 0, 0, 0, 0, 1, 0, 0, 0, 0, 1, 0x7F, 0, 0, 3, 0x40, 0, 0, 0, 0,
      0] = .error .operandTooWide ∧
    decode [0x41, 0, 0, 0, 0, 0, 0, 0, 0, 0, 0, 1, 0, 0, 0, 0, 1, 0x7F, 0, 0, 3, 0x3F, 0, 0, 0, 0,
      0] = .error .presenceMismatch := by decide +kernel

theorem witness_AStepRunsTheDecodedCommand :
    (issued [0x52]).commandPort = [0x52] :: [] ∧ decode [0x52] = .ok .rsHasCompleted ∧
    standard.commandPort = [] := by decide +kernel

theorem witness_AnUndecodableFrameIsRefused :
    (issued [0x03]).commandPort = [0x03] :: [] ∧ decode [0x03] = .error .unassignedOpcode ∧
    decode [0x52, 0x00] = .error .badFrameLength ∧ decode [0x40, 0, 2] = .error .operandTooWide ∧
    decode (0x30 :: spBlock { pF with secondary := none }) = .error .presenceMismatch := by
  decide +kernel

theorem witness_EveryFrameIsAnsweredOnce : (issued [0x52]).commandPort = [0x52] :: [] := rfl

theorem witness_BfDecodeReadsTheField :
    (let (off, w, B) := ((23 : BitVec 16), (1 : Byte), ([0, 0, 1] : Bytes))
     1 ≤ w.toNat ∧ w.toNat ≤ 16 ∧ off.toNat + w.toNat ≤ 8 * B.length) ∧
    (let (off, w, B) := ((0 : BitVec 16), (16 : Byte), ([0xAB, 0xCD] : Bytes))
     1 ≤ w.toNat ∧ w.toNat ≤ 16 ∧ off.toNat + w.toNat ≤ 8 * B.length) := by decide

theorem witness_BfEncodeWritesTheField :
    (let (off, w, v, B) := ((0 : BitVec 16), (16 : Byte), (0xFFFF : BitVec 16), ([0, 0] : Bytes))
     B.length < 2 ^ 32 ∧ 1 ≤ w.toNat ∧ w.toNat ≤ 16 ∧ off.toNat + w.toNat ≤ 8 * B.length ∧
       v.toNat < 2 ^ w.toNat) := by decide

theorem witness_BfRefusesInadmissibleOperands :
    (let (off, w, B) := ((0 : BitVec 16), (17 : Byte), ([0, 0, 0] : Bytes))
     ¬(1 ≤ w.toNat ∧ w.toNat ≤ 16 ∧ off.toNat + w.toNat ≤ 8 * B.length)) ∧
    (let (off, w, B) := ((0 : BitVec 16), (0 : Byte), ([0] : Bytes))
     ¬(1 ≤ w.toNat ∧ w.toNat ≤ 16 ∧ off.toNat + w.toNat ≤ 8 * B.length)) ∧
    (let (off, w, v, B) := ((0 : BitVec 16), (2 : Byte), (4 : BitVec 16), ([0] : Bytes))
     ¬(1 ≤ w.toNat ∧ w.toNat ≤ 16 ∧ off.toNat + w.toNat ≤ 8 * B.length ∧
       v.toNat < 2 ^ w.toNat)) := by decide

theorem witness_FieldAndSetFieldLaws :
    (let (B, off, w, v, off', w') := (([0, 0] : Bytes), 0, 5, 31, 5, 11)
     off + w ≤ 8 * B.length ∧ v < 2 ^ w ∧ off' + w' ≤ 8 * B.length ∧
       (off + w ≤ off' ∨ off' + w' ≤ off)) := by decide

theorem witness_PhEncodeAnswersTheWireLayout :
    (⟨0, 1, 1, 0x7FF, 3, 0x3FFF, 0xFFFF⟩ : PrimaryHeader).versionNumber = 0 ∧
    (⟨7, 0, 0, 0, 0, 0, 0⟩ : PrimaryHeader).versionNumber ≠ 0 := by decide

theorem witness_PhDecodeAnswersTheFields :
    ([0x09, 0x23, 0xC0, 0x05, 0x00] : Bytes).length < 6 := by decide

theorem witness_PrimaryHeaderRoundTrip :
    (⟨0, 1, 1, 0x7FF, 3, 0x3FFF, 0xFFFF⟩ : PrimaryHeader).versionNumber = 0 ∧
    (let B : Bytes := [31, 0xFF, 0xFF, 0xFF, 0xFF, 0xFF]
     B.length = 6 ∧ (B.getD 0 0).toNat < 32) := by decide

theorem witness_ShDecodeAnswersTheFields :
    (let (length, rest) := ((6 : BitVec 32), ([] : Bytes))
     length.toNat ≤ 6 + rest.length ∧ (0x05 : Byte).getLsbD 7 = false ∧ 6 ≤ length.toNat) ∧
    (let (length, rest) := ((9 : BitVec 32), ([0x10, 0x40, 0x05] : Bytes))
     length.toNat ≤ 6 + rest.length ∧ rest = 0x10 :: 0x40 :: 0x05 :: [] ∧
       (0xFF : Byte).getLsbD 7 = true ∧ 9 ≤ length.toNat) := by decide

theorem witness_ShDecodeRefusesAndFailsShort :
    (let (length, B) := ((9 : BitVec 32), ([0, 0, 0, 1] : Bytes))
     B.length < length.toNat) ∧
    (let (length, B) := ((5 : BitVec 32), ([0xDE, 0xAD, 0xBE, 0xEF, 0x05] : Bytes))
     length.toNat ≤ B.length ∧ length.toNat < 6) ∧
    (let (length, B) := ((8 : BitVec 32), ([0, 0, 0, 1, 0x85, 7, 0x10, 0x40] : Bytes))
     length.toNat ≤ B.length ∧ 6 ≤ length.toNat ∧ length.toNat < 9 ∧
       (B.getD 4 0).getLsbD 7 = true) := by decide

theorem witness_ShLengthIsSixOrNine :
    (⟨⟨0, 0, 0, 0⟩, 0, 0, none⟩ : SecondaryHeader).secondaryHeaderType = 0 ∧
    (⟨⟨0, 0, 0, 0⟩, 0, 0, some ⟨0, 0, 0⟩⟩ : SecondaryHeader).secondaryHeaderType = 1 := by decide

theorem witness_SecondaryHeaderRoundTrip :
    shDecode 6 [0xDE, 0xAD, 0xBE, 0xEF, 0x05, 0x2A] =
      .ok ⟨⟨0xDE, 0xAD, 0xBE, 0xEF⟩, 5, 0x2A, none⟩ := by decide +kernel

/-- The smallest and the largest data field: 1 and 65536 bytes. -/
theorem witness_SpEncodeRecomputesTheLength :
    (let x := bare [0x01]
     1 = (match x.secondary with | none => 0 | some h => if h.channel.isSome then 9 else 6) +
       x.payload.length ∧ (x.secondary.isSome = true ↔ x.primary.secondaryHeaderFlag = 1) ∧
     x.primary.versionNumber = 0 ∧ 1 ≤ 1 ∧ 1 ≤ 65536) ∧
    ∀ B : Bytes, B.length = 65527 →
      (let x := packet 0x10 1 0 B
       65536 = (match x.secondary with | none => 0 | some h => if h.channel.isSome then 9 else 6) +
         x.payload.length ∧ (x.secondary.isSome = true ↔ x.primary.secondaryHeaderFlag = 1) ∧
       x.primary.versionNumber = 0) := by
  refine ⟨by decide, fun B h => ?_⟩
  simp [packet, h]

theorem witness_SpEncodeRefusesInOrder :
    (let x : SpacePacket := { pF with secondary := none }
     ¬(x.secondary.isSome = true ↔ x.primary.secondaryHeaderFlag = 1)) ∧
    (let x : SpacePacket := { bare [1] with primary := ⟨2, 0, 0, 0x123, 3, 0, 0⟩ }
     (x.secondary.isSome = true ↔ x.primary.secondaryHeaderFlag = 1) ∧
       x.primary.versionNumber ≠ 0) ∧
    (let x := bare []
     (x.secondary.isSome = true ↔ x.primary.secondaryHeaderFlag = 1) ∧
       x.primary.versionNumber = 0 ∧ x.secondary = none ∧ x.payload = []) ∧
    ∀ B : Bytes, B.length = 65537 →
      (let x := bare B
       (x.secondary.isSome = true ↔ x.primary.secondaryHeaderFlag = 1) ∧
         x.primary.versionNumber = 0 ∧
         65536 < (match x.secondary with | none => 0 | some h => if h.channel.isSome then 9 else 6) +
           x.payload.length) := by
  refine ⟨by decide, by decide, by decide, fun B h => ?_⟩
  simp [bare, h]

theorem witness_SpDecodeAnswersTheParts :
    ([] : Bytes).length < 2 ^ 32 ∧ (0x01 : Byte).getLsbD 3 = false ∧ (0x09 : Byte).getLsbD 3 = true ∧
    (0x05 : Byte).getLsbD 7 = false ∧ (0x85 : Byte).getLsbD 7 = true ∧
    ([0, 0, 0, 1, 0x05, 7] : Bytes) = 0 :: 0 :: 0 :: 1 :: 0x05 :: 7 :: [] ∧
    ([0, 0, 0, 1, 0x85, 7, 0x10, 0x40, 5] : Bytes) =
      0 :: 0 :: 0 :: 1 :: 0x85 :: 7 :: 0x10 :: 0x40 :: 5 :: [] := by decide

theorem witness_SpDecodeFailsShort :
    ([0x01, 0x23, 0xC0, 0x00, 0x00] : Bytes).length < 6 ∧ (0x09 : Byte).getLsbD 3 = true ∧
    ([0, 0, 0, 1, 0xFF] : Bytes).length < 6 ∧
    (let rest : Bytes := [0, 0, 0, 1, 0x85, 7, 0x10, 0x40]
     rest.length < 9 ∧ (rest.getD 4 0).getLsbD 7 = true) := by decide

theorem witness_SpDecodeIgnoresTheDeclaredLength :
    spDecode [0x01, 0x23, 0xC0, 0x00, 0x00, 0x05, 0xAA] =
      .ok { bare [0xAA] with primary := ⟨0, 0, 0, 0x123, 3, 0, 5⟩ } ∧
    spDecode [0x09, 0x23, 0xC0, 0x00, 0x00, 0x0A, 0xAA] = .error (raised .headerTooShort) := by
  decide +kernel

theorem witness_SpacePacketRoundTrip :
    spEncode (bare [0x01]) = .ok ([0x01, 0x23, 0xC0, 0x00, 0x00, 0x00, 0x01], bare [0x01]) ∧
    spDecode [0x01, 0x23, 0xC0, 0x00, 0x00, 0x00, 0x01] = .ok (bare [0x01]) := by decide +kernel

theorem witness_SpHasSecondaryAnswersPresence :
    ((bare [1]).secondary.isSome = true ↔ (bare [1]).primary.secondaryHeaderFlag = 1) ∧
    (pF.secondary.isSome = true ↔ pF.primary.secondaryHeaderFlag = 1) ∧
    (let x : SpacePacket := { pF with secondary := none }
     ¬(x.secondary.isSome = true ↔ x.primary.secondaryHeaderFlag = 1)) := by decide

/-- Every packet of the helper has the channel it names. -/
theorem packet_hasChannel (k : ChannelId) (flag : BitVec 2) (c : SegmentCount) (B : Bytes) :
    HasChannel (packet k flag c B) ⟨k, flag, c⟩ := ⟨rfl, _, rfl, rfl⟩

theorem witness_SaPushAcceptsLegalSegments :
    (∀ state ∈ [AccState.empty, AccState.error], ∀ flag ∈ [(0b11 : BitVec 2), 0b01],
      let a := accumulator state [] none true
      let x := packet 0x10 flag 16383 []
      (withSa a).st.sa = some a ∧ HasChannel x ⟨0x10, flag, 16383⟩ ∧ CountAdmitted a 16383 ∧
        (a.state = .empty ∨ a.state = .error)) ∧
    (∀ flag ∈ [(0b00 : BitVec 2), 0b10],
      let a := opened true
      let x := packet 0x10 flag 6 []
      (withSa a).st.sa = some a ∧ HasChannel x ⟨0x10, flag, 6⟩ ∧ CountAdmitted a 6 ∧
        a.state = .assembling) := by
  refine ⟨fun state hs flag _ => ⟨rfl, packet_hasChannel _ _ _ _, ?_, ?_⟩,
    fun flag _ => ⟨rfl, packet_hasChannel _ _ _ _, fun _ _ => rfl, rfl⟩⟩
  · rintro - h
    simp only [List.mem_cons, List.not_mem_nil, or_false] at hs
    rcases hs with rfl | rfl <;> cases h
  · simp only [List.mem_cons, List.not_mem_nil, or_false] at hs
    exact hs

theorem witness_SaPushTakesCompleteAsEmpty :
    let a := accumulator .complete [packet 0x11 0b11 0 [0xDD, 0xEE]] (some 1) true
    (withSa a).st.sa = some a ∧ a.state = .complete ∧
      HasChannel (packet 0x10 0b10 99 [1]) ⟨0x10, 0b10, 99⟩ :=
  ⟨rfl, rfl, packet_hasChannel _ _ _ _⟩

theorem witness_SaPushRejectsIllegalSegments :
    (∀ flag : BitVec 2,
      let a := accumulator .empty [] none true
      (withSa a).st.sa = some a ∧ HasChannel (packet 0x10 flag 6 []) ⟨0x10, flag, 6⟩ ∧
        CountAdmitted a 6 ∧ a.state ≠ .assembling) ∧
    (∀ flag : BitVec 2,
      let a := opened true
      (withSa a).st.sa = some a ∧ HasChannel (packet 0x10 flag 6 []) ⟨0x10, flag, 6⟩ ∧
        CountAdmitted a 6 ∧ a.state = .assembling) :=
  ⟨fun _ => ⟨rfl, packet_hasChannel _ _ _ _, (fun _ h => nomatch h), (nofun)⟩,
   fun _ => ⟨rfl, packet_hasChannel _ _ _ _, fun _ _ => rfl, rfl⟩⟩

theorem witness_SaPushDetectsDiscontinuity :
    let a := opened true
    let ch : AduChannel := ⟨0x10, 0b00, 5⟩
    (withSa a).st.sa = some a ∧ HasChannel (packet 0x10 0b00 5 [0xBB]) ch ∧
      a.watchSegmentCounter = true ∧ a.state = .assembling ∧ a.expectedSegmentCount = some 6 ∧
      ch.aduSegmentCount ≠ 6 ∧ roleCode .continuation = ch.aduSegmentFlag :=
  ⟨rfl, packet_hasChannel _ _ _ _, rfl, rfl, rfl, by decide, rfl⟩

/-- A packet whose secondary header has no channel. -/
def channelless : SpacePacket :=
  ⟨⟨0, 0, 1, 0x123, 3, 0, 0⟩, some ⟨⟨0, 0, 0, 1⟩, 5, 7, none⟩, [1]⟩

theorem witness_SaRefusesInOrder :
    ({ pF with secondary := none } : SpacePacket).wellFormed = false ∧
    standard.st.sa = none ∧ pF.wellFormed = true ∧
    (withSa (opened false)).st.sa = some (opened false) ∧ (bare [1]).wellFormed = true ∧
    (bare [1]).secondary = none ∧ channelless.wellFormed = true ∧
    (∃ h, channelless.secondary = some h ∧ h.channel = none) :=
  ⟨by decide, rfl, by decide, rfl, by decide, rfl, by decide, _, rfl, rfl⟩

theorem witness_SaFinalizeAnswersTheAdu :
    let a := accumulator .complete [pF, packet 0x10 0b10 6 [0xCC]] (some 7) false
    (withSa a).st.sa = some a ∧ a.state = .complete ∧
      a.pendingFragments = pF :: [packet 0x10 0b10 6 [0xCC]] ∧
      pF.secondary = some ⟨⟨0, 0, 0, 1⟩, 5, 7, some ⟨0x10, 0b01, 5⟩⟩ := ⟨rfl, rfl, rfl, rfl⟩

theorem witness_SaFinalizeBeforeCompletionFails :
    ∀ state ∈ [AccState.empty, AccState.assembling, AccState.error],
      let a := accumulator state [] none false
      (withSa a).st.sa = some a ∧ a.state ≠ .complete := by decide

theorem witness_OneAduIsFormedByLegalSequencesOnly :
    let a := accumulator .error [] none true
    let xs := [packet 0x10 0b01 16383 [1], packet 0x10 0b10 0 [2]]
    let chs : List AduChannel := [⟨0x10, 0b01, 16383⟩, ⟨0x10, 0b10, 0⟩]
    (withSa a).st.sa = some a ∧ a.state = .error ∧ (∀ x ∈ xs, x.wellFormed = true) ∧
      xs.map aduChannel = chs.map some ∧ LegalRoles (chs.map role) ∧
      Consecutive (chs.map AduChannel.aduSegmentCount) ∧ FormsOneAdu (withSa a) xs := by
  refine ⟨rfl, rfl, by decide, by decide, .inr ⟨0, by decide⟩, ⟨by decide, trivial⟩, ?_⟩
  refine ⟨⟨_, rfl, by decide +kernel⟩, fun n h0 h1 t ht => ?_⟩
  have hn : n = 1 := by simp only [List.length_cons, List.length_nil] at h1; omega
  subst hn
  have e : (pushAllOk (withSa (accumulator .error [] none true))
      [packet 0x10 0b01 16383 [1]]).map saState = some (some .assembling) := by decide +kernel
  have ht' : pushAllOk (withSa (accumulator .error [] none true))
      [packet 0x10 0b01 16383 [1]] = some t := ht
  rw [ht', Option.map_some, Option.some.injEq] at e
  rw [e]
  decide

/-- `U` of the vectors, as bytes and as a packet. -/
def bytesU : Bytes := [0x09, 0x23, 0xC0, 0x00, 0x00, 0x0A, 0x00, 0x00, 0x00, 0x01, 0x85, 0x07, 0x11,
  0xC0, 0x00, 0xDD, 0xEE]
def pU : SpacePacket := ⟨⟨0, 0, 1, 0x123, 3, 0, 10⟩,
  some ⟨⟨0, 0, 0, 1⟩, 5, 7, some ⟨0x11, 3, 0⟩⟩, [0xDD, 0xEE]⟩

theorem witness_RsPushBytesPushesTheDecodedPacket : spDecode bytesU = .ok pU := by decide +kernel

theorem witness_RsPushBytesWrapsCodecErrors :
    ([0x09, 0x23, 0x40, 0x00, 0x00] : Bytes).length < 6 ∧ (0x09 : Byte).getLsbD 3 = true ∧
    (let rest : Bytes := [0, 0, 0, 1, 0x85, 7, 0x10, 0x40]
     rest.length < 9 ∧ (rest.getD 4 0).getLsbD 7 = true) := by decide

theorem witness_RsRejectsAnotherApplication :
    let x := { pU with primary := { pU.primary with applicationId := 0x124 } }
    HasChannel x ⟨0x11, 3, 0⟩ ∧
      x.primary.applicationId.extractLsb' 0 8 ≠ standard.st.cfg.appIdLow ∧
      spDecode (0x09 :: 0x24 :: bytesU.drop 2) = .ok x :=
  ⟨⟨rfl, _, rfl, rfl⟩, by decide, by decide +kernel⟩

theorem witness_RsRefusesPacketsWithoutChannel :
    ({ pF with secondary := none } : SpacePacket).wellFormed = false ∧
    (bare [1]).wellFormed = true ∧ (bare [1]).secondary = none ∧ channelless.wellFormed = true ∧
    (∃ h, channelless.secondary = some h ∧ h.channel = none) ∧
    spDecode [0x01, 0x23, 0xC0, 0x00, 0x00, 0x00, 0x01] = .ok (bare [1]) :=
  ⟨by decide, by decide, rfl, by decide, ⟨_, rfl, rfl⟩, by decide +kernel⟩

theorem witness_RsPushOpensOrExtendsAnAdu :
    (let a := accumulator .empty [] none false
     HasChannel pF ⟨0x10, 0b01, 5⟩ ∧
       pF.primary.applicationId.extractLsb' 0 8 = standard.st.cfg.appIdLow ∧
       SlotOrNew standard.st 0x10 a ∧ CountAdmitted a 5 ∧ a.state ≠ .assembling) ∧
    (let a := opened true
     let x := packet 0x10 0b00 6 [0xBB]
     let s := withSlot a
     HasChannel x ⟨0x10, 0b00, 6⟩ ∧
       x.primary.applicationId.extractLsb' 0 8 = s.st.cfg.appIdLow ∧
       SlotOrNew s.st 0x10 a ∧ CountAdmitted a 6 ∧ a.state = .assembling) :=
  ⟨⟨packet_hasChannel _ _ _ _, by decide, .inr ⟨rfl, rfl⟩, (fun _ h => nomatch h), (nofun)⟩,
   ⟨packet_hasChannel _ _ _ _, by decide, .inl rfl, fun _ _ => rfl, rfl⟩⟩

theorem witness_RsPushCompletesAndQueuesAnAdu :
    (let a : Accumulator := ⟨0x11, .empty, [], none, false⟩
     HasChannel pU ⟨0x11, 0b11, 0⟩ ∧
       pU.primary.applicationId.extractLsb' 0 8 = standard.st.cfg.appIdLow ∧
       SlotOrNew standard.st 0x11 a ∧ CountAdmitted a 0 ∧ a.state ≠ .assembling ∧ [pU] = pU :: [] ∧
       ∃ h, pU.secondary = some h ∧ h.channel = some ⟨0x11, 0b11, 0⟩) ∧
    (let a := opened true
     let x := packet 0x10 0b10 6 [0xCC]
     let s := withSlot a
     HasChannel x ⟨0x10, 0b10, 6⟩ ∧
       x.primary.applicationId.extractLsb' 0 8 = s.st.cfg.appIdLow ∧ SlotOrNew s.st 0x10 a ∧
       CountAdmitted a 6 ∧ a.state = .assembling ∧ pF :: [x] = a.pendingFragments ++ [x] ∧
       ∃ h, pF.secondary = some h ∧ h.channel = some ⟨0x10, 0b01, 5⟩) :=
  ⟨⟨⟨rfl, _, rfl, rfl⟩, by decide, .inr ⟨rfl, rfl⟩, (fun _ h => nomatch h), (nofun), rfl, _, rfl,
     rfl⟩,
   ⟨packet_hasChannel _ _ _ _, by decide, .inl rfl, fun _ _ => rfl, rfl, rfl, _, rfl, rfl⟩⟩

theorem witness_RsPushWrapsAndLogsSegmentErrors :
    (let a := opened true
     let s := withSlot a
     HasChannel (packet 0x10 0b10 9 [0xCC]) ⟨0x10, 0b10, 9⟩ ∧
       (0x123 : BitVec 11).extractLsb' 0 8 = s.st.cfg.appIdLow ∧ SlotOrNew s.st 0x10 a ∧
       roleCode .last = 0b10 ∧ a.watchSegmentCounter = true ∧ a.state = .assembling ∧
       a.expectedSegmentCount = some 6 ∧ (9 : SegmentCount) ≠ 6) ∧
    (let a := accumulator .empty [] none false
     HasChannel (packet 0x10 0b00 6 [0xBB]) ⟨0x10, 0b00, 6⟩ ∧ SlotOrNew standard.st 0x10 a ∧
       roleCode .continuation = 0b00 ∧ CountAdmitted a 6 ∧ a.state ≠ .assembling) ∧
    (let a := opened true
     SlotOrNew (withSlot a).st 0x10 a ∧ CountAdmitted a 6 ∧ a.state = .assembling ∧
       roleCode .first = 0b01 ∧ roleCode .unsegmented = 0b11) :=
  ⟨⟨packet_hasChannel _ _ _ _, by decide, .inl rfl, rfl, rfl, rfl, rfl, by decide⟩,
   ⟨packet_hasChannel _ _ _ _, .inr ⟨rfl, rfl⟩, rfl, (fun _ h => nomatch h), (nofun)⟩,
   ⟨.inl rfl, fun _ _ => rfl, rfl, rfl, rfl⟩⟩

/-- An ADU. -/
def adu0 : Adu := ⟨0x11, 5, 0, 1, 0x23, 7, ⟨0, 0, 0, 1⟩, [0xDD, 0xEE]⟩
/-- `standard` with one queued ADU. -/
def queued : State := { standard with st := { standard.st with completedQueue := [adu0] } }

theorem witness_RsPopCompletedTakesTheOldest :
    queued.st.completedQueue = adu0 :: [] ∧ standard.st.completedQueue = [] := ⟨rfl, rfl⟩

/-- An ADU taken, an ADU appended, and a command that leaves the queue. -/
theorem witness_TheQueueIsFirstInFirstOut :
    (∃ t, exec .rsPopCompleted queued = .next t ∧ t.st.completedQueue = []) ∧
    (∃ t, exec (.rsPushPacket pU) standard = .next t ∧ t.st.completedQueue = [adu0]) ∧
    ∃ t, exec .saFinalize queued = .next t ∧ t.st.completedQueue = [adu0] :=
  ⟨⟨_, rfl, by decide +kernel⟩, ⟨_, rfl, by decide +kernel⟩, ⟨_, rfl, by decide +kernel⟩⟩

/-- A push to channel 0x11 beside an open channel 0x10. -/
theorem witness_ChannelsAreIndependent :
    ∃ t, exec (.rsPushPacket pU) (withSlot (opened true)) = .next t ∧
      (aduChannel pU).map AduChannel.aduChannelId ≠ some 0x10 ∧
      lookupChannel t.st.channels 0x11 ≠ none :=
  ⟨_, rfl, by decide +kernel, by decide +kernel⟩

theorem witness_NoChannelIsEverLost :
    ∃ t, step (issueNext (withSlot (opened true)) [0x52]) = .next t ∧
      lookupChannel (issueNext (withSlot (opened true)) [0x52]).st.channels 0x10 =
        some (opened true) := ⟨_, rfl, rfl⟩

theorem witness_OnlyResetUndoesWhatStays :
    (∃ t, step (issued [0x03]) = .next t ∧ t.st.refused = true) ∧
    ∃ t, step (issueNext (withSlot (opened true)) [0x52]) = .next t ∧
      lookupChannel t.st.channels 0x10 = some (opened true) :=
  ⟨⟨_, rfl, rfl⟩, ⟨_, rfl, rfl⟩⟩

theorem witness_OnlySixCommandsWriteState :
    (∃ t, exec (.phEncode ⟨1, 0, 0, 0, 0, 0, 0⟩) standard = .next t ∧ t.st.refused = true) ∧
    isCodec (.phEncode ⟨1, 0, 0, 0, 0, 0, 0⟩) = true ∧
    ∃ t, exec .rsHasCompleted standard = .next t :=
  ⟨⟨_, rfl, rfl⟩, rfl, ⟨_, rfl⟩⟩

theorem witness_CodecResponsesDependOnOperandsAlone :
    isCodec (.spDecode bytesU) = true ∧ isCodec (.shLength ⟨⟨0, 0, 0, 0⟩, 0, 0, none⟩) = true :=
  ⟨rfl, rfl⟩

/-- One command for each clause: status 10, 255, 6, 7 and 8. -/
theorem witness_WritesKeptAfterAnError :
    (∃ t f, exec .rsPopCompleted standard = .next t ∧ t.responsePort = standard.responsePort ++ [f] ∧
      f.head? = some 10) ∧
    (∃ t f, exec .saFinalize standard = .next t ∧ t.responsePort = standard.responsePort ++ [f] ∧
      f.head? = some 255) ∧
    (∃ t f, exec (.saPush pF) (withSa (opened false)) = .next t ∧
      t.responsePort = (withSa (opened false)).responsePort ++ [f] ∧ f.head? = some 6) ∧
    (∃ t f, exec (.saPush pF) (withSa (opened true)) = .next t ∧
      t.responsePort = (withSa (opened true)).responsePort ++ [f] ∧ f.head? = some 7) ∧
    ∃ t f, exec (.rsPushPacket pF) (withSlot (opened false)) = .next t ∧
      t.responsePort = (withSlot (opened false)).responsePort ++ [f] ∧ f.head? = some 8 :=
  ⟨⟨_, _, rfl, rfl, by decide +kernel⟩, ⟨_, _, rfl, rfl, by decide +kernel⟩,
   ⟨_, _, rfl, rfl, by decide +kernel⟩, ⟨_, _, rfl, rfl, by decide +kernel⟩,
   ⟨_, _, rfl, rfl, by decide +kernel⟩⟩

/-- A state with an open channel and a queued ADU meets the invariant, and a step runs in it. -/
theorem witness_EveryStepKeepsTheInvariant :
    let s := issueNext { standard with st := { standard.st with
      channels := [(0x10, opened false)], completedQueue := [adu0], sa := some (opened true) } } [0x53]
    s.st.Inv ∧ ∃ t, step s = .next t ∧ t.st.completedQueue = [] := by
  have only : ∀ w, ∀ x ∈ (opened w).pendingFragments, x = pF := fun w x h => List.mem_singleton.1 h
  have hacc : ∀ w, (opened w).Inv := fun w =>
    { noFragments := fun h => h.elim (nofun) (nofun)
      openFragments := fun _ => ⟨pF, [], rfl, by decide, by simp⟩
      closedFragments := (nofun)
      expected := by cases w <;> decide
      wellFormed := fun x h => by rw [only w x h]; decide }
  refine ⟨⟨List.Pairwise.nil, List.pairwise_singleton _ _, ?_, ?_, ?_⟩, _, rfl, by decide +kernel⟩
  · intro p hp
    rw [show p = (0x10, opened false) from List.mem_singleton.1 hp]
    refine ⟨hacc false, rfl, by decide, by decide, fun x h => ?_, fun x h => ?_⟩ <;>
      · rw [only false x h]; decide
  · intro a ha
    rw [← show opened true = a from Option.some.inj ha]
    exact hacc true
  · intro a ha
    rw [show a = adu0 from List.mem_singleton.1 ha]
    decide

theorem witness_ResetLeavesTheEmptyBlock :
    ([0x10, 0x20] : List ChannelId).Pairwise (fun j k => j.toNat < k.toNat) := by decide

end Sys2Proof.Tests
end

/-! ### Proofs: the scope statements (00_scope.md)

The reasons the decoder refuses with, what a codec command answers, and the statements about a step,
a command's writes and reset that follow from them. -/

namespace Sys2Proof.Machine

/-! #### The reasons of the decoder (30_encoding.md R124 to R126) -/

/-- The four reasons for which a frame is no command: opcode, length, field width, presence
(60_exceptions.md R325). -/
def DecodingReason (r : RefusalReason) : Prop :=
  r = .unassignedOpcode ∨ r = .badFrameLength ∨ r = .operandTooWide ∨ r = .presenceMismatch

/-- Whatever refusal this holds is for one of the decoder's reasons. -/
def RefusesInDecoding {α : Type} (x : Except RefusalReason α) : Prop :=
  ∀ r, x = .error r → DecodingReason r

theorem RefusesInDecoding.ok {α : Type} (a : α) :
    RefusesInDecoding (.ok a : Except RefusalReason α) := nofun

theorem RefusesInDecoding.error {α : Type} {r : RefusalReason} (h : DecodingReason r) :
    RefusesInDecoding (.error r : Except RefusalReason α) := by
  rintro _ ⟨⟩; exact h

theorem RefusesInDecoding.bind {α β : Type} {x : Except RefusalReason α}
    {f : α → Except RefusalReason β} (hx : RefusesInDecoding x)
    (hf : ∀ a, RefusesInDecoding (f a)) : RefusesInDecoding (x >>= f) := by
  rcases x with r | a
  · exact .error (hx r rfl)
  · exact hf a

theorem RefusesInDecoding.map {α β : Type} {x : Except RefusalReason α} (f : α → β)
    (hx : RefusesInDecoding x) : RefusesInDecoding (x.map f) := by
  rcases x with r | a
  · exact .error (hx r rfl)
  · exact .ok (f a)

theorem narrow_refusesInDecoding (n : Nat) {m : Nat} (v : BitVec m) :
    RefusesInDecoding (narrow n v) := by
  rcases narrow_cases n v with h | h <;> rw [h]
  · exact .ok _
  · exact .error (.inr (.inr (.inl rfl)))

theorem boolOfByte_refusesInDecoding (b : Byte) : RefusesInDecoding (boolOfByte b) := by
  unfold boolOfByte
  split
  · exact .ok _
  · split
    · exact .ok _
    · exact .error (.inr (.inr (.inl rfl)))

theorem phOfScalars_refusesInDecoding {v t f : Byte} {a : BitVec 16} {sf : Byte}
    {sc pdl : BitVec 16} : RefusesInDecoding (phOfScalars v t f a sf sc pdl) :=
  (narrow_refusesInDecoding 3 v).bind fun _ => (narrow_refusesInDecoding 1 t).bind fun _ =>
  (narrow_refusesInDecoding 1 f).bind fun _ => (narrow_refusesInDecoding 11 a).bind fun _ =>
  (narrow_refusesInDecoding 2 sf).bind fun _ => (narrow_refusesInDecoding 14 sc).bind fun _ =>
  .ok _

theorem channelOfScalars_refusesInDecoding {ch f : Byte} {n : BitVec 16} :
    RefusesInDecoding (channelOfScalars ch f n) :=
  (narrow_refusesInDecoding 2 f).bind fun _ => (narrow_refusesInDecoding 14 n).bind fun _ => .ok _

theorem shOfScalars_refusesInDecoding {time : TimeField} {t c n : Byte}
    {ch : Option (Except RefusalReason AduChannel)} (hch : ∀ x ∈ ch, RefusesInDecoding x) :
    RefusesInDecoding (shOfScalars time t c n ch) := by
  refine (narrow_refusesInDecoding 1 t).bind fun _ =>
    (narrow_refusesInDecoding 7 c).bind fun _ => ?_
  rcases ch with _ | x
  · exact .ok _
  · exact (hch x rfl).bind fun _ => .ok _

theorem spOfBlocks_refusesInDecoding {ph : Except RefusalReason PrimaryHeader} {present : Byte}
    {sh : Option (Except RefusalReason SecondaryHeader)} {payload : Bytes}
    (hph : RefusesInDecoding ph) (hsh : ∀ x ∈ sh, RefusesInDecoding x) :
    RefusesInDecoding (spOfBlocks ph present sh payload) := by
  have presence : ∀ x : SpacePacket,
      RefusesInDecoding (if presenceAgrees x then .ok x else .error .presenceMismatch) := by
    intro x
    split
    · exact .ok _
    · exact .error (.inr (.inr (.inr rfl)))
  refine hph.bind fun _ => (boolOfByte_refusesInDecoding present).bind fun _ => ?_
  rcases sh with _ | y
  · exact (RefusesInDecoding.ok none).bind fun _ => presence _
  · exact ((hsh y rfl).map some).bind fun _ => presence _

/-- The value that a read answers, if it answers, holds no refusal but the decoder's. -/
def ReadRefusesInDecoding {α : Type} (o : Option (Taken α)) : Prop :=
  ∀ x rest, o = some (x, rest) → RefusesInDecoding x

theorem ReadRefusesInDecoding.some {α : Type} {x : Except RefusalReason α} (rest : Bytes)
    (h : RefusesInDecoding x) : ReadRefusesInDecoding (some (x, rest)) := by
  rintro _ _ ⟨⟩; exact h

/-- The refusals of a read are those of its last part, whatever was read before it. -/
theorem ReadRefusesInDecoding.bind {α β : Type} {o : Option β} {k : β → Option (Taken α)}
    (h : ∀ p, o = .some p → ReadRefusesInDecoding (k p)) : ReadRefusesInDecoding (o >>= k) := by
  rcases o with _ | p
  · nofun
  · exact h p rfl

theorem takePh_refusesInDecoding (B : Bytes) : ReadRefusesInDecoding (takePh B) :=
  .bind fun _ _ => .bind fun _ _ => .bind fun _ _ => .bind fun _ _ => .bind fun _ _ =>
  .bind fun _ _ => .bind fun _ _ => .some _ phOfScalars_refusesInDecoding

theorem takeChannel_refusesInDecoding (B : Bytes) : ReadRefusesInDecoding (takeChannel B) :=
  .bind fun _ _ => .bind fun _ _ => .bind fun _ _ =>
  .some _ channelOfScalars_refusesInDecoding

theorem takeSh_refusesInDecoding (B : Bytes) : ReadRefusesInDecoding (takeSh B) := by
  refine .bind fun _ _ => .bind fun ⟨t, _⟩ _ => .bind fun _ _ => .bind fun _ _ => ?_
  by_cases ht : t = 1 <;> simp only [ht, if_true, if_false]
  · refine .bind fun ⟨x, rest⟩ hch => .some _ (shOfScalars_refusesInDecoding ?_)
    rintro _ ⟨⟩
    exact takeChannel_refusesInDecoding _ x rest hch
  · exact .some _ (shOfScalars_refusesInDecoding nofun)

theorem takeSp_refusesInDecoding (B : Bytes) : ReadRefusesInDecoding (takeSp B) := by
  refine .bind fun ⟨ph, C⟩ hph => .bind fun ⟨present, _⟩ _ => ?_
  have hph : RefusesInDecoding ph := takePh_refusesInDecoding B ph C hph
  by_cases hp : present = 1 <;> simp only [hp, if_true, if_false]
  · refine .bind fun ⟨x, rest⟩ hsh => .bind fun _ _ =>
      .some _ (spOfBlocks_refusesInDecoding hph ?_)
    rintro _ ⟨⟩
    exact takeSh_refusesInDecoding _ x rest hsh
  · exact .bind fun _ _ => .some _ (spOfBlocks_refusesInDecoding hph nofun)

theorem asInstr_refusesInDecoding {α : Type} (f : α → Instr) {o : Option (Taken α)}
    (h : ReadRefusesInDecoding o) : ReadRefusesInDecoding (asInstr f o) := by
  rcases o with _ | ⟨x, rest⟩
  · nofun
  · exact .some rest ((h x rest rfl).map f)

theorem takeSeqInstr_refusesInDecoding (f : Bytes → Instr) (B : Bytes) :
    ReadRefusesInDecoding (takeSeqInstr f B) := by
  unfold takeSeqInstr
  split
  · nofun
  · exact .some _ (.ok _)

theorem takeBfDecode_refusesInDecoding (B : Bytes) : ReadRefusesInDecoding (takeBfDecode B) :=
  .bind fun _ _ => .bind fun _ _ => .bind fun _ _ => .some _ (.ok _)

theorem takeBfEncode_refusesInDecoding (B : Bytes) : ReadRefusesInDecoding (takeBfEncode B) :=
  .bind fun _ _ => .bind fun _ _ => .bind fun _ _ => .bind fun _ _ => .some _ (.ok _)

theorem takeShDecode_refusesInDecoding (B : Bytes) : ReadRefusesInDecoding (takeShDecode B) :=
  .bind fun _ _ => .bind fun _ _ => .some _ (.ok _)

theorem takeSaInit_refusesInDecoding (B : Bytes) : ReadRefusesInDecoding (takeSaInit B) :=
  .bind fun _ _ => .bind fun _ _ => .some _ ((boolOfByte_refusesInDecoding _).map _)

/-- Every reader of the opcode map (R122) refuses an operand for the decoder's reasons only: one
case per row of the map, grouped by the operand block it reads. -/
theorem operandReader_refusesInDecoding {op : Byte} {reader : Bytes → Option (Taken Instr)}
    (h : operandReader op = some reader) (B : Bytes) : ReadRefusesInDecoding (reader B) := by
  unfold operandReader at h
  split at h <;> cases h
  case h_1 => exact takeBfDecode_refusesInDecoding B
  case h_2 => exact takeBfEncode_refusesInDecoding B
  case h_11 => exact takeShDecode_refusesInDecoding B
  case h_16 => exact takeSaInit_refusesInDecoding B
  case h_4 | h_14 | h_19 => exact takeSeqInstr_refusesInDecoding _ B
  case h_3 | h_5 | h_6 | h_7 | h_8 | h_9 =>
    exact asInstr_refusesInDecoding _ (takePh_refusesInDecoding B)
  case h_10 | h_12 => exact asInstr_refusesInDecoding _ (takeSh_refusesInDecoding B)
  case h_13 | h_15 | h_17 | h_20 => exact asInstr_refusesInDecoding _ (takeSp_refusesInDecoding B)
  case h_18 | h_21 | h_22 => exact .some B (.ok _)

theorem wholeFrame_refusesInDecoding {o : Option (Taken Instr)} (h : ReadRefusesInDecoding o) :
    RefusesInDecoding (wholeFrame o) := by
  rcases o with _ | ⟨x, _ | ⟨b, rest⟩⟩
  · exact .error (.inr (.inl rfl))
  · exact h x [] rfl
  · exact .error (.inr (.inl rfl))

theorem emptyFrameReason_decodingReason : DecodingReason emptyFrameReason := by
  unfold emptyFrameReason
  split
  · exact .inr (.inl rfl)
  · exact .inl rfl

/-- A frame is refused by the decoder for one of its four reasons (R126, R325). -/
theorem decode_refusesInDecoding (f : Bytes) : RefusesInDecoding (decode f) := by
  rcases f with _ | ⟨op, B⟩
  · exact .error emptyFrameReason_decodingReason
  · rcases h : operandReader op with _ | reader
    · rw [decode_cons_none h]
      exact .error (.inl rfl)
    · rw [decode_cons_some h]
      exact wholeFrame_refusesInDecoding (operandReader_refusesInDecoding h B)

/-- The codes of the decoder's reasons (R134). -/
theorem DecodingReason.code {r : RefusalReason} (h : DecodingReason r) :
    (r = .unassignedOpcode ∧ reasonCode r = 1) ∨ (r = .badFrameLength ∧ reasonCode r = 2) ∨
    (r = .operandTooWide ∧ reasonCode r = 3) ∨ (r = .presenceMismatch ∧ reasonCode r = 5) := by
  rcases h with rfl | rfl | rfl | rfl <;> decide

/-! #### A step, by the frame it takes (00_scope.md R5) -/

theorem step_of_decode_ok {s : State} {f : Bytes} {rest : List Bytes} {i : Instr}
    (hs : s.commandPort = f :: rest) (hd : decode f = .ok i) :
    step s = exec i { s with commandPort := rest } := by
  simp only [step, runNext, takeFrame, hs, runFrame, hd]

theorem step_of_decode_error {s : State} {f : Bytes} {rest : List Bytes} {r : RefusalReason}
    (hs : s.commandPort = f :: rest) (hd : decode f = .error r) :
    step s = .next (reply { s with commandPort := rest } (.error (.refuse r))) := by
  simp only [step, runNext, takeFrame, hs, runFrame, hd]

theorem step_of_no_frame {s : State} (hs : s.commandPort = []) : step s = .next s := by
  simp only [step, runNext, takeFrame, hs]

/-- Every response frame has its status, inner and message bytes (R123). -/
theorem three_le_responseFrame_length (r : Reply) : 3 ≤ (responseFrame r).length := by
  rcases r with (_ | _) | B
  · exact Nat.le_refl 3
  · exact Nat.le_refl 3
  · simp [responseFrame]

/-! #### Codec commands (00_scope.md R7) -/

/-- A codec command leaves the block as it is and ends with a reply that its operands alone give. -/
theorem commandOutcome_codec {i : Instr} (h : isCodec i = true) :
    ∃ r, ∀ b, commandOutcome i b = (b, r) := by
  cases i
  case saInit | saPush | saFinalize | rsPushBytes | rsPushPacket | rsHasCompleted |
    rsPopCompleted => cases h
  all_goals exact ⟨_, fun _ => rfl⟩

/-- Ending a command writes nothing, or the refusal mark (R22, R23). -/
theorem markRefusal_cases (b : Block) (r : Reply) :
    markRefusal b r = b ∨ markRefusal b r = { b with refused := true } := by
  rcases r with (_ | _) | _
  · exact .inl rfl
  · exact .inr rfl
  · exact .inl rfl

/-! #### Reset (70_reset_and_hazards.md R360) -/

/-- Reset meets the invariant when its watch list is in canonical form: it leaves no slot, no
accumulator and no queued ADU to speak of. -/
theorem resetWith_inv (app : Byte) {watch : List ChannelId}
    (h : watch.Pairwise fun j k => j.toNat < k.toNat) : (Block.resetWith app watch).Inv where
  watchRising := h
  channelsRising := .nil
  slots := nofun
  standalone := nofun
  queued := nofun

/-! #### The statements -/

/-- Settles O10: the reason is one of the decoder's four, and the step is the refusal with its
code. -/
theorem anUndecodableFrameIsRefused : Obligations.AnUndecodableFrameIsRefused := by
  intro s f rest r hs hd
  have hr : DecodingReason r := decode_refusesInDecoding f r hd
  exact ⟨reasonCode r, hr.code, step_of_decode_error hs hd⟩

/-- Settles O11: a refused frame and a command both end by `complete`, which appends one
response. -/
theorem everyFrameIsAnsweredOnce : Obligations.EveryFrameIsAnsweredOnce := by
  intro s f rest hs
  rcases hd : decode f with r | i
  · exact ⟨_, _, step_of_decode_error hs hd, rfl, rfl, three_le_responseFrame_length _⟩
  · exact ⟨_, _, (step_of_decode_ok hs hd).trans (exec_eq i _), rfl, rfl,
      three_le_responseFrame_length _⟩

/-- Settles O55: a codec command writes only by ending, and RS_HAS_COMPLETED ends with OK. -/
theorem onlySixCommandsWriteState : Obligations.OnlySixCommandsWriteState := by
  intro i s t ht
  rw [exec_next_iff] at ht
  subst ht
  constructor
  · intro hi
    obtain ⟨r, hr⟩ := commandOutcome_codec hi
    rw [hr]
    exact markRefusal_cases s.st r
  · rintro rfl
    rfl

/-- Settles O56: the reply of a codec command is the same in every block. -/
theorem codecResponsesDependOnOperandsAlone :
    Obligations.CodecResponsesDependOnOperandsAlone := by
  intro i hi
  obtain ⟨r, hr⟩ := commandOutcome_codec hi
  exact ⟨responseFrame r, fun s => ⟨_, answers_of_outcome (hr s.st), markRefusal_channels ..,
    markRefusal_completedQueue .., markRefusal_sa .., markRefusal_diagLog .., markRefusal_cfg ..⟩⟩

/-- Settles O9, by the two ways a step begins. -/
theorem aStepRunsTheDecodedCommand : Obligations.AStepRunsTheDecodedCommand :=
  ⟨fun _ _ _ _ => step_of_decode_ok, fun _ => step_of_no_frame⟩

/-- Settles O59: the block at reset is the literal one, and the invariant holds of it. -/
theorem resetLeavesTheEmptyBlock : Obligations.ResetLeavesTheEmptyBlock :=
  ⟨fun app _ => ⟨rfl, resetWith_inv app⟩, rfl, resetWith_inv _ .nil⟩

end Sys2Proof.Machine

/-! ### Proofs: the state (10_state.md)

What a step can write to the block, said once; what each write keeps; and the statements about the
state, the accumulators and the presence of a secondary header that follow. -/

namespace Sys2Proof.Machine

/-! #### What a step can write (20_memory.md R78) -/

/-- The blocks that a step can leave, but for the refusal mark: nothing written, or what one command
writes. A push to a channel leaves the channel's accumulator as the push did, or finalized with its
ADU queued (45_reassembler.md R299); which records that push logs is left open. -/
inductive BlockWrite (b : Block) : Block → Prop
  | nothing : BlockWrite b b
  | saInit (k : ChannelId) (w : Bool) : BlockWrite b { b with sa := some (newAccumulator k w) }
  | saPush {x : SpacePacket} {a : Accumulator} {p : PushResult} (hw : x.wellFormed = true)
      (ha : b.sa = some a) (hp : accPush a x = some p) :
      BlockWrite b { b with sa := some p.acc, diagLog := b.diagLog ++ p.log }
  | saFinalize (a : Accumulator) : BlockWrite b { b with sa := some (accEmptied a) }
  | rsPush {x : SpacePacket} {ch : AduChannel} {p : PushResult} (hw : x.wellFormed = true)
      (hc : aduChannel x = some ch) (happ : apidLow x.primary = b.cfg.appIdLow)
      (hp : accPush (channelOrNew b ch.aduChannelId) x = some p) (hf : accFinalize p.acc = none)
      (records : List LogRecord) :
      BlockWrite b
        { b with
          channels := setChannel b.channels ch.aduChannelId p.acc
          diagLog := b.diagLog ++ records }
  | rsComplete {x : SpacePacket} {ch : AduChannel} {p : PushResult} {adu : Adu}
      (hw : x.wellFormed = true) (hc : aduChannel x = some ch)
      (happ : apidLow x.primary = b.cfg.appIdLow)
      (hp : accPush (channelOrNew b ch.aduChannelId) x = some p)
      (hf : accFinalize p.acc = some (adu, accEmptied p.acc)) :
      BlockWrite b
        { b with
          channels := setChannel b.channels ch.aduChannelId (accEmptied p.acc)
          completedQueue := b.completedQueue ++ [adu]
          diagLog := b.diagLog ++ p.log }
  | rsPop {adu : Adu} {rest : List Adu} (hq : b.completedQueue = adu :: rest) :
      BlockWrite b { b with completedQueue := rest }

/-- A push that ends in an error leaves the accumulator in Error, emptied (R262, R263). -/
theorem accPush_acc_of_error {a : Accumulator} {x : SpacePacket} {p : PushResult}
    {e : ErrorKind × MessageId} (h : accPush a x = some p) (he : p.error = some e) :
    p.acc = accError a := by
  obtain ⟨ch, -, ⟨d, -, rfl⟩ | ⟨-, ⟨m, -, rfl⟩ | ⟨-, -, rfl⟩ | ⟨-, -, rfl⟩ | ⟨-, -, rfl⟩ |
    ⟨-, -, rfl⟩⟩⟩ := accPush_cases h
  · rfl
  · rfl
  all_goals cases he

/-- What steps 5 and 6 of a Reassembler push write (45_reassembler.md R290). -/
theorem rsAfterPush_blockWrite {b : Block} {x : SpacePacket} {ch : AduChannel} {p : PushResult}
    (hw : x.wellFormed = true) (hc : aduChannel x = some ch)
    (happ : apidLow x.primary = b.cfg.appIdLow)
    (hp : accPush (channelOrNew b ch.aduChannelId) x = some p) :
    BlockWrite b (rsAfterPush b ch.aduChannelId (role ch) p).1 := by
  rcases rsAfterPush_cases b ch.aduChannelId (role ch) p with
    ⟨kind, m, he, h⟩ | ⟨-, hf, h⟩ | ⟨-, adu, hf, h⟩ <;> rw [h]
  · have hf : accFinalize p.acc = none :=
      accFinalize_of_ne (by rw [accPush_acc_of_error hp he]; nofun)
    rw [List.append_assoc]
    exact .rsPush hw hc happ hp hf _
  · exact .rsPush hw hc happ hp hf _
  · exact .rsComplete hw hc happ hp hf

/-- Every command writes one of these. -/
theorem commandOutcome_blockWrite (i : Instr) (b : Block) :
    BlockWrite b (commandOutcome i b).1 := by
  rcases commandOutcome_cases i b with ⟨r, h, -⟩ | ⟨k, w, -, h⟩ | ⟨x, a, p, -, hw, ha, hp, h⟩ |
    ⟨a, adu, -, -, -, h⟩ | ⟨x, ch, p, -, hw, hc, happ, hp, h⟩ | ⟨adu, rest, -, hq, h⟩ <;> rw [h]
  · exact .nothing
  · exact .saInit k w
  · exact .saPush hw ha hp
  · exact .saFinalize a
  · exact rsAfterPush_blockWrite hw hc happ hp
  · exact .rsPop hq

/-- What a step leaves: one of these writes, and the mark if its command was refused. -/
theorem step_blockWrite {s t : State} (h : step s = .next t) :
    ∃ b, BlockWrite s.st b ∧ (t.st = b ∨ t.st = { b with refused := true }) := by
  rcases step_cases s with ⟨-, e⟩ | ⟨f, rest, r, -, -, e⟩ | ⟨f, rest, i, -, -, e⟩ <;> rw [e] at h
  · cases h
    exact ⟨_, .nothing, .inl rfl⟩
  · cases h
    exact ⟨_, .nothing, .inr rfl⟩
  · rw [exec_next_iff] at h
    subst h
    exact ⟨_, commandOutcome_blockWrite i s.st, markRefusal_cases _ _⟩

/-! #### What every write keeps (10_state.md R42 to R50) -/

theorem BlockWrite.cfg_eq {b c : Block} (h : BlockWrite b c) : c.cfg = b.cfg := by cases h <;> rfl

theorem BlockWrite.refused_eq {b c : Block} (h : BlockWrite b c) : c.refused = b.refused := by
  cases h <;> rfl

/-- No write drops a log record (R47). -/
theorem BlockWrite.diagLog_extends {b c : Block} (h : BlockWrite b c) :
    ∃ records, c.diagLog = b.diagLog ++ records := by
  cases h with
  | saPush | rsPush | rsComplete => exact ⟨_, rfl⟩
  | nothing | saInit | saFinalize | rsPop => exact ⟨[], (List.append_nil _).symm⟩

theorem channelOrNew_of_lookup {b : Block} {k : ChannelId} {a : Accumulator}
    (h : lookupChannel b.channels k = some a) : channelOrNew b k = a := by
  simp only [channelOrNew, h]

/-- Writing a slot keeps every channel, and its watch value where the accumulator written has it. -/
theorem lookupChannel_setChannel_watch {b : Block} {j k : ChannelId} {a a' : Accumulator}
    (h : lookupChannel b.channels k = some a)
    (hw : a'.watchSegmentCounter = (channelOrNew b j).watchSegmentCounter) :
    ∃ c, lookupChannel (setChannel b.channels j a') k = some c ∧
      c.watchSegmentCounter = a.watchSegmentCounter := by
  by_cases hk : k = j
  · subst hk
    rw [channelOrNew_of_lookup h] at hw
    exact ⟨a', lookupChannel_setChannel_self .., hw⟩
  · exact ⟨a, (lookupChannel_setChannel_of_ne _ _ hk).trans h, rfl⟩

/-- A channel present before a write is present after it, with the same watch value (R42, R44). -/
theorem BlockWrite.keeps_channel {b c : Block} (h : BlockWrite b c) {k : ChannelId}
    {a : Accumulator} (hk : lookupChannel b.channels k = some a) :
    ∃ a', lookupChannel c.channels k = some a' ∧
      a'.watchSegmentCounter = a.watchSegmentCounter := by
  cases h with
  | rsPush _ _ _ hp | rsComplete _ _ _ hp =>
    exact lookupChannel_setChannel_watch hk (accPush_frame hp).2
  | nothing | saInit | saPush | saFinalize | rsPop => exact ⟨a, hk, rfl⟩

/-- The same of a step, whose refusal mark touches no channel. -/
theorem step_keeps_channel {s t : State} (h : step s = .next t) {k : ChannelId} {a : Accumulator}
    (hk : lookupChannel s.st.channels k = some a) :
    ∃ a', lookupChannel t.st.channels k = some a' ∧
      a'.watchSegmentCounter = a.watchSegmentCounter := by
  obtain ⟨b, hb, ht | ht⟩ := step_blockWrite h <;> rw [ht] <;> exact hb.keeps_channel hk

/-! #### The accumulator's invariant (R39 to R41) -/

/-- An accumulator without fragments meets the invariant in Empty and in Error. -/
theorem accumulator_inv_of_noFragments {a : Accumulator} (hs : a.state = .empty ∨ a.state = .error)
    (hf : a.pendingFragments = []) (he : a.expectedSegmentCount = none) : a.Inv where
  noFragments _ := hf
  openFragments h := by simp [h] at hs
  closedFragments h := by simp [h] at hs
  expected := by simp [hf, he]
  wellFormed := by simp [hf]

theorem newAccumulator_inv (k : ChannelId) (w : Bool) : (newAccumulator k w).Inv :=
  accumulator_inv_of_noFragments (.inl rfl) rfl rfl

theorem accError_inv (a : Accumulator) : (accError a).Inv :=
  accumulator_inv_of_noFragments (.inr rfl) rfl rfl

theorem accEmptied_inv (a : Accumulator) : (accEmptied a).Inv :=
  accumulator_inv_of_noFragments (.inl rfl) rfl rfl

theorem fragmentRole_of_channel {x : SpacePacket} {ch : AduChannel} {r : SegmentRole}
    (hc : aduChannel x = some ch) (hr : role ch = r) : fragmentRole x = some r := by
  simp [fragmentRole, hc, hr]

theorem OpenFragments.single {x : SpacePacket} (h : fragmentRole x = some .first) :
    OpenFragments [x] := ⟨x, [], rfl, h, nofun⟩

theorem OpenFragments.append_continuation {fs : List SpacePacket} {x : SpacePacket}
    (hfs : OpenFragments fs) (h : fragmentRole x = some .continuation) :
    OpenFragments (fs ++ [x]) := by
  obtain ⟨f, cs, rfl, hf, hcs⟩ := hfs
  refine ⟨f, cs ++ [x], rfl, hf, fun c hc => ?_⟩
  rcases List.mem_append.1 hc with hc | hc
  · exact hcs c hc
  · rwa [List.mem_singleton.1 hc]

theorem OpenFragments.append_last {fs : List SpacePacket} {x : SpacePacket}
    (hfs : OpenFragments fs) (h : fragmentRole x = some .last) : ClosedFragments (fs ++ [x]) := by
  obtain ⟨f, cs, rfl, hf, hcs⟩ := hfs
  exact .inr ⟨f, cs, x, rfl, hf, hcs, h⟩

/-- An accepted segment `x` leaves an accumulator that meets the invariant, when it comes last of
fragments that are well formed and are those of the new state (R265). -/
theorem acceptPush_inv {a : Accumulator} {st : AccState} {front : List SpacePacket}
    {x : SpacePacket} {ch : AduChannel} (hc : aduChannel x = some ch)
    (hst : (st = .assembling ∧ OpenFragments (front ++ [x])) ∨
      (st = .complete ∧ ClosedFragments (front ++ [x])))
    (hw : ∀ y ∈ front ++ [x], y.wellFormed = true) :
    (acceptPush a st (front ++ [x]) ch.aduSegmentCount).acc.Inv where
  noFragments h := by rcases hst with ⟨rfl, -⟩ | ⟨rfl, -⟩ <;> simp [acceptPush] at h
  openFragments h := by
    rcases hst with ⟨-, ho⟩ | ⟨rfl, -⟩
    · exact ho
    · cases h
  closedFragments h := by
    rcases hst with ⟨rfl, -⟩ | ⟨-, ho⟩
    · cases h
    · exact ho
  expected := by simp [acceptPush, fragmentCount, hc, nextCount_eq]
  wellFormed := hw

/-- A push keeps no fragments but those before it and the packet pushed. -/
theorem accPush_mem_fragments {a : Accumulator} {x y : SpacePacket} {p : PushResult}
    (h : accPush a x = some p) (hy : y ∈ p.acc.pendingFragments) :
    y ∈ a.pendingFragments ∨ y = x := by
  obtain ⟨ch, -, ⟨d, -, rfl⟩ | ⟨-, ⟨m, -, rfl⟩ | ⟨-, -, rfl⟩ | ⟨-, -, rfl⟩ | ⟨-, -, rfl⟩ |
    ⟨-, -, rfl⟩⟩⟩ := accPush_cases h
  · cases hy
  · cases hy
  · simpa [acceptPush] using hy
  · simpa [acceptPush] using hy
  · exact .inr (List.mem_singleton.1 hy)
  · exact .inr (List.mem_singleton.1 hy)

/-- A push of a well-formed packet keeps the accumulator's invariant. -/
theorem accPush_inv {a : Accumulator} {x : SpacePacket} {p : PushResult} (ha : a.Inv)
    (hx : x.wellFormed = true) (h : accPush a x = some p) : p.acc.Inv := by
  have hw : ∀ y ∈ p.acc.pendingFragments, y.wellFormed = true := fun y hy =>
    (accPush_mem_fragments h hy).elim (ha.wellFormed y) fun e => e ▸ hx
  obtain ⟨ch, hc, ⟨d, -, rfl⟩ | ⟨-, ⟨m, -, rfl⟩ | ⟨hs, hr, rfl⟩ | ⟨hs, hr, rfl⟩ | ⟨hs, hr, rfl⟩ |
    ⟨hs, hr, rfl⟩⟩⟩ := accPush_cases h
  · exact accError_inv a
  · exact accError_inv a
  all_goals have hrole := fragmentRole_of_channel hc hr
  · exact acceptPush_inv hc (.inl ⟨rfl, (ha.openFragments hs).append_continuation hrole⟩) hw
  · exact acceptPush_inv hc (.inr ⟨rfl, (ha.openFragments hs).append_last hrole⟩) hw
  · exact acceptPush_inv (front := []) hc (.inl ⟨rfl, .single hrole⟩) hw
  · exact acceptPush_inv (front := []) hc (.inr ⟨rfl, .inl ⟨x, rfl, hrole⟩⟩) hw

/-- Fragments that begin with one that has a role make an ADU (44_segment_accumulator.md R268). -/
theorem aduOfFragments_cons_ne_none {f : SpacePacket} {rest : List SpacePacket} {r : SegmentRole}
    (h : fragmentRole f = some r) : aduOfFragments (f :: rest) ≠ none := by
  obtain ⟨ch, hc, -⟩ := Option.map_eq_some_iff.1 h
  unfold aduChannel at hc
  rcases hs : f.secondary with _ | sh <;> rw [hs] at hc
  · cases hc
  · simp [aduOfFragments, hs, show sh.channel = some ch from hc]

theorem ClosedFragments.aduOfFragments_ne_none {fs : List SpacePacket} (h : ClosedFragments fs) :
    aduOfFragments fs ≠ none := by
  rcases h with ⟨u, rfl, hu⟩ | ⟨f, cs, l, rfl, hf, -⟩
  · exact aduOfFragments_cons_ne_none hu
  · exact aduOfFragments_cons_ne_none hf

/-- A Complete accumulator that meets the invariant finalizes, so one that does not finalize is not
Complete (R268). -/
theorem Accumulator.Inv.ne_complete_of_accFinalize {a : Accumulator} (ha : a.Inv)
    (h : accFinalize a = none) : a.state ≠ .complete := by
  intro hs
  have hadu := (ha.closedFragments hs).aduOfFragments_ne_none
  unfold accFinalize at h
  rw [if_pos hs] at h
  split at h
  · contradiction
  · cases h

/-! #### The block's invariant (R39 to R45, 45_reassembler.md R305) -/

/-- The accumulator a push to channel `k` runs on may stand in slot `k` (45_reassembler.md R297). -/
theorem Block.Inv.channelOrNew_slotInv {b : Block} (hb : b.Inv) (k : ChannelId) :
    SlotInv b.cfg k (channelOrNew b k) := by
  unfold channelOrNew
  rcases hk : lookupChannel b.channels k with _ | a
  · exact { acc := newAccumulator_inv .., channelId := rfl, notComplete := nofun, watch := rfl,
            fragmentChannel := nofun, fragmentApid := nofun }
  · exact hb.slots _ (mem_of_lookupChannel hk)

section Push

variable {cfg : Cfg} {a : Accumulator} {x : SpacePacket} {ch : AduChannel} {p : PushResult}

/-- After a push of a packet of the slot's channel, every fragment is of that channel. -/
theorem SlotInv.push_fragmentChannel (ha : SlotInv cfg ch.aduChannelId a)
    (hc : aduChannel x = some ch) (hp : accPush a x = some p) :
    ∀ y ∈ p.acc.pendingFragments,
      (aduChannel y).map AduChannel.aduChannelId = some ch.aduChannelId := by
  intro y hy
  rcases accPush_mem_fragments hp hy with h | rfl
  · exact ha.fragmentChannel y h
  · rw [hc, Option.map_some]

/-- After a push of a packet of the configured application, so is every fragment. -/
theorem SlotInv.push_fragmentApid {k : ChannelId} (ha : SlotInv cfg k a)
    (happ : apidLow x.primary = cfg.appIdLow) (hp : accPush a x = some p) :
    ∀ y ∈ p.acc.pendingFragments, apidLow y.primary = cfg.appIdLow := by
  intro y hy
  rcases accPush_mem_fragments hp hy with h | rfl
  · exact ha.fragmentApid y h
  · exact happ

/-- A push that does not complete the ADU leaves an accumulator that may stand in the slot. -/
theorem SlotInv.push (ha : SlotInv cfg ch.aduChannelId a) (hw : x.wellFormed = true)
    (hc : aduChannel x = some ch) (happ : apidLow x.primary = cfg.appIdLow)
    (hp : accPush a x = some p) (hf : accFinalize p.acc = none) :
    SlotInv cfg ch.aduChannelId p.acc where
  acc := accPush_inv ha.acc hw hp
  channelId := (accPush_frame hp).1.trans ha.channelId
  notComplete := (accPush_inv ha.acc hw hp).ne_complete_of_accFinalize hf
  watch := (accPush_frame hp).2.trans ha.watch
  fragmentChannel := ha.push_fragmentChannel hc hp
  fragmentApid := ha.push_fragmentApid happ hp

/-- The accumulator of a push, finalized, may stand in the slot: it has no fragments. -/
theorem SlotInv.push_emptied {k : ChannelId} (ha : SlotInv cfg k a) (hp : accPush a x = some p) :
    SlotInv cfg k (accEmptied p.acc) where
  acc := accEmptied_inv _
  channelId := (accPush_frame hp).1.trans ha.channelId
  notComplete := nofun
  watch := (accPush_frame hp).2.trans ha.watch
  fragmentChannel := nofun
  fragmentApid := nofun

end Push

/-- Writing a slot with an accumulator that may stand there, whatever is logged, keeps the invariant
when the queue is of the configured application. -/
theorem Block.Inv.setChannel {b : Block} (hb : b.Inv) {k : ChannelId} {a : Accumulator}
    (ha : SlotInv b.cfg k a) {queue : List Adu} (hq : ∀ d ∈ queue, d.apidLower = b.cfg.appIdLow)
    (log : List LogRecord) :
    Block.Inv { b with
      channels := setChannel b.channels k a, completedQueue := queue, diagLog := log } where
  watchRising := hb.watchRising
  channelsRising := rising_setChannel hb.channelsRising k a
  slots q hm := by
    rcases mem_setChannel hm with rfl | hm
    · exact ha
    · exact hb.slots q hm
  standalone := hb.standalone
  queued := hq

/-- Replacing the standalone accumulator by one that meets its invariant, whatever is logged. -/
theorem Block.Inv.setSa {b : Block} (hb : b.Inv) {a : Accumulator} (ha : a.Inv)
    (log : List LogRecord) : Block.Inv { b with sa := some a, diagLog := log } :=
  { hb with standalone := by rintro _ ⟨⟩; exact ha }

/-- The ADU of a completing push is of the configured application (R305). -/
theorem SlotInv.adu_apidLower {cfg : Cfg} {k : ChannelId} {a a' : Accumulator} {x : SpacePacket}
    {p : PushResult} {adu : Adu} (ha : SlotInv cfg k a) (happ : apidLow x.primary = cfg.appIdLow)
    (hp : accPush a x = some p) (hf : accFinalize p.acc = some (adu, a')) :
    adu.apidLower = cfg.appIdLow := by
  obtain ⟨-, hadu, -⟩ := accFinalize_cases hf
  obtain ⟨f, hmem, hlow⟩ := aduOfFragments_apidLower hadu
  exact hlow.trans (ha.push_fragmentApid happ hp f hmem)

/-- Every write keeps the block's invariant. -/
theorem BlockWrite.inv {b c : Block} (h : BlockWrite b c) (hb : b.Inv) : c.Inv := by
  cases h with
  | nothing => exact hb
  | saInit k w => exact hb.setSa (newAccumulator_inv k w) _
  | saPush hw ha hp => exact hb.setSa (accPush_inv (hb.standalone _ ha) hw hp) _
  | saFinalize a => exact hb.setSa (accEmptied_inv a) _
  | rsPush hw hc happ hp hf =>
    exact hb.setChannel ((hb.channelOrNew_slotInv _).push hw hc happ hp hf) hb.queued _
  | @rsComplete _ ch _ _ hw hc happ hp hf =>
    have hslot := hb.channelOrNew_slotInv ch.aduChannelId
    refine hb.setChannel (hslot.push_emptied hp) (fun d hd => ?_) _
    rcases List.mem_append.1 hd with hd | hd
    · exact hb.queued d hd
    · rw [List.mem_singleton.1 hd]
      exact hslot.adu_apidLower happ hp hf
  | rsPop hq =>
    exact { hb with queued := fun d hd => hb.queued d (hq ▸ List.mem_cons_of_mem _ hd) }

/-- The refusal mark is no part of the invariant. -/
theorem Block.Inv.refused {b : Block} (hb : b.Inv) : Block.Inv { b with refused := true } :=
  { hb with }

/-! #### Results (30_encoding.md R121) -/

/-- The ADU block is the result block whose length field is the data's (R121). -/
theorem aduBlock_eq_aduResult (a : Adu) : aduBlock a = aduResult (seqLength a.data.length) a := by
  simp [aduBlock, aduResult, seqBlock, u32Bytes, u32Result, u8Of, TimeField.bytes,
    BitVec.setWidth_eq_append]

/-- The length field of an ADU block (log 8). -/
theorem dataLength_seqLength (a : Adu) : DataLength (seqLength a.data.length) a := seqLength_toNat

/-- A command that ends with a result answers status OK. -/
theorem answersOk_of_outcome {i : Instr} {s : State} {b : Block} {B : Bytes}
    (h : commandOutcome i s.st = (b, .ok B)) : AnswersOk i s b B := answers_of_outcome h

theorem boolByte_beq {n : Nat} (v w : BitVec n) :
    boolByte (v == w) = if v = w then 1 else 0 := by
  simp [boolByte]

/-! #### The `SP` operand (30_encoding.md R121, R125) -/

theorem wellFormed_iff (x : SpacePacket) :
    x.wellFormed = true ↔ (x.secondary.isSome = true ↔ x.primary.secondaryHeaderFlag = 1) := by
  rw [SpacePacket.wellFormed, beq_iff_eq, Bool.eq_iff_iff, beq_iff_eq]
  rfl

/-- The blocks of a packet give the packet back, or the refusal of R125. -/
theorem spOfBlocks_of_packet (x : SpacePacket) :
    spOfBlocks (.ok x.primary) (boolByte x.secondary.isSome) (x.secondary.map .ok) x.payload =
      if x.wellFormed then .ok x else .error .presenceMismatch := by
  obtain ⟨ph, _ | sh, payload⟩ := x <;> rfl

/-- The `SP` block of a packet reads as the packet, or as the refusal of R125. -/
theorem takeSp_spBlock {x : SpacePacket} (hx : x.payload.length < 2 ^ 32) (rest : Bytes) :
    takeSp (spBlock x ++ rest) =
      some (if x.wellFormed then .ok x else .error .presenceMismatch, rest) := by
  have hph : ∀ B, takePh (phBlock x.primary ++ B) = some (.ok x.primary, B) := fun B =>
    takePh_eq_ok.2 rfl
  have hseq : takeSeq (seqBlock x.payload ++ rest) = some (x.payload, rest) :=
    takeSeq_eq_some.2 ⟨hx, rfl⟩
  rw [← spOfBlocks_of_packet]
  rcases hs : x.secondary with _ | sh
  · simp [takeSp, spBlock, hs, hph, hseq, takeU8, boolByte]
  · have hsh : ∀ B, takeSh (shBlock sh ++ B) = some (.ok sh, B) := fun B => takeSh_eq_ok.2 rfl
    simp [takeSp, spBlock, hs, hph, hseq, hsh, takeU8, boolByte]

/-- A frame of an opcode with an `SP` operand and a packet's block is that packet's command, or is
refused with reason 5. -/
theorem decode_spBlock {op : Byte} {f : SpacePacket → Instr} {x : SpacePacket}
    (hop : operandReader op = some fun B => asInstr f (takeSp B))
    (hx : x.payload.length < 2 ^ 32) :
    decode (op :: spBlock x) = if x.wellFormed then .ok (f x) else .error .presenceMismatch := by
  have h := takeSp_spBlock hx []
  rw [List.append_nil] at h
  rw [decode_cons_some hop, h]
  cases x.wellFormed <;> rfl

/-! #### The statements -/

/-- Settles O58: every write of a step keeps the invariant, and so does the refusal mark. -/
theorem everyStepKeepsTheInvariant : Obligations.EveryStepKeepsTheInvariant := by
  intro s t hs h
  obtain ⟨b, hb, ht | ht⟩ := step_blockWrite h <;> rw [ht]
  · exact hb.inv hs
  · exact (hb.inv hs).refused

/-- Settles O7: the four opcodes read one `SP` block, which reads as its packet or is refused. -/
theorem presenceMismatchIsRefused : Obligations.PresenceMismatchIsRefused := by
  intro x hx p hp
  simp only [List.mem_cons, List.not_mem_nil, or_false] at hp
  simp only [← wellFormed_iff]
  rcases hp with rfl | rfl | rfl | rfl <;> exact decode_spBlock rfl hx

/-- Settles O39: the first fragment has a channel, so finalize answers its ADU. -/
theorem saFinalizeAnswersTheAdu : Obligations.SaFinalizeAnswersTheAdu := by
  intro s a f rest h ch hsa hst hfr hsec hch
  refine ⟨_, _, dataLength_seqLength _, rfl, ?_⟩
  rw [← aduBlock_eq_aduResult]
  refine answersOk_of_outcome ?_
  simp only [commandOutcome, saFinalize, hsa, accFinalize, hst, if_true, hfr, aduOfFragments, hsec,
    hch]
  rfl

/-- Settles O53: a step keeps every channel, with its watch value. -/
theorem noChannelIsEverLost : Obligations.NoChannelIsEverLost := by
  intro s t k a h hk
  obtain ⟨b, hb, -⟩ := step_keeps_channel h hk
  exact ⟨b, hb⟩

/-- Settles O54: no write changes `cfg` or the mark, drops a record or changes a watch value. -/
theorem onlyResetUndoesWhatStays : Obligations.OnlyResetUndoesWhatStays := by
  intro s t h
  have hwatch : ∀ k a b, lookupChannel s.st.channels k = some a →
      lookupChannel t.st.channels k = some b → b.watchSegmentCounter = a.watchSegmentCounter := by
    intro k a b hk hb
    obtain ⟨c, hc, hw⟩ := step_keeps_channel h hk
    cases hb.symm.trans hc
    exact hw
  obtain ⟨b, hb, ht⟩ := step_blockWrite h
  rcases ht with ht | ht <;> rw [ht] at hwatch ⊢
  · exact ⟨hb.cfg_eq, fun hr => hb.refused_eq.trans hr, hb.diagLog_extends, hwatch⟩
  · exact ⟨hb.cfg_eq, fun _ => rfl, hb.diagLog_extends, hwatch⟩

/-- Settles O19: each predicate answers the comparison of `sequenceFlag` with its role's code. -/
theorem rolePredicatesTestTheSequenceFlag : Obligations.RolePredicatesTestTheSequenceFlag := by
  intro s h
  simp only [← boolByte_beq]
  exact ⟨answersOk_of_outcome rfl, answersOk_of_outcome rfl, answersOk_of_outcome rfl,
    answersOk_of_outcome rfl⟩

/-- Settles O33: SA_INIT writes a new accumulator in every state. -/
theorem saInitInstallsAnEmptyAccumulator : Obligations.SaInitInstallsAnEmptyAccumulator :=
  fun _ _ _ => answersOk_of_outcome rfl

end Sys2Proof.Machine

/-! ### Proofs: the primary header on the wire (20_memory.md R72)

A sequence that a chain of writes fills from its first bit on holds the written values one after the
other; its bytes are then cut out of that one word. -/

namespace Sys2Proof.Machine

/-! #### Sequences filled from the first bit on (40_bitfield.md R150, R153) -/

/-- The first `n` wire bits of `B` are those of `X`, most significant first (00_scope.md R17). -/
def BeginsWith (B : Bytes) {n : Nat} (X : BitVec n) : Prop :=
  ∀ p < n, bit B p = (X.getMsbD p).toNat

/-- Inside a field as wide as its value, the bits after a write are the value's. -/
theorem bitAfterSet_toNat {B : Bytes} {off w p : Nat} (v : BitVec w)
    (hp : off ≤ p ∧ p < off + w) :
    bitAfterSet B off w v.toNat p = (v.getMsbD (p - off)).toNat := by
  have hlt : p - off < w := by omega
  rw [bitAfterSet_eq_toNat, if_pos hp, BitVec.getMsbD_eq_getLsbD, decide_eq_true hlt,
    Bool.true_and, BitVec.getLsbD]

/-- A write at offset 0 makes the sequence begin with its value. -/
theorem beginsWith_setField_zero {B : Bytes} {w : Nat} (v : BitVec w) (hl : w ≤ 8 * B.length) :
    BeginsWith (setField B 0 w v.toNat) v := fun p hp =>
  (bit_setField _ _ _ _ _ (by omega)).trans (bitAfterSet_toNat v ⟨p.zero_le, by omega⟩)

/-- Writing the next field appends its value: the bits before it are kept. -/
theorem BeginsWith.setField {B : Bytes} {n w : Nat} {X : BitVec n} (h : BeginsWith B X)
    (v : BitVec w) (hl : n + w ≤ 8 * B.length) :
    BeginsWith (setField B n w v.toNat) (X ++ v) := by
  intro p hp
  rw [BitVec.getMsbD_append]
  split
  next hn =>
    rw [bit_setField _ _ _ _ _ (by omega)]
    exact bitAfterSet_toNat v ⟨hn, hp⟩
  next hn =>
    rw [bit_setField_of_not_mem _ _ _ _ _ fun hm => hn hm.1]
    exact h p (by omega)

/-- A sequence of `k` bytes that begins with a word of `8 * k` bits is the bytes of the word,
big-endian (R20). -/
theorem BeginsWith.eq_bytes {B : Bytes} {k : Nat} {X : BitVec (8 * k)} (h : BeginsWith B X)
    (hl : B.length = k) :
    B = (List.range k).map fun i => X.extractLsb' (8 * (k - 1 - i)) 8 := by
  apply bytes_ext (by simp [hl])
  intro p hp
  rw [List.length_map, List.length_range] at hp
  have hi : p / 8 < k := by omega
  rw [h p hp, bit_eq_getMsbD, List.getD_eq_getElem _ _ (by simpa using hi), List.getElem_map,
    List.getElem_range, BitVec.getMsbD_extractLsb',
    decide_eq_true (Nat.mod_lt p (by decide)), decide_eq_true (by omega), Bool.true_and,
    Bool.true_and]
  congr 2
  omega

/-- A cut that ends inside the upper word: `i` of its bits, then the top `j` of the lower word. -/
theorem extractLsb'_append_across {v w k i j : Nat} (x : BitVec v) (y : BitVec w)
    (h : k + j = w) :
    (x ++ y).extractLsb' k (i + j) = x.extractLsb' 0 i ++ y.extractLsb' k j := by
  rw [← BitVec.extractLsb'_append_extractLsb'_eq_extractLsb' h.symm,
    BitVec.extractLsb'_append_eq_of_le le_rfl, Nat.sub_self,
    BitVec.extractLsb'_append_eq_of_add_le h.le]

/-! #### The six bytes of a primary header (30_encoding.md R100, R101) -/

/-- The 48 bits of a primary header, its seven fields in wire order (R101). -/
def phWord (h : PrimaryHeader) : BitVec (3 + 1 + 1 + 11 + 2 + 14 + 16) :=
  h.versionNumber ++ h.packetType ++ h.secondaryHeaderFlag ++ h.applicationId ++
    h.sequenceFlag ++ h.sequenceCount ++ h.packetDataLength

theorem phBytes_length (h : PrimaryHeader) : (phBytes h).length = 6 := by
  simp [phBytes]

/-- Each write of `phBytes` is at the offset where the fields before it end
(41_primary_header.md R170). -/
theorem phBytes_beginsWith (h : PrimaryHeader) : BeginsWith (phBytes h) (phWord h) := by
  have version := beginsWith_setField_zero (B := [0, 0, 0, 0, 0, 0]) h.versionNumber (by simp)
  have identification := ((version.setField h.packetType (by simp)).setField
    h.secondaryHeaderFlag (by simp)).setField h.applicationId (by simp)
  have sequence := (identification.setField h.sequenceFlag (by simp)).setField
    h.sequenceCount (by simp)
  exact sequence.setField h.packetDataLength (by simp)

/-- The wire layout is the 48 bits cut into bytes: bytes 0 and 2 take in whole fields and the top of
the next (the APID, the sequence count), every other byte lies in one field (R100). -/
theorem phWire_eq_bytes (h : PrimaryHeader) :
    phWire h = (List.range 6).map fun i => (phWord h).extractLsb' (8 * (6 - 1 - i)) 8 := by
  -- The sums stay unevaluated, since `x ++ y` is matched at the width `v + w`.
  simp (disch := decide) only [-Nat.reduceAdd, phWire, phWord, List.range_succ, List.range_zero,
    List.nil_append, List.cons_append, List.map_cons, List.map_nil, Nat.reduceSub, Nat.reduceMul,
    BitVec.extractLsb'_append_eq_of_le, BitVec.extractLsb'_append_eq_of_add_le]
  rw [extractLsb'_append_across (i := 5) (j := 3) _ _ rfl, BitVec.extractLsb'_eq_self,
    extractLsb'_append_across (i := 2) (j := 6) _ _ rfl, BitVec.extractLsb'_append_eq_right]

/-- What the codec writes field by field is the wire layout (R100, R170). -/
theorem phBytes_eq_phWire (h : PrimaryHeader) : phBytes h = phWire h :=
  ((phBytes_beginsWith h).eq_bytes (k := 6) (phBytes_length h)).trans (phWire_eq_bytes h).symm

/-- A command that ends with a refusal is refused with the reason's code (30_encoding.md R134). -/
theorem refusedWith_of_outcome {i : Instr} {s : State} {r : RefusalReason}
    (h : commandOutcome i s.st = (s.st, .error (.refuse r))) :
    RefusedWith i s (reasonCode r) := answers_of_outcome h

/-- Settles O16: version 0 is encoded, and the bytes written field by field are the wire layout; any
other version is refused. -/
theorem phEncodeAnswersTheWireLayout : Obligations.PhEncodeAnswersTheWireLayout := by
  intro s h
  constructor
  · intro hv
    rw [← phBytes_eq_phWire]
    apply answersOk_of_outcome
    rw [commandOutcome, phEncodeReply, if_pos hv]
  · intro hv
    apply refusedWith_of_outcome (r := .versionNotZero)
    rw [commandOutcome, phEncodeReply, if_neg hv]

end Sys2Proof.Machine

/-! ### Proofs: frames, and the codecs they carry (30_encoding.md)

Reading and writing an operand block are inverse, opcode by opcode; a read takes the block's size
and no less; the width checks, said once, compose to the reason of a whole operand; and the headers
read field by field are the ones the bytes spell. -/

namespace Sys2Proof.Machine

/-! #### Operand blocks and their commands (R122) -/

/-- What `reader` reads are the commands of `C` that some frame carries, each from its own operand
block. -/
def ReadsCommands (reader : Bytes → Option (Taken Instr)) (C : Instr → Prop) : Prop :=
  ∀ B i rest, reader B = some (.ok i, rest) ↔
    C i ∧ i.wellFormed = true ∧ B = operandBlock i ++ rest

theorem asInstr_eq_some {α : Type} {f : α → Instr} {o : Option (Taken α)}
    {x : Except RefusalReason Instr} {rest : Bytes} :
    asInstr f o = some (x, rest) ↔ ∃ y, o = some (y, rest) ∧ y.map f = x := by
  rcases o with _ | ⟨y, B⟩ <;> simp [asInstr, and_comm]

/-- A record block read as the operand of a command: the block is the whole operand block (R121). -/
theorem readsCommands_asInstr {α : Type} {tk : Bytes → Option (Taken α)} {ok : α → Bool}
    {block : α → Bytes} {f : α → Instr}
    (htk : ∀ B a rest, tk B = some (.ok a, rest) ↔ ok a = true ∧ B = block a ++ rest)
    (hw : ∀ a, (f a).wellFormed = ok a) (hb : ∀ a, operandBlock (f a) = block a) :
    ReadsCommands (fun B => asInstr f (tk B)) fun i => ∃ a, f a = i := by
  intro B i rest
  simp only [asInstr_eq_some, except_map_eq_ok]
  constructor
  · rintro ⟨_, ha, a, rfl, rfl⟩
    rw [hw, hb]
    exact ⟨⟨a, rfl⟩, (htk B a rest).1 ha⟩
  · rintro ⟨⟨a, rfl⟩, h⟩
    rw [hw, hb] at h
    exact ⟨_, (htk B a rest).2 h, a, rfl, rfl⟩

theorem readsCommands_ph {f : PrimaryHeader → Instr} (hw : ∀ h, (f h).wellFormed = true)
    (hb : ∀ h, operandBlock (f h) = phBlock h) :
    ReadsCommands (fun B => asInstr f (takePh B)) fun i => ∃ h, f h = i :=
  readsCommands_asInstr (ok := fun _ => true) (fun _ _ _ => by simp [takePh_eq_ok]) hw hb

theorem readsCommands_sh {f : SecondaryHeader → Instr} (hw : ∀ h, (f h).wellFormed = true)
    (hb : ∀ h, operandBlock (f h) = shBlock h) :
    ReadsCommands (fun B => asInstr f (takeSh B)) fun i => ∃ h, f h = i :=
  readsCommands_asInstr (ok := fun _ => true) (fun _ _ _ => by simp [takeSh_eq_ok]) hw hb

theorem readsCommands_sp {f : SpacePacket → Instr} (hw : ∀ x, (f x).wellFormed = x.operandOk)
    (hb : ∀ x, operandBlock (f x) = spBlock x) :
    ReadsCommands (fun B => asInstr f (takeSp B)) fun i => ∃ x, f x = i :=
  readsCommands_asInstr (fun _ _ _ => takeSp_eq_ok) hw hb

theorem fitsSeq_iff (B : Bytes) : Bytes.fitsSeq B = true ↔ B.length < 2 ^ 32 := decide_eq_true_iff

theorem readsCommands_seq {f : Bytes → Instr} (hw : ∀ S, (f S).wellFormed = Bytes.fitsSeq S)
    (hb : ∀ S, operandBlock (f S) = seqBlock S) :
    ReadsCommands (takeSeqInstr f) fun i => ∃ S, f S = i := by
  have e : takeSeqInstr f = fun B =>
      asInstr f ((takeSeq B).map fun p => ((.ok p.1, p.2) : Taken Bytes)) := by
    funext B
    unfold takeSeqInstr
    rcases takeSeq B with _ | p <;> rfl
  rw [e]
  refine readsCommands_asInstr (fun B S rest => ?_) hw hb
  rw [fitsSeq_iff, ← takeSeq_eq_some]
  simp [Prod.ext_iff]

theorem readsCommands_bfDecode :
    ReadsCommands takeBfDecode fun i => ∃ off w S, .bfDecode off w S = i := by
  intro B i rest
  simp only [takeBfDecode, Option.bind_eq_bind, Option.bind_eq_some_iff, Prod.exists,
    takeU16_eq_some, takeU8_eq_some, takeSeq_eq_some, Option.some.injEq, Prod.mk.injEq,
    Except.ok.injEq]
  constructor
  · rintro ⟨off, _, rfl, w, _, rfl, S, _, ⟨hS, rfl⟩, rfl, rfl⟩
    exact ⟨⟨off, w, S, rfl⟩, (fitsSeq_iff S).2 hS, by simp [operandBlock]⟩
  · rintro ⟨⟨off, w, S, rfl⟩, hw, rfl⟩
    exact ⟨off, _, by simp [operandBlock], w, _, rfl, S, rest, ⟨(fitsSeq_iff S).1 hw, rfl⟩, rfl,
      rfl⟩

theorem readsCommands_bfEncode :
    ReadsCommands takeBfEncode fun i => ∃ off w v S, .bfEncode off w v S = i := by
  intro B i rest
  simp only [takeBfEncode, Option.bind_eq_bind, Option.bind_eq_some_iff, Prod.exists,
    takeU16_eq_some, takeU8_eq_some, takeSeq_eq_some, Option.some.injEq, Prod.mk.injEq,
    Except.ok.injEq]
  constructor
  · rintro ⟨off, _, rfl, w, _, rfl, v, _, rfl, S, _, ⟨hS, rfl⟩, rfl, rfl⟩
    exact ⟨⟨off, w, v, S, rfl⟩, (fitsSeq_iff S).2 hS, by simp [operandBlock]⟩
  · rintro ⟨⟨off, w, v, S, rfl⟩, hw, rfl⟩
    exact ⟨off, w :: (u16Bytes v ++ (seqBlock S ++ rest)), by simp [operandBlock], w, _, rfl, v, _,
      rfl, S, rest, ⟨(fitsSeq_iff S).1 hw, rfl⟩, rfl, rfl⟩

theorem readsCommands_shDecode :
    ReadsCommands takeShDecode fun i => ∃ n S, .shDecode n S = i := by
  intro B i rest
  simp only [takeShDecode, Option.bind_eq_bind, Option.bind_eq_some_iff, Prod.exists,
    takeU32_eq_some, takeSeq_eq_some, Option.some.injEq, Prod.mk.injEq, Except.ok.injEq]
  constructor
  · rintro ⟨n, _, rfl, S, _, ⟨hS, rfl⟩, rfl, rfl⟩
    exact ⟨⟨n, S, rfl⟩, (fitsSeq_iff S).2 hS, by simp [operandBlock]⟩
  · rintro ⟨⟨n, S, rfl⟩, hw, rfl⟩
    exact ⟨n, _, by simp [operandBlock], S, rest, ⟨(fitsSeq_iff S).1 hw, rfl⟩, rfl, rfl⟩

theorem readsCommands_saInit : ReadsCommands takeSaInit fun i => ∃ k w, .saInit k w = i := by
  intro B i rest
  simp only [takeSaInit, Option.bind_eq_bind, Option.bind_eq_some_iff, Prod.exists, takeU8_eq_some,
    Option.some.injEq, Prod.mk.injEq, except_map_eq_ok, boolOfByte_eq_ok]
  constructor
  · rintro ⟨k, _, rfl, _, _, rfl, ⟨w, rfl, rfl⟩, rfl⟩
    exact ⟨⟨k, w, rfl⟩, rfl, rfl⟩
  · rintro ⟨⟨k, w, rfl⟩, -, rfl⟩
    exact ⟨k, _, rfl, _, rest, rfl, ⟨w, rfl, rfl⟩, rfl⟩

theorem readsCommands_noOperand {i : Instr} (hw : i.wellFormed = true) (hb : operandBlock i = []) :
    ReadsCommands (fun B => some (.ok i, B)) fun j => i = j := by
  intro B j rest
  simp only [Option.some.injEq, Prod.mk.injEq, Except.ok.injEq]
  constructor
  · rintro ⟨rfl, rfl⟩
    exact ⟨rfl, hw, by rw [hb]; rfl⟩
  · rintro ⟨rfl, -, rfl⟩
    exact ⟨rfl, by rw [hb]; rfl⟩

/-- Every reader of the map (R122) reads commands of its own opcode: one case per row, grouped by
the operand block. -/
theorem operandReader_readsCommands {op : Byte} {reader : Bytes → Option (Taken Instr)}
    (h : operandReader op = some reader) :
    ∃ C, ReadsCommands reader C ∧ ∀ i, C i → (opcode i).toNat = op.toNat := by
  unfold operandReader at h
  split at h <;> rename_i hop <;> cases h <;> rw [hop]
  case h_1 => exact ⟨_, readsCommands_bfDecode, by rintro _ ⟨_, _, _, rfl⟩; rfl⟩
  case h_2 => exact ⟨_, readsCommands_bfEncode, by rintro _ ⟨_, _, _, _, rfl⟩; rfl⟩
  case h_11 => exact ⟨_, readsCommands_shDecode, by rintro _ ⟨_, _, rfl⟩; rfl⟩
  case h_16 => exact ⟨_, readsCommands_saInit, by rintro _ ⟨_, _, rfl⟩; rfl⟩
  case h_4 | h_14 | h_19 =>
    exact ⟨_, readsCommands_seq (fun _ => rfl) fun _ => rfl, by rintro _ ⟨_, rfl⟩; rfl⟩
  case h_3 | h_5 | h_6 | h_7 | h_8 | h_9 =>
    exact ⟨_, readsCommands_ph (fun _ => rfl) fun _ => rfl, by rintro _ ⟨_, rfl⟩; rfl⟩
  case h_10 | h_12 =>
    exact ⟨_, readsCommands_sh (fun _ => rfl) fun _ => rfl, by rintro _ ⟨_, rfl⟩; rfl⟩
  case h_13 | h_15 | h_17 | h_20 =>
    exact ⟨_, readsCommands_sp (fun _ => rfl) fun _ => rfl, by rintro _ ⟨_, rfl⟩; rfl⟩
  case h_18 | h_21 | h_22 =>
    exact ⟨_, readsCommands_noOperand rfl rfl, by rintro _ rfl; rfl⟩

/-- A command that some frame carries is read back from its operand block, whatever follows: one
case per command, grouped by the operand block. -/
theorem operandReader_operandBlock {i : Instr} (hw : i.wellFormed = true)
    {reader : Bytes → Option (Taken Instr)} (h : operandReader (opcode i) = some reader)
    (rest : Bytes) :
    reader (operandBlock i ++ rest) = some (.ok i, rest) := by
  cases i <;> cases h
  case bfDecode => exact (readsCommands_bfDecode _ _ _).2 ⟨⟨_, _, _, rfl⟩, hw, rfl⟩
  case bfEncode => exact (readsCommands_bfEncode _ _ _).2 ⟨⟨_, _, _, _, rfl⟩, hw, rfl⟩
  case shDecode => exact (readsCommands_shDecode _ _ _).2 ⟨⟨_, _, rfl⟩, hw, rfl⟩
  case saInit => exact (readsCommands_saInit _ _ _).2 ⟨⟨_, _, rfl⟩, hw, rfl⟩
  case phDecode | spDecode | rsPushBytes =>
    exact (readsCommands_seq (fun _ => rfl) (fun _ => rfl) _ _ _).2 ⟨⟨_, rfl⟩, hw, rfl⟩
  case phEncode | phIsSegmented | phIsFirst | phIsContinuation | phIsLast | phIsUnsegmented =>
    exact (readsCommands_ph (fun _ => rfl) (fun _ => rfl) _ _ _).2 ⟨⟨_, rfl⟩, hw, rfl⟩
  case shEncode | shLength =>
    exact (readsCommands_sh (fun _ => rfl) (fun _ => rfl) _ _ _).2 ⟨⟨_, rfl⟩, hw, rfl⟩
  case spEncode | spHasSecondary | saPush | rsPushPacket =>
    exact (readsCommands_sp (fun _ => rfl) (fun _ => rfl) _ _ _).2 ⟨⟨_, rfl⟩, hw, rfl⟩
  case saFinalize | rsHasCompleted | rsPopCompleted =>
    exact (readsCommands_noOperand rfl rfl _ _ _).2 ⟨rfl, hw, rfl⟩

/-- The frame of a command with bytes after it: decoded when there are none, too long otherwise. -/
theorem decode_encode_append {i : Instr} (hw : i.wellFormed = true) (rest : Bytes) :
    decode (encode i ++ rest) = wholeFrame (some (.ok i, rest)) := by
  obtain ⟨reader, h⟩ := operandReader_opcode i
  rw [encode, List.cons_append, decode_cons_some h, operandReader_operandBlock hw h]

/-- Settles O1: the reader of the command's opcode gives the command back and ends with its
block. -/
theorem decodingAnEncodedCommandGivesItBack :
    Obligations.DecodingAnEncodedCommandGivesItBack := by
  intro i hw
  have h := decode_encode_append hw []
  rwa [List.append_nil] at h

/-- Settles O2: the reader of the frame's opcode answers a command of that opcode only, from its own
operand block. -/
theorem encodingADecodedFrameGivesItBack : Obligations.EncodingADecodedFrameGivesItBack := by
  rintro (_ | ⟨op, B⟩) i hi
  · simp [decode] at hi
  · rcases h : operandReader op with _ | reader
    · rw [decode_cons_none h] at hi
      cases hi
    · rw [decode_cons_some h, wholeFrame_eq_ok] at hi
      obtain ⟨C, hC, hop⟩ := operandReader_readsCommands h
      obtain ⟨hc, hw, rfl⟩ := (hC B i []).1 hi
      rw [encode, BitVec.eq_of_toNat_eq (hop i hc), List.append_nil]
      exact ⟨hw, rfl⟩

/-! #### Width checks (R124)

A check that refuses with reason 3 exactly when some scalar is too wide, so that a chain of checks
does exactly when one of them does. -/

/-- `x` is refused with reason 3 when `wide` holds, and has a value otherwise. -/
def TooWideIff {α : Type} (x : Except RefusalReason α) (wide : Prop) : Prop :=
  (wide ∧ x = .error .operandTooWide) ∨ (¬wide ∧ ∃ a, x = .ok a)

section TooWideIff

variable {α β : Type} {x : Except RefusalReason α} {wide wide' : Prop}

theorem TooWideIff.congr (h : TooWideIff x wide) (hw : wide ↔ wide') : TooWideIff x wide' :=
  propext hw ▸ h

theorem TooWideIff.ok (a : α) : TooWideIff (.ok a) False := .inr ⟨id, a, rfl⟩

/-- Of two checks in a row the first too wide refuses, for one and the same reason. -/
theorem TooWideIff.bind {f : α → Except RefusalReason β} (h : TooWideIff x wide)
    (hf : ∀ a, TooWideIff (f a) wide') : TooWideIff (x >>= f) (wide ∨ wide') := by
  rcases h with ⟨hw, rfl⟩ | ⟨hw, a, rfl⟩
  · exact .inl ⟨.inl hw, rfl⟩
  · exact (hf a).congr (or_iff_right hw).symm

theorem TooWideIff.bind_ok (h : TooWideIff x wide) (g : α → β) :
    TooWideIff (x >>= fun a => .ok (g a)) wide := by
  rcases h with ⟨hw, rfl⟩ | ⟨hw, a, rfl⟩
  · exact .inl ⟨hw, rfl⟩
  · exact .inr ⟨hw, g a, rfl⟩

theorem TooWideIff.map (h : TooWideIff x wide) (g : α → β) : TooWideIff (x.map g) wide :=
  h.bind_ok g

/-- A frame whose operand is one record block is checked as its operand is. -/
theorem TooWideIff.decode {op : Byte} {f : α → Instr} {tk : Bytes → Option (Taken α)} {B : Bytes}
    (h : TooWideIff x wide) (hop : operandReader op = some fun B => asInstr f (tk B))
    (hB : tk B = some (x, [])) : TooWideIff (decode (op :: B)) wide := by
  rw [decode_cons_some hop, hB]
  exact h.map f

theorem TooWideIff.ite [Decidable wide] (h : TooWideIff x wide) :
    if wide then x = .error .operandTooWide else ∃ a, x = .ok a := by
  rcases h with ⟨hw, h⟩ | ⟨hw, h⟩
  · rwa [if_pos hw]
  · rwa [if_neg hw]

end TooWideIff

theorem narrow_tooWideIff (n : Nat) {m : Nat} (v : BitVec m) :
    TooWideIff (narrow n v) (2 ^ n ≤ v.toNat) := by
  unfold narrow
  split
  next h => exact .inr ⟨by omega, _, rfl⟩
  next h => exact .inl ⟨by omega, rfl⟩

/-- A byte below 2 is the Boolean whether it is 1 (R122). -/
theorem boolOfByte_eq (b : Byte) :
    boolOfByte b = if 2 ≤ b.toNat then .error .operandTooWide else .ok (b == 1) := by
  revert b; decide

theorem boolOfByte_tooWideIff (b : Byte) : TooWideIff (boolOfByte b) (2 ≤ b.toNat) := by
  rw [boolOfByte_eq]
  split
  next h => exact .inl ⟨h, rfl⟩
  next h => exact .inr ⟨h, _, rfl⟩

theorem phOfScalars_tooWideIff (v t f : Byte) (a : BitVec 16) (sf : Byte) (sc pdl : BitVec 16) :
    TooWideIff (phOfScalars v t f a sf sc pdl)
      (8 ≤ v.toNat ∨ 2 ≤ t.toNat ∨ 2 ≤ f.toNat ∨ 2048 ≤ a.toNat ∨ 4 ≤ sf.toNat ∨
        16384 ≤ sc.toNat) :=
  (narrow_tooWideIff 3 v).bind fun _ => (narrow_tooWideIff 1 t).bind fun _ =>
  (narrow_tooWideIff 1 f).bind fun _ => (narrow_tooWideIff 11 a).bind fun _ =>
  (narrow_tooWideIff 2 sf).bind fun _ => (narrow_tooWideIff 14 sc).bind_ok _

theorem channelOfScalars_tooWideIff (ch f : Byte) (n : BitVec 16) :
    TooWideIff (channelOfScalars ch f n) (4 ≤ f.toNat ∨ 16384 ≤ n.toNat) :=
  (narrow_tooWideIff 2 f).bind fun _ => (narrow_tooWideIff 14 n).bind_ok _

theorem shOfScalars_none_tooWideIff (time : TimeField) (t c n : Byte) :
    TooWideIff (shOfScalars time t c n none) (2 ≤ t.toNat ∨ 128 ≤ c.toNat) :=
  (narrow_tooWideIff 1 t).bind fun _ => (narrow_tooWideIff 7 c).bind_ok _

theorem shOfScalars_some_tooWideIff (time : TimeField) (t c n : Byte)
    {ch : Except RefusalReason AduChannel} {wide : Prop} (h : TooWideIff ch wide) :
    TooWideIff (shOfScalars time t c n (some ch)) (2 ≤ t.toNat ∨ 128 ≤ c.toNat ∨ wide) :=
  (narrow_tooWideIff 1 t).bind fun _ => (narrow_tooWideIff 7 c).bind fun _ => h.bind_ok _

/-- The bound on a big-endian scalar is one on its high byte, when a byte's weight divides it. -/
theorem le_u16_toNat_iff (k : Nat) (a b : Byte) :
    256 * k ≤ (a ++ b : BitVec 16).toNat ↔ k ≤ a.toNat := by
  have h := u16_toNat a b
  have := b.isLt
  omega

/-- The widths of a `PH` block, byte by byte. -/
theorem phOfBytes_tooWideIff (v t f a1 a0 sf c1 c0 : Byte) (pdl : BitVec 16) :
    TooWideIff (phOfScalars v t f (a1 ++ a0) sf (c1 ++ c0) pdl)
      (8 ≤ v.toNat ∨ 2 ≤ t.toNat ∨ 2 ≤ f.toNat ∨ 8 ≤ a1.toNat ∨ 4 ≤ sf.toNat ∨ 64 ≤ c1.toNat) := by
  simpa only [le_u16_toNat_iff 8 a1 a0, le_u16_toNat_iff 64 c1 c0, Nat.reduceMul] using
    phOfScalars_tooWideIff v t f (a1 ++ a0) sf (c1 ++ c0) pdl

/-- The widths of the 11-byte `SH` block, byte by byte. -/
theorem shOfBytes_some_tooWideIff (time : TimeField) (c n ch f k1 k0 : Byte) :
    TooWideIff (shOfScalars time 1 c n (some (channelOfScalars ch f (k1 ++ k0))))
      (128 ≤ c.toNat ∨ 4 ≤ f.toNat ∨ 64 ≤ k1.toNat) := by
  have h := channelOfScalars_tooWideIff ch f (k1 ++ k0)
  rw [le_u16_toNat_iff 64 k1 k0] at h
  exact (shOfScalars_some_tooWideIff time 1 c n h).congr (or_iff_right (by decide))

/-! #### Frames of a record block, byte by byte -/

theorem operandReader_ph {op : Byte} (h : op ∈ [0x10, 0x12, 0x13, 0x14, 0x15, 0x16]) :
    ∃ f, operandReader op = some fun B => asInstr f (takePh B) := by
  simp only [List.mem_cons, List.not_mem_nil, or_false] at h
  rcases h with rfl | rfl | rfl | rfl | rfl | rfl <;> exact ⟨_, rfl⟩

theorem operandReader_sh {op : Byte} (h : op ∈ [0x20, 0x22]) :
    ∃ f, operandReader op = some fun B => asInstr f (takeSh B) := by
  simp only [List.mem_cons, List.not_mem_nil, or_false] at h
  rcases h with rfl | rfl <;> exact ⟨_, rfl⟩

theorem operandReader_sp {op : Byte} (h : op ∈ [0x30, 0x32, 0x41, 0x51]) :
    ∃ f, operandReader op = some fun B => asInstr f (takeSp B) := by
  simp only [List.mem_cons, List.not_mem_nil, or_false] at h
  rcases h with rfl | rfl | rfl | rfl <;> exact ⟨_, rfl⟩

theorem takePh_bytes (v t f a1 a0 sf c1 c0 p1 p0 : Byte) (B : Bytes) :
    takePh (v :: t :: f :: a1 :: a0 :: sf :: c1 :: c0 :: p1 :: p0 :: B) =
      some (phOfScalars v t f (a1 ++ a0) sf (c1 ++ c0) (p1 ++ p0), B) := rfl

/-- The 7-byte `SH` block (log 15). -/
theorem takeSh_bytes_of_ne (t0 t1 t2 t3 c n : Byte) {ty : Byte} (h : ty ≠ 1) (B : Bytes) :
    takeSh (t0 :: t1 :: t2 :: t3 :: ty :: c :: n :: B) =
      some (shOfScalars ⟨t0, t1, t2, t3⟩ ty c n none, B) :=
  if_neg h

/-- The 11-byte `SH` block. -/
theorem takeSh_bytes_of_one (t0 t1 t2 t3 c n ch f k1 k0 : Byte) (B : Bytes) :
    takeSh (t0 :: t1 :: t2 :: t3 :: 1 :: c :: n :: ch :: f :: k1 :: k0 :: B) =
      some (shOfScalars ⟨t0, t1, t2, t3⟩ 1 c n (some (channelOfScalars ch f (k1 ++ k0))), B) := rfl

/-- Settles O5: the frame's one check is that of its `PH` block. -/
theorem widePrimaryScalarIsRefused : Obligations.WidePrimaryScalarIsRefused := by
  intro op hop v t f a1 a0 sf c1 c0 p1 p0
  obtain ⟨F, hF⟩ := operandReader_ph hop
  exact ((phOfBytes_tooWideIff v t f a1 a0 sf c1 c0 _).decode hF (takePh_bytes ..)).ite

/-- Settles O6: the frame's one check is that of its `SH` block, in either form, or of the Boolean
`watch`. -/
theorem wideSecondaryScalarIsRefused : Obligations.WideSecondaryScalarIsRefused := by
  refine ⟨fun op hop t0 t1 t2 t3 c n ch f k1 k0 => ?_,
    fun op hop t0 t1 t2 t3 ty c n hty => ?_, fun ch w => ?_⟩
  · obtain ⟨F, hF⟩ := operandReader_sh hop
    exact ((shOfBytes_some_tooWideIff _ c n ch f k1 k0).decode hF (takeSh_bytes_of_one ..)).ite
  · obtain ⟨F, hF⟩ := operandReader_sh hop
    exact ((shOfScalars_none_tooWideIff _ ty c n).decode hF
      (takeSh_bytes_of_ne t0 t1 t2 t3 c n hty [])).ite
  · have h : decode [0x40, ch, w] = (boolOfByte w).map (.saInit ch) := rfl
    rw [h, boolOfByte_eq]
    split <;> rfl

/-! #### Packet operands: reason 3 before reason 5 (R124, R125, R325) -/

/-- `x` is refused with reason 3 when `wide` holds, otherwise has a value when `agrees` holds, and
is otherwise refused with reason 5. -/
def PacketChecked {α : Type} (x : Except RefusalReason α) (wide agrees : Prop) : Prop :=
  (wide ∧ x = .error .operandTooWide) ∨ (¬wide ∧ agrees ∧ ∃ a, x = .ok a) ∨
    (¬wide ∧ ¬agrees ∧ x = .error .presenceMismatch)

section PacketChecked

variable {α β : Type} {x : Except RefusalReason α} {wide agrees : Prop}

/-- The only refusals of such a check are reasons 3 and 5. -/
theorem PacketChecked.ne_error (h : PacketChecked x wide agrees) {r : RefusalReason}
    (h3 : r ≠ .operandTooWide) (h5 : r ≠ .presenceMismatch) : x ≠ .error r := by
  rcases h with ⟨-, rfl⟩ | ⟨-, -, a, rfl⟩ | ⟨-, -, rfl⟩
  · rintro ⟨⟩
    exact h3 rfl
  · nofun
  · rintro ⟨⟩
    exact h5 rfl

/-- A check of widths alone. -/
theorem TooWideIff.packetChecked (h : TooWideIff x wide) : PacketChecked x wide True := by
  rcases h with ⟨hw, h⟩ | ⟨hw, h⟩
  · exact .inl ⟨hw, h⟩
  · exact .inr (.inl ⟨hw, trivial, h⟩)

theorem PacketChecked.map (h : PacketChecked x wide agrees) (g : α → β) :
    PacketChecked (x.map g) wide agrees := by
  rcases h with ⟨hw, rfl⟩ | ⟨hw, ha, a, rfl⟩ | ⟨hw, ha, rfl⟩
  · exact .inl ⟨hw, rfl⟩
  · exact .inr (.inl ⟨hw, ha, g a, rfl⟩)
  · exact .inr (.inr ⟨hw, ha, rfl⟩)

/-- A frame whose operand is one packet is checked as its operand is. -/
theorem PacketChecked.decode {op : Byte} {f : SpacePacket → Instr} {B : Bytes}
    {x : Except RefusalReason SpacePacket} (h : PacketChecked x wide agrees)
    (hop : operandReader op = some fun B => asInstr f (takeSp B)) (hB : takeSp B = some (x, [])) :
    PacketChecked (decode (op :: B)) wide agrees := by
  rw [decode_cons_some hop, hB]
  exact h.map f

theorem PacketChecked.ite [Decidable wide] [Decidable agrees] (h : PacketChecked x wide agrees) :
    if wide then x = .error .operandTooWide
    else if agrees then ∃ a, x = .ok a else x = .error .presenceMismatch := by
  rcases h with ⟨hw, h⟩ | ⟨hw, ha, h⟩ | ⟨hw, ha, h⟩
  · rwa [if_pos hw]
  · rwa [if_neg hw, if_pos ha]
  · rwa [if_neg hw, if_neg ha]

end PacketChecked

/-- Blocks whose widths are right give their packet when its presence agrees with the flag. -/
theorem spOfBlocks_packetChecked (x : SpacePacket) {wide agrees : Prop} (hw : ¬wide)
    (ha : (x.secondary.isSome = true ↔ x.primary.secondaryHeaderFlag = 1) ↔ agrees) :
    PacketChecked
      (spOfBlocks (.ok x.primary) (boolByte x.secondary.isSome) (x.secondary.map .ok) x.payload)
      wide agrees := by
  rw [spOfBlocks_of_packet, ← propext ha, ← wellFormed_iff]
  cases h : x.wellFormed
  · exact .inr (.inr ⟨hw, Bool.false_ne_true, rfl⟩)
  · exact .inr (.inl ⟨hw, rfl, x, rfl⟩)

section Blocks

variable {ph : Except RefusalReason PrimaryHeader} {widePh : Prop} (hph : TooWideIff ph widePh)

include hph

/-- Without an `SH` block the checks are those of the `PH` block and of the present byte. -/
theorem spOfBlocks_none_packetChecked {present : Byte} (hp : present ≠ 1) (payload : Bytes)
    {agrees : Prop} (ha : ∀ h, ph = .ok h → (h.secondaryHeaderFlag ≠ 1 ↔ agrees)) :
    PacketChecked (spOfBlocks ph present none payload) (widePh ∨ 2 ≤ present.toNat) agrees := by
  rcases hph with ⟨hw, rfl⟩ | ⟨hw, h, rfl⟩
  · exact .inl ⟨.inl hw, rfl⟩
  · rcases boolOfByte_tooWideIff present with ⟨hb, e⟩ | ⟨hb, b, e⟩
    · refine .inl ⟨.inr hb, ?_⟩
      rw [spOfBlocks, e]
      rfl
    · have h0 : present = 0 := by
        rw [boolOfByte_eq_ok] at e
        cases b
        · exact e
        · exact absurd e hp
      subst h0
      exact spOfBlocks_packetChecked ⟨h, none, payload⟩ (not_or.2 ⟨hw, hb⟩)
        (by simpa using ha h rfl)

/-- With an `SH` block the checks are those of the two headers. -/
theorem spOfBlocks_some_packetChecked {sh : Except RefusalReason SecondaryHeader} {wideSh : Prop}
    (hsh : TooWideIff sh wideSh) (payload : Bytes) {agrees : Prop}
    (ha : ∀ h, ph = .ok h → (h.secondaryHeaderFlag = 1 ↔ agrees)) :
    PacketChecked (spOfBlocks ph 1 (some sh) payload) (widePh ∨ wideSh) agrees := by
  rcases hph with ⟨hw, rfl⟩ | ⟨hw, h, rfl⟩
  · exact .inl ⟨.inl hw, rfl⟩
  · rcases hsh with ⟨hw', rfl⟩ | ⟨hw', s, rfl⟩
    · exact .inl ⟨.inr hw', rfl⟩
    · exact spOfBlocks_packetChecked ⟨h, some s, payload⟩ (not_or.2 ⟨hw, hw'⟩)
        (by simpa using ha h rfl)

end Blocks

/-- An `SP` block whose present byte is not 1 (log 15). -/
theorem takeSp_of_absent {B C rest payload : Bytes} {ph : Except RefusalReason PrimaryHeader}
    {present : Byte} (hph : takePh B = some (ph, present :: C)) (hp : present ≠ 1)
    (hs : takeSeq C = some (payload, rest)) :
    takeSp B = some (spOfBlocks ph present none payload, rest) := by
  have hp : ¬present = 1#8 := hp
  simp [takeSp, hph, takeU8, hp, hs]

/-- An `SP` block whose present byte is 1. -/
theorem takeSp_of_present {B C D rest payload : Bytes} {ph : Except RefusalReason PrimaryHeader}
    {sh : Except RefusalReason SecondaryHeader} (hph : takePh B = some (ph, 1 :: C))
    (hsh : takeSh C = some (sh, D)) (hs : takeSeq D = some (payload, rest)) :
    takeSp B = some (spOfBlocks ph 1 (some sh) payload, rest) := by
  simp [takeSp, hph, takeU8, hsh, hs]

/-- Below 2^32 bytes a `seq` is the result block of its bytes (R120). -/
theorem seqBlock_eq_seqResult {S : Bytes} (h : S.length < 2 ^ 32) : seqBlock S = seqResult S := by
  rw [seqBlock, seqLength, if_pos h]
  rfl

theorem takeSeq_seqResult {S : Bytes} (h : S.length < 2 ^ 32) :
    takeSeq (seqResult S) = some (S, []) :=
  takeSeq_eq_some.2 ⟨h, by rw [seqBlock_eq_seqResult h, List.append_nil]⟩

/-- Settles O60: the three forms of an `SP` block are checked alike, the widths of all its blocks
first; the header read has the flag of its byte. -/
theorem widePacketScalarIsRefusedBeforePresence :
    Obligations.WidePacketScalarIsRefusedBeforePresence := by
  intro op hop v t f a1 a0 sf c1 c0 p1 p0 present payload hl
  obtain ⟨F, hF⟩ := operandReader_sp hop
  have hph := phOfBytes_tooWideIff v t f a1 a0 sf c1 c0 (p1 ++ p0)
  have hseq := takeSeq_seqResult hl
  have flag : ∀ h, phOfScalars v t f (a1 ++ a0) sf (c1 ++ c0) (p1 ++ p0) = .ok h →
      (h.secondaryHeaderFlag ≠ 1 ↔ f = 0) ∧ (h.secondaryHeaderFlag = 1 ↔ f = 1) := by
    have bits : ∀ b : BitVec 1, (b ≠ 1 ↔ u8Of b = 0) ∧ (b = 1 ↔ u8Of b = 1) := by decide
    intro h hh
    obtain ⟨-, -, rfl, -⟩ := phOfScalars_eq_ok.1 hh
    exact bits _
  refine ⟨fun hp => ?_, fun t0 t1 t2 t3 ty c n => ⟨fun hty => ?_, fun ch g k1 k0 => ?_⟩⟩
  · exact ((spOfBlocks_none_packetChecked hph hp payload fun h hh => (flag h hh).1).decode hF
      (takeSp_of_absent (takePh_bytes ..) hp hseq)).ite
  · exact ((spOfBlocks_some_packetChecked hph (shOfScalars_none_tooWideIff _ ty c n) payload
      fun h hh => (flag h hh).2).decode hF (takeSp_of_present (takePh_bytes ..)
        (takeSh_bytes_of_ne t0 t1 t2 t3 c n hty _) hseq)).ite
  · exact ((spOfBlocks_some_packetChecked hph (shOfBytes_some_tooWideIff _ c n ch g k1 k0) payload
      fun h hh => (flag h hh).2).decode hF (takeSp_of_present (takePh_bytes ..)
        (takeSh_bytes_of_one t0 t1 t2 t3 c n ch g k1 k0 _) hseq)).ite

/-! #### What a frame is refused for (R126, R325) -/

/-- A `PH` block is refused for its widths only. -/
theorem takePh_tooWideIff {B rest : Bytes} {x : Except RefusalReason PrimaryHeader}
    (h : takePh B = some (x, rest)) : ∃ wide, TooWideIff x wide := by
  simp only [takePh, Option.bind_eq_bind, Option.bind_eq_some_iff, Prod.exists, Option.some.injEq,
    Prod.mk.injEq] at h
  obtain ⟨v, _, -, t, _, -, f, _, -, a, _, -, sf, _, -, sc, _, -, pdl, _, -, rfl, -⟩ := h
  exact ⟨_, phOfScalars_tooWideIff v t f a sf sc pdl⟩

/-- An `SH` block is refused for its widths only. -/
theorem takeSh_tooWideIff {B rest : Bytes} {x : Except RefusalReason SecondaryHeader}
    (h : takeSh B = some (x, rest)) : ∃ wide, TooWideIff x wide := by
  simp only [takeSh, Option.bind_eq_bind, Option.bind_eq_some_iff, Prod.exists] at h
  obtain ⟨time, _, -, t, _, -, c, _, -, n, _, -, h⟩ := h
  split at h
  · simp only [takeChannel, Option.bind_eq_bind, Option.bind_eq_some_iff, Prod.exists,
      Option.some.injEq, Prod.mk.injEq] at h
    obtain ⟨_, _, ⟨ch, _, -, f, _, -, k, _, -, rfl, -⟩, rfl, -⟩ := h
    exact ⟨_, shOfScalars_some_tooWideIff time t c n (channelOfScalars_tooWideIff ch f k)⟩
  · cases h
    exact ⟨_, shOfScalars_none_tooWideIff time t c n⟩

/-- An `SP` block is refused for its widths or its presence only. -/
theorem takeSp_packetChecked {B rest : Bytes} {x : Except RefusalReason SpacePacket}
    (h : takeSp B = some (x, rest)) : ∃ wide agrees, PacketChecked x wide agrees := by
  simp only [takeSp, Option.bind_eq_bind, Option.bind_eq_some_iff, Prod.exists] at h
  obtain ⟨ph, _, hph, present, _, -, h⟩ := h
  obtain ⟨widePh, hph⟩ := takePh_tooWideIff hph
  -- Presence agrees when it is what the flag of the header read says.
  have flag : ∀ (p : BitVec 1 → Prop) (k : PrimaryHeader), ph = .ok k →
      (p k.secondaryHeaderFlag ↔ ∀ k', ph = .ok k' → p k'.secondaryHeaderFlag) := by
    rintro p k hk
    exact ⟨fun hp k' hk' => Except.ok.inj (hk.symm.trans hk') ▸ hp, fun hp => hp k hk⟩
  split at h
  next hp =>
    subst hp
    simp only [Option.bind_eq_some_iff, Prod.exists, Option.some.injEq, Prod.mk.injEq] at h
    obtain ⟨sh, _, hsh, payload, _, -, rfl, -⟩ := h
    obtain ⟨wideSh, hsh⟩ := takeSh_tooWideIff hsh
    exact ⟨_, _, spOfBlocks_some_packetChecked hph hsh payload (flag (· = 1))⟩
  next hp =>
    simp only [Option.bind_eq_some_iff, Prod.exists, Option.some.injEq, Prod.mk.injEq] at h
    obtain ⟨payload, _, -, rfl, -⟩ := h
    exact ⟨_, _, spOfBlocks_none_packetChecked hph hp payload (flag (· ≠ 1))⟩

/-- An operand is refused for its widths or its presence only: one case per row of the map (R122),
grouped by the operand block. -/
theorem operandReader_packetChecked {op : Byte} {reader : Bytes → Option (Taken Instr)}
    (h : operandReader op = some reader) {B rest : Bytes} {x : Except RefusalReason Instr}
    (hx : reader B = some (x, rest)) : ∃ wide agrees, PacketChecked x wide agrees := by
  unfold operandReader at h
  split at h <;> cases h
  case h_3 | h_5 | h_6 | h_7 | h_8 | h_9 =>
    obtain ⟨y, hy, rfl⟩ := asInstr_eq_some.1 hx
    obtain ⟨wide, hw⟩ := takePh_tooWideIff hy
    exact ⟨_, _, hw.packetChecked.map _⟩
  case h_10 | h_12 =>
    obtain ⟨y, hy, rfl⟩ := asInstr_eq_some.1 hx
    obtain ⟨wide, hw⟩ := takeSh_tooWideIff hy
    exact ⟨_, _, hw.packetChecked.map _⟩
  case h_13 | h_15 | h_17 | h_20 =>
    obtain ⟨y, hy, rfl⟩ := asInstr_eq_some.1 hx
    obtain ⟨wide, agrees, hw⟩ := takeSp_packetChecked hy
    exact ⟨_, _, hw.map _⟩
  case h_16 =>
    simp only [takeSaInit, Option.bind_eq_bind, Option.bind_eq_some_iff, Prod.exists,
      Option.some.injEq, Prod.mk.injEq] at hx
    obtain ⟨k, _, -, w, _, -, rfl, -⟩ := hx
    exact ⟨_, _, ((boolOfByte_tooWideIff w).map _).packetChecked⟩
  case h_4 | h_14 | h_19 =>
    unfold takeSeqInstr at hx
    split at hx <;> cases hx
    exact ⟨_, _, (TooWideIff.ok _).packetChecked⟩
  case h_18 | h_21 | h_22 =>
    cases hx
    exact ⟨_, _, (TooWideIff.ok _).packetChecked⟩
  all_goals
    simp only [takeBfDecode, takeBfEncode, takeShDecode, Option.bind_eq_bind,
      Option.bind_eq_some_iff, Prod.exists, Option.some.injEq, Prod.mk.injEq] at hx
  case h_1 =>
    obtain ⟨_, _, -, _, _, -, _, _, -, rfl, -⟩ := hx
    exact ⟨_, _, (TooWideIff.ok _).packetChecked⟩
  case h_2 =>
    obtain ⟨_, _, -, _, _, -, _, _, -, _, _, -, rfl, -⟩ := hx
    exact ⟨_, _, (TooWideIff.ok _).packetChecked⟩
  case h_11 =>
    obtain ⟨_, _, -, _, _, -, rfl, -⟩ := hx
    exact ⟨_, _, (TooWideIff.ok _).packetChecked⟩

/-- How a frame with an assigned opcode ends: refused for its length when it does not end where its
operand block does, and otherwise checked as its operand is. -/
theorem decode_cases {op : Byte} {reader : Bytes → Option (Taken Instr)}
    (h : operandReader op = some reader) (B : Bytes) :
    (B.length ≠ operandSize op B ∧ decode (op :: B) = .error .badFrameLength) ∨
    (B.length = operandSize op B ∧
      ∃ wide agrees, PacketChecked (decode (op :: B)) wide agrees) := by
  rw [decode_cons_some h]
  rcases takes_operandReader h B with ⟨hle, x, hx⟩ | ⟨hlt, hx⟩ <;> rw [hx]
  · rcases hd : B.drop (operandSize op B) with _ | ⟨b, rest⟩
    · have := List.drop_eq_nil_iff.1 hd
      exact .inr ⟨by omega, operandReader_packetChecked h hx⟩
    · have := congrArg List.length hd
      simp only [List.length_drop, List.length_cons] at this
      exact .inl ⟨by omega, rfl⟩
  · exact .inl ⟨by omega, rfl⟩

/-- The map has a row for each of the 22 opcodes and for no other byte (R122). -/
theorem operandReader_eq_none_iff (op : Byte) : operandReader op = none ↔
    op.toNat ∉ [0x01, 0x02, 0x10, 0x11, 0x12, 0x13, 0x14, 0x15, 0x16, 0x20, 0x21, 0x22, 0x30, 0x31,
      0x32, 0x40, 0x41, 0x42, 0x50, 0x51, 0x52, 0x53] := by
  unfold operandReader
  split <;> simp_all

/-- Settles O4: only an opcode without a reader is refused with reason 1, the operand of any other
being refused for other reasons. -/
theorem unassignedOpcodeIsRefused : Obligations.UnassignedOpcodeIsRefused := by
  refine ⟨fun op rest => ?_, ?_⟩
  · rw [← operandReader_eq_none_iff]
    rcases h : operandReader op with _ | reader
    · exact ⟨fun _ => rfl, fun _ => decode_cons_none h⟩
    · simp only [reduceCtorEq, iff_false]
      rcases decode_cases h rest with ⟨-, e⟩ | ⟨-, _, _, hc⟩
      · rw [e]
        nofun
      · exact hc.ne_error nofun nofun
  · rw [decode, emptyFrameReason]
    cases Config.emptyFrameIsTruncated
    · exact .inl rfl
    · exact .inr rfl

/-! #### Cut frames (R126) -/

theorem getD_take (B : Bytes) (m k : Nat) :
    (B.take m).getD k 0 = if k < m then B.getD k 0 else 0 := by
  simp only [List.getD_eq_getElem?_getD, List.getElem?_take]
  split <;> rfl

/-- A `seq` that ends past byte `m` does so too when the bytes are cut there: either its length
field is cut too, or it is read as before. -/
theorem lt_seqSize_take {B : Bytes} {m k : Nat} (h : m < k + seqSize B k) :
    m < k + seqSize (B.take m) k := by
  by_cases hm : k + 3 < m
  · have e : seqSize (B.take m) k = seqSize B k := by
      have h0 : k < m := by omega
      have h1 : k + 1 < m := by omega
      have h2 : k + 2 < m := by omega
      simp only [seqSize, getD_take, h0, h1, h2, hm, if_true]
    rwa [e]
  · unfold seqSize
    omega

theorem seven_le_shSize (t : Byte) : 7 ≤ shSize t := by
  unfold shSize
  split <;> omega

theorem lt_shSize_take {B : Bytes} {m : Nat} (h : m < shSize (B.getD 4 0)) :
    m < shSize ((B.take m).getD 4 0) := by
  rw [getD_take]
  split
  · exact h
  · have := seven_le_shSize 0
    omega

theorem lt_spSize_take {B : Bytes} {m : Nat} (h : m < spSize B) : m < spSize (B.take m) := by
  simp only [spSize, getD_take] at h ⊢
  by_cases h10 : 10 < m
  · by_cases hp : B.getD 10 0 = 1
    · by_cases h15 : 15 < m
      · simp only [h10, h15, hp, if_true] at h ⊢
        exact lt_seqSize_take h
      · have := seven_le_shSize 0
        simp only [h10, h15, hp, if_true, if_false]
        omega
    · simp only [h10, hp, if_true, if_false] at h ⊢
      exact lt_seqSize_take h
  · omega

/-- An operand block that ends past byte `m` does so too when the bytes are cut there: one case per
kind of operand block (R122). -/
theorem lt_operandSize_take {op : Byte} {B : Bytes} {m : Nat} (h : m < operandSize op B) :
    m < operandSize op (B.take m) := by
  unfold operandSize at h ⊢
  split at h
  case h_1 | h_2 | h_14 => exact lt_seqSize_take h
  case h_3 | h_4 | h_5 =>
    rw [← Nat.zero_add (seqSize _ 0)] at h ⊢
    exact lt_seqSize_take h
  case h_12 | h_13 => exact lt_shSize_take h
  case h_15 | h_16 | h_17 | h_18 => exact lt_spSize_take h
  all_goals exact h

/-- Settles O3: a frame ends where its operand block does or is refused for its length. The block
of a well-formed command's frame ends at its last byte, so it ends past any cut. -/
theorem truncatedOrExtendedFrameIsRefused : Obligations.TruncatedOrExtendedFrameIsRefused := by
  have length_iff : ∀ {op reader}, operandReader op = some reader → ∀ B,
      decode (op :: B) = .error .badFrameLength ↔ B.length ≠ operandSize op B := by
    intro op reader h B
    rcases decode_cases h B with ⟨hl, e⟩ | ⟨hl, _, _, hc⟩
    · exact iff_of_true e hl
    · exact iff_of_false (hc.ne_error nofun nofun) (not_not.2 hl)
  refine ⟨fun op B hop => ?_, fun i hw => ⟨fun b tail => ?_, fun n h0 hn => ?_⟩⟩
  · rcases h : operandReader op with _ | reader
    · exact absurd hop ((operandReader_eq_none_iff op).1 h)
    · exact length_iff h B
  · rw [decode_encode_append hw]
    rfl
  · obtain ⟨reader, h⟩ := operandReader_opcode i
    have hsize : (operandBlock i).length = operandSize (opcode i) (operandBlock i) := by
      by_contra hne
      have e := (length_iff h _).2 hne
      rw [← encode, decodingAnEncodedCommandGivesItBack i hw] at e
      cases e
    obtain ⟨m, rfl⟩ := Nat.exists_eq_add_of_lt h0
    simp only [encode, List.length_cons, Nat.zero_add, List.take_succ_cons] at hn ⊢
    have := lt_operandSize_take (op := opcode i) (B := operandBlock i) (m := m) (by omega)
    rw [length_iff h, List.length_take]
    omega

/-- Settles O8: each frame is that of its command, as the layouts of R120 to R122 write it. -/
theorem writtenFramesDecode : Obligations.WrittenFramesDecode := by
  have written : ∀ {f i}, i.wellFormed = true → encode i = f → decode f = .ok i := by
    rintro f i hw rfl
    exact decodingAnEncodedCommandGivesItBack i hw
  exact ⟨written rfl (by decide), written rfl (by decide), written rfl (by decide),
    written rfl (by decide), written rfl (by decide), written rfl (by decide)⟩

/-! #### Refused packet operands (R125, R252, R294) -/

/-- A packet that is not well formed is refused before the command runs (log 14). -/
theorem withPacket_of_not_wellFormed {x : SpacePacket} (h : x.wellFormed = false) (b : Block)
    (run : Block × Reply) : withPacket x b run = (b, .error (.refuse .presenceMismatch)) :=
  if_neg (by rw [presenceAgrees_eq_wellFormed, h]; exact Bool.false_ne_true)

theorem withPacket_of_wellFormed {x : SpacePacket} (h : x.wellFormed = true) (b : Block)
    (run : Block × Reply) : withPacket x b run = run :=
  if_pos h

/-- No secondary header, or one of type 0: no ADU channel (R252). -/
theorem aduChannel_eq_none {x : SpacePacket}
    (h : x.secondary = none ∨ ∃ s, x.secondary = some s ∧ s.channel = none) :
    aduChannel x = none := by
  rcases h with h | ⟨s, h, hc⟩
  · rw [aduChannel, h]
  · rw [aduChannel, h]
    exact hc

theorem accPush_of_noChannel {x : SpacePacket} (h : aduChannel x = none) (a : Accumulator) :
    accPush a x = none := by
  rw [accPush, h]

theorem rsPush_of_noChannel {x : SpacePacket} (h : aduChannel x = none) (b : Block) :
    rsPush x b = (b, .error (.refuse .noAduChannel)) := by
  rw [rsPush, h]

/-- Settles O38: SA_PUSH checks presence, then the accumulator, then the channel; SA_FINALIZE the
accumulator. -/
theorem saRefusesInOrder : Obligations.SaRefusesInOrder := by
  intro s x
  refine ⟨fun hw => ?_, fun hs => ⟨?_, fun hw => ?_⟩, fun a hs hw hc => ?_⟩
  · exact refusedWith_of_outcome (r := .presenceMismatch) (withPacket_of_not_wellFormed hw ..)
  · apply refusedWith_of_outcome (r := .noAccumulator)
    rw [commandOutcome, saFinalize, hs]
  · apply refusedWith_of_outcome (r := .noAccumulator)
    rw [commandOutcome, withPacket_of_wellFormed hw, saPush, hs]
  · apply refusedWith_of_outcome (r := .noAduChannel)
    rw [commandOutcome, withPacket_of_wellFormed hw, saPush, hs]
    simp only [accPush_of_noChannel (aduChannel_eq_none hc)]

/-- Settles O45: both pushes come to `RSPush`, which checks the channel first; only the packet
operand has a presence to check. -/
theorem rsRefusesPacketsWithoutChannel : Obligations.RsRefusesPacketsWithoutChannel := by
  intro s x
  refine ⟨fun hw => ?_, fun hw hc => ⟨?_, fun B hB => ?_⟩⟩
  · exact refusedWith_of_outcome (r := .presenceMismatch) (withPacket_of_not_wellFormed hw ..)
  · apply refusedWith_of_outcome (r := .noAduChannel)
    rw [commandOutcome, withPacket_of_wellFormed hw, rsPush_of_noChannel (aduChannel_eq_none hc)]
  · apply refusedWith_of_outcome (r := .noAduChannel)
    rw [commandOutcome, rsPushBytes, hB]
    exact rsPush_of_noChannel (aduChannel_eq_none hc) s.st

/-- Settles O32: the reply is the presence, once it agrees with the flag. -/
theorem spHasSecondaryAnswersPresence : Obligations.SpHasSecondaryAnswersPresence := by
  intro s x
  rw [← wellFormed_iff]
  constructor
  · intro hw
    have hv : boolByte x.secondary.isSome = if x.secondary = none then 0 else 1 := by
      rcases x.secondary with _ | h <;> rfl
    rw [← hv]
    exact answersOk_of_outcome (congrArg (s.st, ·) (if_pos hw))
  · intro hw
    exact refusedWith_of_outcome (r := .presenceMismatch) (congrArg (s.st, ·) (if_neg hw))

/-! #### Fields as bit vectors (R151) -/

theorem ofNat_field_getMsbD (B : Bytes) (off w i : Nat) :
    (BitVec.ofNat w (field B off w)).getMsbD i =
      (decide (i < w) && (B.getD ((off + i) / 8) 0).getMsbD ((off + i) % 8)) := by
  rw [BitVec.getMsbD_eq_getLsbD, BitVec.getLsbD_ofNat]
  by_cases hi : i < w
  · have hlt : w - 1 - i < w := by omega
    rw [field_testBit _ _ _ _ hi, bit_eq_getMsbD]
    cases (B.getD ((off + i) / 8) 0).getMsbD ((off + i) % 8) <;> simp [hi, hlt]
  · simp [hi]

/-- A field inside one byte is that byte cut. -/
theorem ofNat_field_of_byte (B : Bytes) (off w : Nat) (h : off % 8 + w ≤ 8) :
    BitVec.ofNat w (field B off w) = (B.getD (off / 8) 0).extractLsb' (8 - off % 8 - w) w := by
  apply BitVec.eq_of_getMsbD_eq
  intro i hi
  rw [ofNat_field_getMsbD, BitVec.getMsbD_extractLsb']
  have h1 : (off + i) / 8 = off / 8 := by omega
  have h2 : 8 - (8 - off % 8 - w + w - i) = (off + i) % 8 := by omega
  have h3 : 8 - off % 8 - w + w - i ≤ 8 := by omega
  rw [h1, h2, decide_eq_true h3, Bool.true_and]

/-- A field in two parts is the one before the other. -/
theorem ofNat_field_add (B : Bytes) (off v w : Nat) :
    BitVec.ofNat (v + w) (field B off (v + w)) =
      BitVec.ofNat v (field B off v) ++ BitVec.ofNat w (field B (off + v) w) := by
  apply BitVec.eq_of_getMsbD_eq
  intro i hi
  rw [BitVec.getMsbD_append, ofNat_field_getMsbD, ofNat_field_getMsbD, ofNat_field_getMsbD]
  split
  next h =>
    have h1 : off + v + (i - v) = off + i := by omega
    have h2 : i - v < w := by omega
    simp only [h1, h2, hi]
  next h =>
    have h1 : i < v := by omega
    simp only [h1, hi]

/-! #### Headers read (R106) -/

theorem phField_eq_phOfWire (b0 b1 b2 b3 b4 b5 : Byte) (rest : Bytes) :
    phField (b0 :: b1 :: b2 :: b3 :: b4 :: b5 :: rest) = phOfWire b0 b1 b2 b3 b4 b5 := by
  generalize hB : b0 :: b1 :: b2 :: b3 :: b4 :: b5 :: rest = B
  have apid := ofNat_field_add B 5 3 8
  have count := ofNat_field_add B 18 6 8
  have length := ofNat_field_add B 32 8 8
  simp only [phField, Nat.reduceAdd] at apid count length ⊢
  rw [apid, count, length]
  simp (disch := decide) only [ofNat_field_of_byte, Nat.reduceMod, Nat.reduceDiv, Nat.reduceSub,
    BitVec.extractLsb'_eq_self]
  subst hB
  rfl

/-- The type bit of a secondary header: bit 7 of byte 4 (R104). -/
theorem field_type (B : Bytes) : field B 32 1 = ((B.getD 4 0).getLsbD 7).toNat := by
  rw [field_succ, field_zero, bit_eq_getMsbD, Nat.mul_zero, Nat.zero_add]
  rfl

theorem shField_eq_sh6OfWire (t0 t1 t2 t3 b5 : Byte) {b4 : Byte} (h : b4.getLsbD 7 = false)
    (rest : Bytes) :
    shField (t0 :: t1 :: t2 :: t3 :: b4 :: b5 :: rest) = sh6OfWire t0 t1 t2 t3 b4 b5 := by
  generalize hB : t0 :: t1 :: t2 :: t3 :: b4 :: b5 :: rest = B
  have ht : field B 32 1 = 0 := by
    rw [field_type, ← hB]
    exact congrArg Bool.toNat h
  simp (disch := decide) only [shField, ht, ofNat_field_of_byte, Nat.reduceMod, Nat.reduceDiv,
    Nat.reduceSub, BitVec.extractLsb'_eq_self, Nat.zero_ne_one, if_false]
  subst hB
  rfl

theorem shField_eq_sh9OfWire (t0 t1 t2 t3 b5 b6 b7 b8 : Byte) {b4 : Byte} (h : b4.getLsbD 7 = true)
    (rest : Bytes) : shField (t0 :: t1 :: t2 :: t3 :: b4 :: b5 :: b6 :: b7 :: b8 :: rest) =
      sh9OfWire t0 t1 t2 t3 b4 b5 b6 b7 b8 := by
  generalize hB : t0 :: t1 :: t2 :: t3 :: b4 :: b5 :: b6 :: b7 :: b8 :: rest = B
  have ht : field B 32 1 = 1 := by
    rw [field_type, ← hB]
    exact congrArg Bool.toNat h
  have count := ofNat_field_add B 58 6 8
  simp only [Nat.reduceAdd] at count
  simp (disch := decide) only [shField, ht, count, ofNat_field_of_byte, Nat.reduceMod,
    Nat.reduceDiv, Nat.reduceSub, BitVec.extractLsb'_eq_self, if_true]
  subst hB
  rfl

/-- SH_DECODE of bytes that begin with a header of type 0, whatever `length` beyond 6 (R203). -/
theorem shDecode_eq_sh6OfWire (t0 t1 t2 t3 b5 : Byte) {b4 : Byte} (h : b4.getLsbD 7 = false)
    {n : Nat} {rest : Bytes} (h6 : 6 ≤ n) (hn : n ≤ 6 + rest.length) :
    shDecode n (t0 :: t1 :: t2 :: t3 :: b4 :: b5 :: rest) =
      .ok (sh6OfWire t0 t1 t2 t3 b4 b5) := by
  obtain ⟨k, rfl⟩ := Nat.exists_eq_add_of_le' h6
  have ht : field (t0 :: t1 :: t2 :: t3 :: b4 :: b5 :: rest) 32 1 = 0 :=
    (field_type _).trans (congrArg Bool.toNat h)
  rw [shDecode, if_neg (by simp only [List.length_cons]; omega), if_neg (by omega),
    if_neg (by omega)]
  exact congrArg _ (shField_eq_sh6OfWire t0 t1 t2 t3 b5 h (rest.take k))

/-- SH_DECODE of bytes that begin with a header of type 1, whatever `length` beyond 9 (R203). -/
theorem shDecode_eq_sh9OfWire (t0 t1 t2 t3 b5 b6 b7 b8 : Byte) {b4 : Byte}
    (h : b4.getLsbD 7 = true) {n : Nat} {rest : Bytes} (h9 : 9 ≤ n) (hn : n ≤ 9 + rest.length) :
    shDecode n (t0 :: t1 :: t2 :: t3 :: b4 :: b5 :: b6 :: b7 :: b8 :: rest) =
      .ok (sh9OfWire t0 t1 t2 t3 b4 b5 b6 b7 b8) := by
  obtain ⟨k, rfl⟩ := Nat.exists_eq_add_of_le' h9
  rw [shDecode, if_neg (by simp only [List.length_cons]; omega), if_neg (by omega),
    if_neg (by omega)]
  exact congrArg _ (shField_eq_sh9OfWire t0 t1 t2 t3 b5 b6 b7 b8 h (rest.take k))

theorem flag_phOfWire (b0 b1 b2 b3 b4 b5 : Byte) :
    (phOfWire b0 b1 b2 b3 b4 b5).secondaryHeaderFlag = 1 ↔ b0.getLsbD 3 = true := by
  change b0.extractLsb' 3 1 = 1 ↔ _
  revert b0
  decide

/-- SP_DECODE of a packet without a secondary header (R228). -/
theorem spDecode_of_flag_zero {b0 : Byte} (b1 b2 b3 b4 b5 : Byte) (h : b0.getLsbD 3 = false)
    (rest : Bytes) : spDecode (b0 :: b1 :: b2 :: b3 :: b4 :: b5 :: rest) =
      .ok ⟨phOfWire b0 b1 b2 b3 b4 b5, none, rest⟩ := by
  have hph : phField ((b0 :: b1 :: b2 :: b3 :: b4 :: b5 :: rest).take 6) = _ :=
    phField_eq_phOfWire b0 b1 b2 b3 b4 b5 []
  rw [spDecode, if_neg (by simp only [List.length_cons]; omega), hph]
  exact if_neg (by rw [flag_phOfWire, h]; exact Bool.false_ne_true)

/-- SP_DECODE of a packet with a secondary header (R228). -/
theorem spDecode_of_flag_one {b0 : Byte} (b1 b2 b3 b4 b5 : Byte) (h : b0.getLsbD 3 = true)
    {rest : Bytes} {sh : SecondaryHeader} (hsh : shDecode rest.length rest = .ok sh) :
    spDecode (b0 :: b1 :: b2 :: b3 :: b4 :: b5 :: rest) =
      .ok ⟨phOfWire b0 b1 b2 b3 b4 b5, some sh, rest.drop (shLen sh)⟩ := by
  have hph : phField ((b0 :: b1 :: b2 :: b3 :: b4 :: b5 :: rest).take 6) = _ :=
    phField_eq_phOfWire b0 b1 b2 b3 b4 b5 []
  have hdrop : (b0 :: b1 :: b2 :: b3 :: b4 :: b5 :: rest).drop 6 = rest := rfl
  rw [spDecode, if_neg (by simp only [List.length_cons]; omega), hph]
  simp only [(flag_phOfWire b0 b1 b2 b3 b4 b5).2 h, if_true, hdrop, hsh, ← List.drop_drop]

/-! #### Results (R121) -/

theorem u16Of_apid (a : BitVec 11) : u16Of a = [0#5 ++ a.extractLsb' 8 3, a.extractLsb' 0 8] := by
  have across := extractLsb'_append_across (i := 5) (j := 3) (k := 8) 0#5 a rfl
  rw [BitVec.extractLsb'_eq_self] at across
  rw [u16Of, BitVec.setWidth_eq_append (by decide)]
  exact congrArg₂ (fun x y => [x, y]) across (BitVec.extractLsb'_append_eq_of_add_le (by decide))

theorem u16Of_count (c : BitVec 14) :
    u16Of c = [0#2 ++ c.extractLsb' 8 6, c.extractLsb' 0 8] := by
  have across := extractLsb'_append_across (i := 2) (j := 6) (k := 8) 0#2 c rfl
  rw [BitVec.extractLsb'_eq_self] at across
  rw [u16Of, BitVec.setWidth_eq_append (by decide)]
  exact congrArg₂ (fun x y => [x, y]) across (BitVec.extractLsb'_append_eq_of_add_le (by decide))

theorem phBlock_eq_phResult (h : PrimaryHeader) : phBlock h = phResult h := by
  rw [phBlock, u16Of_apid, u16Of_count]
  simp [phResult, u8Of, u16Of, u16Bytes, BitVec.setWidth_eq_append]

theorem shBlock_eq_shResult (h : SecondaryHeader) : shBlock h = shResult h := by
  rcases hc : h.channel with _ | c
  · simp [shBlock, shResult, hc, SecondaryHeader.secondaryHeaderType, TimeField.bytes, u8Of,
      BitVec.setWidth_eq_append]
  · simp [shBlock, shResult, hc, channelBlock, u16Of_count, SecondaryHeader.secondaryHeaderType,
      TimeField.bytes, u8Of, BitVec.setWidth_eq_append]

theorem spBlock_eq_spResult {x : SpacePacket} (h : x.payload.length < 2 ^ 32) :
    spBlock x = spResult x := by
  rcases hs : x.secondary with _ | s
  · simp [spBlock, spResult, hs, phBlock_eq_phResult, seqBlock_eq_seqResult h, boolByte]
  · simp [spBlock, spResult, hs, phBlock_eq_phResult, shBlock_eq_shResult,
      seqBlock_eq_seqResult h, boolByte]

/-- Settles O17: six bytes spell the header that the codec reads field by field; fewer are
`MalformedHeader`. -/
theorem phDecodeAnswersTheFields : Obligations.PhDecodeAnswersTheFields := by
  refine fun s => ⟨fun b0 b1 b2 b3 b4 b5 rest => ?_, fun B hB => ?_⟩
  · rw [← phBlock_eq_phResult, ← phField_eq_phOfWire b0 b1 b2 b3 b4 b5 []]
    apply answersOk_of_outcome
    rw [commandOutcome, phDecodeReply, if_neg (by simp only [List.length_cons]; omega)]
    rfl
  · have h : commandOutcome (.phDecode B) s.st = (s.st, .error (raised .malformedHeader)) := by
      rw [commandOutcome, phDecodeReply, if_pos hB]
    exact answers_of_outcome h

/-- Settles O22: SH_DECODE reads the form that bit 7 of byte 4 selects. -/
theorem shDecodeAnswersTheFields : Obligations.ShDecodeAnswersTheFields := by
  intro s length t0 t1 t2 t3 b4 b5 rest hl
  refine ⟨fun hb h6 => ?_, ?_⟩
  · rw [← shBlock_eq_shResult]
    apply answersOk_of_outcome
    rw [commandOutcome, shDecode_eq_sh6OfWire t0 t1 t2 t3 b5 hb h6 hl]
    rfl
  · rintro b6 b7 b8 more rfl hb h9
    simp only [List.length_cons] at hl
    rw [← shBlock_eq_shResult]
    apply answersOk_of_outcome
    rw [commandOutcome, shDecode_eq_sh9OfWire t0 t1 t2 t3 b5 b6 b7 b8 hb h9 (by omega)]
    rfl

/-- A buffer that decodes to a packet whose payload has a `u32` length answers its result block. -/
theorem answersOk_spDecode {s : State} {B : Bytes} {x : SpacePacket} (h : spDecode B = .ok x)
    (hx : x.payload.length < 2 ^ 32) : AnswersOk (.spDecode B) s s.st (spResult x) := by
  rw [← spBlock_eq_spResult hx]
  apply answersOk_of_outcome
  rw [commandOutcome, h]
  rfl

/-- Settles O28: the flag selects whether a secondary header is read, its type bit which form of it;
the payload is what is left. -/
theorem spDecodeAnswersTheParts : Obligations.SpDecodeAnswersTheParts := by
  intro s b0 b1 b2 b3 b4 b5 rest hl
  refine ⟨fun hf => ?_, ?_, ?_⟩
  · exact answersOk_spDecode (spDecode_of_flag_zero b1 b2 b3 b4 b5 hf rest) hl
  · rintro hf t0 t1 t2 t3 c n payload hc rfl
    have hsh := shDecode_eq_sh6OfWire t0 t1 t2 t3 n hc (Nat.le_add_right 6 payload.length) le_rfl
    rw [Nat.add_comm] at hsh
    refine answersOk_spDecode (spDecode_of_flag_one b1 b2 b3 b4 b5 hf hsh) (lt_of_le_of_lt ?_ hl)
    exact Nat.le_add_right payload.length 6
  · rintro hf t0 t1 t2 t3 c n k f g payload hc rfl
    have hsh := shDecode_eq_sh9OfWire t0 t1 t2 t3 n k f g hc (Nat.le_add_right 9 payload.length)
      le_rfl
    rw [Nat.add_comm] at hsh
    refine answersOk_spDecode (spDecode_of_flag_one b1 b2 b3 b4 b5 hf hsh) (lt_of_le_of_lt ?_ hl)
    exact Nat.le_add_right payload.length 9

/-! #### The bytes of a secondary header (R102, R103, 42_secondary_header.md R201) -/

theorem bit_append (A B : Bytes) (p : Nat) :
    bit (A ++ B) p = if p < 8 * A.length then bit A p else bit B (p - 8 * A.length) := by
  simp only [bit_eq_getMsbD]
  split
  next h => rw [List.getD_append _ _ _ _ (by omega)]
  next h =>
    have hi : p / 8 - A.length = (p - 8 * A.length) / 8 := by omega
    have hj : p % 8 = (p - 8 * A.length) % 8 := by omega
    rw [List.getD_append_right _ _ _ _ (by omega), hi, hj]

/-- A write past the first bytes keeps them, and is a write of the rest. -/
theorem setField_append (A B : Bytes) (off w v : Nat) :
    setField (A ++ B) (8 * A.length + off) w v = A ++ setField B off w v := by
  apply bytes_ext (by simp)
  intro p hp
  simp only [List.length_append, setField_length] at hp
  rw [bit_setField _ _ _ _ _ (by simpa using hp), bit_append, bit_append]
  by_cases h : p < 8 * A.length
  · rw [if_pos h, if_pos h, if_neg (by omega)]
  · obtain ⟨q, rfl⟩ := Nat.exists_eq_add_of_le (Nat.le_of_not_lt h)
    rw [if_neg h, if_neg h, Nat.add_sub_cancel_left, bit_setField _ _ _ _ _ (by omega)]
    simp only [Nat.add_assoc, Nat.add_le_add_iff_left, Nat.add_lt_add_iff_left,
      Nat.add_sub_add_left]

/-- The two bytes after the time field: the type bit, the category and the ADU count. -/
theorem setField_type_category_count (t : BitVec 1) (c : BitVec 7) (n : BitVec 8) :
    setField (setField (setField [0, 0] 0 1 t.toNat) 1 7 c.toNat) 8 8 n.toNat = [t ++ c, n] := by
  have h := ((beginsWith_setField_zero (B := [0, 0]) t (by simp)).setField c (by simp)).setField n
    (by simp)
  refine (h.eq_bytes (k := 2) (by simp)).trans ?_
  simp (disch := decide) only [-Nat.reduceAdd, List.range_succ, List.range_zero,
    List.nil_append, List.cons_append, List.map_cons, List.map_nil, Nat.reduceSub, Nat.reduceMul,
    BitVec.extractLsb'_append_eq_of_le, BitVec.extractLsb'_append_eq_of_add_le]
  exact congrArg₂ (fun x y => [x, y]) BitVec.extractLsb'_eq_self BitVec.extractLsb'_eq_self

/-- The three bytes of a channel triple: the channel, the segment flag and the segment count. -/
theorem setField_channel_flag_count (k : BitVec 8) (f : BitVec 2) (n : BitVec 14) :
    setField (setField (setField [0, 0, 0] 0 8 k.toNat) 8 2 f.toNat) 10 14 n.toNat =
      [k, f ++ n.extractLsb' 8 6, n.extractLsb' 0 8] := by
  have h := ((beginsWith_setField_zero (B := [0, 0, 0]) k (by simp)).setField f
    (by simp)).setField n (by simp)
  refine (h.eq_bytes (k := 3) (by simp)).trans ?_
  simp (disch := decide) only [-Nat.reduceAdd, List.range_succ, List.range_zero,
    List.nil_append, List.cons_append, List.map_cons, List.map_nil, Nat.reduceSub, Nat.reduceMul,
    BitVec.extractLsb'_append_eq_of_le, BitVec.extractLsb'_append_eq_of_add_le]
  rw [extractLsb'_append_across (i := 2) (j := 6) _ _ rfl, BitVec.extractLsb'_append_eq_right,
    BitVec.extractLsb'_eq_self]

theorem shCommonBytes_eq (h : SecondaryHeader) :
    shCommonBytes h = h.time.bytes ++ [h.secondaryHeaderType ++ h.category, h.aduCount] := by
  rw [← setField_type_category_count, ← setField_append, ← setField_append, ← setField_append]
  rfl

/-- What the codec writes field by field is the wire layout (R102, R103, R201). -/
theorem shBytes_eq_shWire (h : SecondaryHeader) : shBytes h = shWire h := by
  rcases hc : h.channel with _ | c
  · simp [shBytes, shWire, hc, shCommonBytes_eq, SecondaryHeader.secondaryHeaderType,
      TimeField.bytes]
  · have hl : (shCommonBytes h).length = 6 := by simp [shCommonBytes, TimeField.bytes]
    have h9 : shBytes h = shCommonBytes h ++ [c.aduChannelId,
        c.aduSegmentFlag ++ c.aduSegmentCount.extractLsb' 8 6,
        c.aduSegmentCount.extractLsb' 0 8] := by
      rw [← setField_channel_flag_count, ← setField_append, ← setField_append, ← setField_append,
        hl, shBytes, hc]
    rw [h9]
    simp [shWire, hc, shCommonBytes_eq, SecondaryHeader.secondaryHeaderType, TimeField.bytes]

/-- Settles O21: the bytes written field by field are the wire layout, far shorter than a `seq` can
be. -/
theorem shEncodeAnswersTheWireLayout : Obligations.ShEncodeAnswersTheWireLayout := by
  intro s h
  have hl : (shWire h).length = if h.channel.isSome then 9 else 6 := by
    rcases hc : h.channel with _ | c <;> simp [shWire, hc]
  refine ⟨?_, hl⟩
  have hlt : (shWire h).length < 2 ^ 32 := by
    rw [hl]
    split <;> decide
  rw [← seqBlock_eq_seqResult hlt, ← shBytes_eq_shWire]
  exact answersOk_of_outcome rfl

end Sys2Proof.Machine

/-! ### Proofs: the bit field codec (40_bitfield.md)

A field reads as its wire bits; a write puts the value's bits in them and keeps the others, from which
the laws of R156 follow bit by bit. -/

namespace Sys2Proof.Machine

/-! #### The bits of a field and of a write (R151, R153) -/

/-- Bit `w − 1 − i` of a field, as a bit of the byte it lies in (R150, R151). -/
theorem field_testBit_eq_getMsbD (B : Bytes) {off w i : Nat} (hi : i < w) :
    (field B off w).testBit (w - 1 - i) = (B.getD ((off + i) / 8) 0).getMsbD ((off + i) % 8) := by
  rw [field_testBit B off w i hi, bit_eq_getMsbD]
  cases (B.getD ((off + i) / 8) 0).getMsbD ((off + i) % 8) <;> rfl

theorem field_testBit_of_le (B : Bytes) (off : Nat) {w j : Nat} (hj : w ≤ j) :
    (field B off w).testBit j = false :=
  Nat.testBit_lt_two_pow ((field_lt B off w).trans_le (Nat.pow_le_pow_right Nat.two_pos hj))

/-- The bits after a write, each as a bit of the byte it lies in. -/
theorem setField_getMsbD (B : Bytes) (off w v : Nat) {p : Nat} (hp : p < 8 * B.length) :
    ((setField B off w v).getD (p / 8) 0).getMsbD (p % 8) =
      if off ≤ p ∧ p < off + w then v.testBit (w - 1 - (p - off))
      else (B.getD (p / 8) 0).getMsbD (p % 8) := by
  apply Function.LeftInverse.injective Bool.ofNat_toNat
  rw [← bit_eq_getMsbD, ← bitAfterSet_eq_toNat]
  exact bit_setField B off w v p hp

/-- Bit `i` of the field, as a write of its value puts it back. -/
theorem field_shiftRight_and_one (B : Bytes) {off w i : Nat} (hi : i < w) :
    (field B off w >>> (w - 1 - i)) &&& 1 = bit B (off + i) := by
  rw [and_one_eq_testBit, field_testBit_eq_getMsbD B hi, bit_eq_getMsbD]

/-! #### The laws of R156 -/

theorem field_setField_self {B : Bytes} {off w v : Nat} (hl : off + w ≤ 8 * B.length)
    (hv : v < 2 ^ w) : field (setField B off w v) off w = v :=
  field_eq_of_bits hv fun i hi => by
    rw [bit_setField _ _ _ _ _ (by omega), if_pos (by omega), Nat.add_sub_cancel_left]

theorem setField_field_self (B : Bytes) (off w : Nat) :
    setField B off w (field B off w) = B := by
  apply bytes_ext (setField_length ..)
  intro p hp
  rw [bit_setField _ _ _ _ _ hp]
  split
  next h => rw [field_shiftRight_and_one B (by omega), Nat.add_sub_cancel' h.1]
  next => rfl

theorem field_setField_of_disjoint (B : Bytes) {off w off' w' : Nat} (v : Nat)
    (h : off + w ≤ off' ∨ off' + w' ≤ off) :
    field (setField B off w v) off' w' = field B off' w' :=
  field_congr fun i _ => bit_setField_of_not_mem B off w v (off' + i) (by omega)

/-- A bit lies in one of the two fields at most, so the write that comes second leaves the other's
bits as they are. -/
theorem setField_comm_of_disjoint (B : Bytes) {off w off' w' : Nat} (v v' : Nat)
    (h : off + w ≤ off' ∨ off' + w' ≤ off) :
    setField (setField B off w v) off' w' v' = setField (setField B off' w' v') off w v := by
  apply bytes_ext (by simp only [setField_length])
  intro p hp
  simp only [setField_length] at hp
  simp only [bit_setField, setField_length, hp]
  by_cases h' : off' ≤ p ∧ p < off' + w'
  · rw [if_pos h', if_pos h', if_neg (by omega)]
  · rw [if_neg h', if_neg h']

/-! #### Admissible operands (R152) -/

theorem bfInBounds_iff {off w : Nat} {B : Bytes} :
    bfInBounds off w B = true ↔ 1 ≤ w ∧ w ≤ 16 ∧ off + w ≤ 8 * B.length := by
  simp only [bfInBounds, Bool.and_eq_true, decide_eq_true_iff, and_assoc]

theorem bfAdmitsValue_iff {off w v : Nat} {B : Bytes} :
    bfAdmitsValue off w v B = true ↔
      1 ≤ w ∧ w ≤ 16 ∧ off + w ≤ 8 * B.length ∧ v < 2 ^ w := by
  simp only [bfAdmitsValue, Bool.and_eq_true, bfInBounds_iff, decide_eq_true_iff, and_assoc]

/-! #### The statements -/

/-- Settles O12: the answer is the field, and each of its bits is a wire bit (R151). -/
theorem bfDecodeReadsTheField : Obligations.BfDecodeReadsTheField := by
  intro s off w B h1 h16 hl
  refine ⟨BitVec.ofNat 16 (field B off.toNat w.toNat), ?_, fun i hi => ?_, fun j hj => ?_⟩
  · exact answersOk_of_outcome (congrArg (s.st, ·) (if_pos (bfInBounds_iff.2 ⟨h1, h16, hl⟩)))
  · have hlt : w.toNat - 1 - i < 16 := by omega
    rw [BitVec.getLsbD_ofNat, decide_eq_true hlt, Bool.true_and, field_testBit_eq_getMsbD B hi]
  · rw [BitVec.getLsbD_ofNat, field_testBit_of_le B off.toNat hj, Bool.and_false]

/-- Settles O13: the answer is the written sequence, whose bits `setField_getMsbD` gives. -/
theorem bfEncodeWritesTheField : Obligations.BfEncodeWritesTheField := by
  intro s off w v B hB h1 h16 hl hv
  refine ⟨setField B off.toNat w.toNat v.toNat, ?_, setField_length .., fun p hp => ?_⟩
  · rw [← seqBlock_eq_seqResult (by rwa [setField_length])]
    exact answersOk_of_outcome (congrArg (s.st, ·) (if_pos (bfAdmitsValue_iff.2 ⟨h1, h16, hl, hv⟩)))
  · exact setField_getMsbD B off.toNat w.toNat v.toNat hp

/-- Settles O14: both commands test just the conditions of R152. -/
theorem bfRefusesInadmissibleOperands : Obligations.BfRefusesInadmissibleOperands := by
  intro s off w v B
  constructor
  · intro h
    exact refusedWith_of_outcome (r := .bitFieldOutOfRange)
      (congrArg (s.st, ·) (if_neg (mt bfInBounds_iff.1 h)))
  · intro h
    exact refusedWith_of_outcome (r := .bitFieldOutOfRange)
      (congrArg (s.st, ·) (if_neg (mt bfAdmitsValue_iff.1 h)))

/-- Settles O15, law by law. -/
theorem fieldAndSetFieldLaws : Obligations.FieldAndSetFieldLaws :=
  fun B off w v hl hv => ⟨field_setField_self hl hv, setField_field_self B off w,
    fun _ _ v' _ hd => ⟨field_setField_of_disjoint B v hd, setField_comm_of_disjoint B v v' hd⟩⟩

end Sys2Proof.Machine

/-! ### Proofs: the PrimaryHeader commands (41_primary_header.md)

The wire layout and the header read off it undo each other, field by field and byte by byte. -/

namespace Sys2Proof.Machine

/-! #### A header and its six bytes (30_encoding.md R100, R106) -/

/-- Each field that crosses a byte is read as the two cuts that were written, which join again. -/
theorem phField_phWire (h : PrimaryHeader) : phField (phWire h) = h := by
  refine (phField_eq_phOfWire ..).trans ?_
  -- The sums stay unevaluated, since `x ++ y` is matched at the width `v + w`.
  simp (disch := decide) only [-Nat.reduceAdd, phOfWire, Nat.reduceSub,
    BitVec.extractLsb'_append_eq_of_le, BitVec.extractLsb'_append_eq_of_add_le,
    BitVec.extractLsb'_append_extractLsb'_eq_extractLsb', BitVec.extractLsb'_eq_self]

/-- Each byte is written from the cuts that its fields were read as, which join again. -/
theorem phWire_phOfWire (b0 b1 b2 b3 b4 b5 : Byte) :
    phWire (phOfWire b0 b1 b2 b3 b4 b5) = [b0, b1, b2, b3, b4, b5] := by
  simp (disch := decide) only [-Nat.reduceAdd, phWire, phOfWire, Nat.reduceSub,
    BitVec.extractLsb'_append_eq_of_le, BitVec.extractLsb'_append_eq_of_add_le,
    BitVec.extractLsb'_append_extractLsb'_eq_extractLsb', BitVec.extractLsb'_eq_self]

/-- The version is the top three bits of byte 0 (R101). -/
theorem versionNumber_phOfWire_eq_zero_iff (b0 b1 b2 b3 b4 b5 : Byte) :
    (phOfWire b0 b1 b2 b3 b4 b5).versionNumber = 0 ↔ b0.toNat < 32 := by
  have hlt := b0.isLt
  rw [← BitVec.toNat_inj, phOfWire, BitVec.extractLsb'_toNat, Nat.shiftRight_eq_div_pow]
  change b0.toNat / 2 ^ 5 % 2 ^ 3 = 0 ↔ _
  omega

/-- Settles O18: the bytes answered for a header are its wire layout, which reads as the header; the
header answered for six bytes has their wire layout, and version 0 as its version. -/
theorem primaryHeaderRoundTrip : Obligations.PrimaryHeaderRoundTrip := by
  intro s
  obtain ⟨decodes, -⟩ := phDecodeAnswersTheFields s
  constructor
  · intro h hv
    obtain ⟨encodes, -⟩ := phEncodeAnswersTheWireLayout s h
    have decoded : AnswersOk (.phDecode (phWire h)) s s.st (phResult (phField (phWire h))) := by
      rw [phWire, phField_eq_phOfWire]
      exact decodes _ _ _ _ _ _ []
    rw [phField_phWire] at decoded
    exact ⟨phWire h, encodes hv, decoded⟩
  · intro B hl hb
    match B, hl with
    | [b0, b1, b2, b3, b4, b5], _ =>
      have hv := (versionNumber_phOfWire_eq_zero_iff b0 b1 b2 b3 b4 b5).2 hb
      obtain ⟨encodes, -⟩ := phEncodeAnswersTheWireLayout s (phOfWire b0 b1 b2 b3 b4 b5)
      rw [phWire_phOfWire] at encodes
      exact ⟨phOfWire b0 b1 b2 b3 b4 b5, decodes b0 b1 b2 b3 b4 b5 [], encodes hv⟩

/-! #### The four roles (R35, R175 to R180) -/

/-- The four codes of R35 are all the values of two bits, so a flag is just one of them. -/
theorem sequenceFlag_roles (f : BitVec 2) :
    (f != 0b11) = (f == 0b01 || f == 0b00 || f == 0b10) ∧ (f == 0b11) = !(f != 0b11) ∧
      [f == 0b01, f == 0b00, f == 0b10, f == 0b11].count true = 1 := by
  revert f
  decide

/-- Settles O20: each predicate answers its comparison of `sequenceFlag`, and the comparisons are
related as the statement says. -/
theorem segmentedIsTheOtherThreeRoles : Obligations.SegmentedIsTheOtherThreeRoles :=
  fun _ h => ⟨_, _, _, _, _, answersOk_of_outcome rfl, answersOk_of_outcome rfl,
    answersOk_of_outcome rfl, answersOk_of_outcome rfl, answersOk_of_outcome rfl,
    sequenceFlag_roles h.sequenceFlag⟩

end Sys2Proof.Machine

/-! ### Proofs: the SecondaryHeader commands (42_secondary_header.md)

Bit 7 of byte 4 selects the form, of six bytes or nine; the wire layout of each form and the header
read off it undo each other. -/

namespace Sys2Proof.Machine

/-! #### Lengths (R200, R203, R204) -/

theorem shDecode_of_lengthBeyondBytes {n : Nat} {B : Bytes} (h : B.length < n) :
    shDecode n B = .error (.refuse .lengthBeyondBytes) :=
  if_pos h

theorem shDecode_of_headerTooShort {n : Nat} {B : Bytes} (hn : n ≤ B.length)
    (hs : n < 6 ∨ field B 32 1 = 1 ∧ n < 9) : shDecode n B = .error (raised .headerTooShort) := by
  rcases shDecode_cases n B with ⟨h, -⟩ | ⟨-, -, h⟩ | ⟨-, h6, h9, -⟩
  · omega
  · exact h
  · omega

/-- Settles O23: the three outcomes of R203 other than a header, in its order of checks. -/
theorem shDecodeRefusesAndFailsShort : Obligations.ShDecodeRefusesAndFailsShort := by
  intro s length B
  have short (hn : length.toNat ≤ B.length)
      (hs : length.toNat < 6 ∨ field B 32 1 = 1 ∧ length.toNat < 9) :
      Answers (.shDecode length B) s s.st [3, 0, 0] := by
    have h : commandOutcome (.shDecode length B) s.st =
        (s.st, .error (raised .headerTooShort)) := by
      rw [commandOutcome, shDecode_of_headerTooShort hn hs]
      rfl
    exact answers_of_outcome h
  refine ⟨fun hn => ?_, fun hn h6 => short hn (.inl h6), fun hn _ h9 hb => ?_⟩
  · apply refusedWith_of_outcome (r := .lengthBeyondBytes)
    rw [commandOutcome, shDecode_of_lengthBeyondBytes hn]
    rfl
  · have type : field B 32 1 = 1 := (field_type B).trans (congrArg Bool.toNat hb)
    exact short hn (.inr ⟨type, h9⟩)

theorem shLen_of_type_zero {h : SecondaryHeader} (ht : h.secondaryHeaderType = 0) : shLen h = 6 :=
  if_pos ht

theorem shLen_of_type_one {h : SecondaryHeader} (ht : h.secondaryHeaderType = 1) : shLen h = 9 :=
  if_neg (by rw [ht]; decide)

/-- Settles O24: the answer is the byte `SHLen`, 6 or 9 as the type says. -/
theorem shLengthIsSixOrNine : Obligations.ShLengthIsSixOrNine := by
  intro s h
  have answer : AnswersOk (.shLength h) s s.st [BitVec.ofNat 8 (shLen h)] :=
    answersOk_of_outcome rfl
  constructor
  · intro ht
    rwa [shLen_of_type_zero ht] at answer
  · intro ht
    rwa [shLen_of_type_one ht] at answer

/-! #### A header and its bytes (30_encoding.md R102 to R104, R106) -/

/-- Byte 4 is the type bit, then the category (R104). -/
theorem type_append_category {b : Byte} {t : BitVec 1} (h : b.getLsbD 7 = t.getLsbD 0) :
    t ++ b.extractLsb' 0 7 = b := by
  apply BitVec.eq_of_getLsbD_eq
  intro i hi
  rw [BitVec.getLsbD_append, BitVec.getLsbD_extractLsb', Nat.zero_add]
  split
  next h7 => rw [decide_eq_true h7, Bool.true_and]
  next h7 =>
    obtain rfl : i = 7 := by omega
    exact h.symm

theorem getLsbD_seven_type_append (t : BitVec 1) (c : BitVec 7) :
    (t ++ c : Byte).getLsbD 7 = t.getLsbD 0 :=
  BitVec.getLsbD_append

theorem shWire_sh6OfWire (t0 t1 t2 t3 b5 : Byte) {b4 : Byte} (h : b4.getLsbD 7 = false) :
    shWire (sh6OfWire t0 t1 t2 t3 b4 b5) = [t0, t1, t2, t3, b4, b5] := by
  have hb : 0#1 ++ b4.extractLsb' 0 7 = b4 := type_append_category h
  simp only [shWire, sh6OfWire, hb, List.cons_append, List.nil_append]

/-- The count is written from the two cuts it was read as, which join again. -/
theorem shWire_sh9OfWire (t0 t1 t2 t3 b5 b6 b7 b8 : Byte) {b4 : Byte} (h : b4.getLsbD 7 = true) :
    shWire (sh9OfWire t0 t1 t2 t3 b4 b5 b6 b7 b8) = [t0, t1, t2, t3, b4, b5, b6, b7, b8] := by
  have hb : 1#1 ++ b4.extractLsb' 0 7 = b4 := type_append_category h
  -- The sums stay unevaluated, since `x ++ y` is matched at the width `v + w`.
  simp (disch := decide) only [-Nat.reduceAdd, shWire, sh9OfWire, hb, List.cons_append,
    List.nil_append, Nat.reduceSub,
    BitVec.extractLsb'_append_eq_of_le, BitVec.extractLsb'_append_eq_of_add_le,
    BitVec.extractLsb'_append_extractLsb'_eq_extractLsb', BitVec.extractLsb'_eq_self]

/-- Both forms are read as the fields they were written from; only the count of the nine-byte form
crosses a byte. -/
theorem shDecode_shWire (h : SecondaryHeader) : shDecode (shLen h) (shWire h) = .ok h := by
  obtain ⟨⟨t0, t1, t2, t3⟩, category, aduCount, channel⟩ := h
  rcases channel with _ | ⟨channelId, flag, count⟩
  · refine (shDecode_eq_sh6OfWire t0 t1 t2 t3 aduCount (getLsbD_seven_type_append 0#1 category)
      (rest := []) le_rfl le_rfl).trans ?_
    rw [sh6OfWire, BitVec.extractLsb'_append_eq_right]
  · refine (shDecode_eq_sh9OfWire t0 t1 t2 t3 aduCount _ _ _
      (getLsbD_seven_type_append 1#1 category) (rest := []) le_rfl le_rfl).trans ?_
    simp (disch := decide) only [-Nat.reduceAdd, sh9OfWire, Nat.reduceSub,
      BitVec.extractLsb'_append_eq_of_le, BitVec.extractLsb'_append_eq_of_add_le,
      BitVec.extractLsb'_append_extractLsb'_eq_extractLsb', BitVec.extractLsb'_eq_self]

/-- SH_DECODE reads its header from the first six or nine bytes, as the type bit selects (R203). -/
theorem shDecode_eq_ok {n : Nat} {B : Bytes} {h : SecondaryHeader} (hd : shDecode n B = .ok h) :
    (∃ (t0 t1 t2 t3 b4 b5 : Byte) (rest : Bytes), b4.getLsbD 7 = false ∧
      B = t0 :: t1 :: t2 :: t3 :: b4 :: b5 :: rest ∧ h = sh6OfWire t0 t1 t2 t3 b4 b5) ∨
    ∃ (t0 t1 t2 t3 b4 b5 b6 b7 b8 : Byte) (rest : Bytes), b4.getLsbD 7 = true ∧
      B = t0 :: t1 :: t2 :: t3 :: b4 :: b5 :: b6 :: b7 :: b8 :: rest ∧
      h = sh9OfWire t0 t1 t2 t3 b4 b5 b6 b7 b8 := by
  obtain ⟨hn, h6, h9⟩ : n ≤ B.length ∧ 6 ≤ n ∧ (field B 32 1 = 1 → 9 ≤ n) := by
    rcases shDecode_cases n B with ⟨-, e⟩ | ⟨-, -, e⟩ | ⟨hn, h6, h9, -⟩
    · cases hd.symm.trans e
    · cases hd.symm.trans e
    · exact ⟨hn, h6, h9⟩
  match B, h6.trans hn with
  | t0 :: t1 :: t2 :: t3 :: b4 :: b5 :: rest, _ =>
    rcases hb : b4.getLsbD 7
    · left
      rw [shDecode_eq_sh6OfWire t0 t1 t2 t3 b5 hb h6
        (hn.trans_eq (Nat.add_comm rest.length 6))] at hd
      exact ⟨t0, t1, t2, t3, b4, b5, rest, hb, rfl, (Except.ok.inj hd).symm⟩
    · right
      have hl : 9 ≤ n := h9 ((field_type _).trans (congrArg Bool.toNat hb))
      match rest, hl.trans hn with
      | b6 :: b7 :: b8 :: rest, _ =>
        rw [shDecode_eq_sh9OfWire t0 t1 t2 t3 b5 b6 b7 b8 hb hl
          (hn.trans_eq (Nat.add_comm rest.length 9))] at hd
        exact ⟨t0, t1, t2, t3, b4, b5, b6, b7, b8, rest, hb, rfl, (Except.ok.inj hd).symm⟩

/-- A header decoded from bytes has, as its wire layout, the first of them, as many as it is
long. -/
theorem shWire_of_shDecode {n : Nat} {B : Bytes} {h : SecondaryHeader} (hd : shDecode n B = .ok h) :
    shWire h = B.take (shLen h) := by
  rcases shDecode_eq_ok hd with
    ⟨t0, t1, t2, t3, b4, b5, rest, hb, rfl, rfl⟩ |
    ⟨t0, t1, t2, t3, b4, b5, b6, b7, b8, rest, hb, rfl, rfl⟩
  · exact shWire_sh6OfWire t0 t1 t2 t3 b5 hb
  · exact shWire_sh9OfWire t0 t1 t2 t3 b5 b6 b7 b8 hb

/-- Settles O25: the bytes written field by field are the wire layout, which the decoder undoes. -/
theorem secondaryHeaderRoundTrip : Obligations.SecondaryHeaderRoundTrip := by
  constructor
  · intro h
    rw [shBytes_eq_shWire]
    exact shDecode_shWire h
  · intro n B h hd
    rw [shBytes_eq_shWire]
    exact shWire_of_shDecode hd

end Sys2Proof.Machine

/-! ### Proofs: the SpacePacket commands (43_space_packet.md)

The wire bytes of a packet and the packet read off them undo each other; the declared length takes no
part in the reading. -/

namespace Sys2Proof.Machine

/-! #### Lengths (R220 to R222) -/

theorem shLen_eq (h : SecondaryHeader) : shLen h = if h.channel.isSome then 9 else 6 := by
  rcases hc : h.channel with _ | c
  · exact shLen_of_type_zero (by rw [SecondaryHeader.secondaryHeaderType, hc]; rfl)
  · exact shLen_of_type_one (by rw [SecondaryHeader.secondaryHeaderType, hc]; rfl)

theorem shWire_length (h : SecondaryHeader) : (shWire h).length = shLen h := by
  rw [shLen_eq]
  rcases hc : h.channel with _ | c <;> simp [shWire, hc]

/-- `D(x)`, with the size of each form of secondary header written out. -/
theorem dataFieldLength_eq (x : SpacePacket) : dataFieldLength x =
    (match x.secondary with | none => 0 | some h => if h.channel.isSome then 9 else 6) +
      x.payload.length := by
  rw [dataFieldLength]
  rcases x.secondary with _ | h
  · rfl
  · exact congrArg (· + x.payload.length) (shLen_eq h)

theorem dataFieldLength_eq_zero {x : SpacePacket} (hs : x.secondary = none)
    (hp : x.payload = []) : dataFieldLength x = 0 := by
  rw [dataFieldLength, hs, hp]
  rfl

/-- The bytes of a packet are its data field after six bytes of primary header (R105, R221). -/
theorem spWire_length (x : SpacePacket) : (spWire x).length = 6 + dataFieldLength x := by
  rw [spWire, dataFieldLength, List.length_append, List.length_append, Nat.add_assoc]
  rcases x.secondary with _ | h
  · rfl
  · exact congrArg (6 + (· + x.payload.length)) (shWire_length h)

/-- `D − 1` fits the field when `D` is 1 to 65536 (R222). -/
theorem packetDataLength_withDataLength {x : SpacePacket} (h1 : 1 ≤ dataFieldLength x)
    (h2 : dataFieldLength x ≤ 65536) :
    (withDataLength x).primary.packetDataLength.toNat = dataFieldLength x - 1 :=
  (BitVec.toNat_ofNat ..).trans (Nat.mod_eq_of_lt (by omega))

theorem withDataLength_eq_self_iff {x : SpacePacket} (h1 : 1 ≤ dataFieldLength x)
    (h2 : dataFieldLength x ≤ 65536) :
    withDataLength x = x ↔ x.primary.packetDataLength.toNat + 1 = dataFieldLength x := by
  have hl := packetDataLength_withDataLength h1 h2
  constructor
  · intro h
    rw [h] at hl
    omega
  · intro h
    have same : (withDataLength x).primary.packetDataLength = x.primary.packetDataLength :=
      BitVec.eq_of_toNat_eq (by omega)
    change { x with primary := { x.primary with
      packetDataLength := (withDataLength x).primary.packetDataLength } } = x
    rw [same]

/-! #### What SP_ENCODE answers (R223 to R226) -/

/-- What the codec writes header by header is the wire layout (R105, R223). -/
theorem spBytes_eq_spWire (x : SpacePacket) : spBytes x = spWire x := by
  rw [spBytes, spWire, phBytes_eq_phWire]
  rcases x.secondary with _ | h
  · rfl
  · exact congrArg (phWire x.primary ++ · ++ x.payload) (shBytes_eq_shWire h)

/-- SP_ENCODE answers just the well-formed packets of version 0 whose data field has a length. -/
theorem spEncode_eq_ok_iff {x y : SpacePacket} {B : Bytes} :
    spEncode x = .ok (B, y) ↔ x.wellFormed = true ∧ x.primary.versionNumber = 0 ∧
      1 ≤ dataFieldLength x ∧ dataFieldLength x ≤ 65536 ∧ y = withDataLength x ∧ B = spWire y := by
  constructor
  · intro h
    rcases spEncode_cases x with ⟨-, e⟩ | ⟨-, -, e⟩ | ⟨-, -, -, e⟩ | ⟨-, -, -, e⟩ |
        ⟨hw, hv, h1, h2, e⟩
    case inr.inr.inr.inr =>
      rw [e, Except.ok.injEq, Prod.mk.injEq, spBytes_eq_spWire] at h
      obtain ⟨hB, hy⟩ := h
      exact ⟨hw, hv, h1, h2, hy.symm, hy ▸ hB.symm⟩
    all_goals cases h.symm.trans e
  · rintro ⟨hw, hv, h1, h2, rfl, rfl⟩
    rw [← spBytes_eq_spWire, spEncode, presenceAgrees_eq_wellFormed, hw, if_neg (by decide),
      if_neg (not_not.2 hv), if_neg (by omega), if_neg (by omega)]

theorem answersOk_spEncode {s : State} {x y : SpacePacket} {B : Bytes}
    (h : spEncode x = .ok (B, y)) : AnswersOk (.spEncode x) s s.st (seqBlock B ++ spBlock y) := by
  apply answersOk_of_outcome
  rw [commandOutcome, h]
  rfl

theorem refusedWith_spEncode {s : State} {x : SpacePacket} {r : RefusalReason}
    (h : spEncode x = .error (.refuse r)) : RefusedWith (.spEncode x) s (reasonCode r) := by
  apply refusedWith_of_outcome
  rw [commandOutcome, h]
  rfl

/-- Settles O26: the answer is the wire bytes of the packet with its length recomputed, all of it
short enough for its `seq` fields. -/
theorem spEncodeRecomputesTheLength : Obligations.SpEncodeRecomputesTheLength := by
  intro s x d hd hw hv h1 h2
  obtain rfl : d = dataFieldLength x := hd.trans (dataFieldLength_eq x).symm
  have hlen : (spWire (withDataLength x)).length = 6 + dataFieldLength x := spWire_length _
  have hseq : (spWire (withDataLength x)).length < 2 ^ 32 := by omega
  have hpay : (withDataLength x).payload.length < 2 ^ 32 :=
    calc x.payload.length ≤ dataFieldLength x := Nat.le_add_left ..
      _ < 2 ^ 32 := by omega
  refine ⟨withDataLength x, rfl, packetDataLength_withDataLength h1 h2, ?_, hlen⟩
  rw [← seqBlock_eq_seqResult hseq, ← spBlock_eq_spResult hpay]
  exact answersOk_spEncode
    (spEncode_eq_ok_iff.2 ⟨(wellFormed_iff x).2 hw, hv, h1, h2, rfl, rfl⟩)

/-- Settles O27, check by check in the order of R223. -/
theorem spEncodeRefusesInOrder : Obligations.SpEncodeRefusesInOrder := by
  intro s x
  rw [← wellFormed_iff]
  refine ⟨fun hw => ?_, fun hw => ?_⟩
  · apply refusedWith_spEncode (r := .presenceMismatch)
    rw [spEncode, presenceAgrees_eq_wellFormed, Bool.eq_false_of_not_eq_true hw]
    rfl
  have agrees : ¬(!presenceAgrees x) = true := by
    rw [presenceAgrees_eq_wellFormed, hw]
    decide
  refine ⟨fun hv => ?_, fun hv => ⟨fun hs hp => ?_, fun hd => ?_⟩⟩
  · apply refusedWith_spEncode (r := .versionNotZero)
    rw [spEncode, if_neg agrees, if_pos hv]
  · apply refusedWith_spEncode (r := .emptyDataField)
    rw [spEncode, if_neg agrees, if_neg (not_not.2 hv), if_pos (dataFieldLength_eq_zero hs hp)]
  · have long : 65536 < dataFieldLength x := hd.trans_eq (dataFieldLength_eq x).symm
    apply refusedWith_spEncode (r := .dataFieldTooLong)
    rw [spEncode, if_neg agrees, if_neg (not_not.2 hv), if_neg (by omega), if_pos long]

/-! #### What SP_DECODE reads (R228 to R230) -/

/-- With the flag set SP_DECODE ends as SH_DECODE of the bytes after the primary header does. -/
theorem spDecode_eq_map_shDecode {b0 : Byte} (b1 b2 b3 b4 b5 : Byte) (h : b0.getLsbD 3 = true)
    (rest : Bytes) : spDecode (b0 :: b1 :: b2 :: b3 :: b4 :: b5 :: rest) =
      (shDecode rest.length rest).map fun sh =>
        ⟨phOfWire b0 b1 b2 b3 b4 b5, some sh, rest.drop (shLen sh)⟩ := by
  rcases hsh : shDecode rest.length rest with e | sh
  · have hph : phField ((b0 :: b1 :: b2 :: b3 :: b4 :: b5 :: rest).take 6) = _ :=
      phField_eq_phOfWire b0 b1 b2 b3 b4 b5 []
    have hdrop : (b0 :: b1 :: b2 :: b3 :: b4 :: b5 :: rest).drop 6 = rest := rfl
    rw [spDecode, if_neg (by simp only [List.length_cons]; omega), hph]
    simp only [(flag_phOfWire b0 b1 b2 b3 b4 b5).2 h, if_true, hdrop, hsh]
    rfl
  · exact spDecode_of_flag_one b1 b2 b3 b4 b5 h hsh

theorem answers_spDecode_raised {s : State} {B : Bytes} {k : ErrorKind}
    (h : spDecode B = .error (raised k)) : Answers (.spDecode B) s s.st [errorCode k, 0, 0] := by
  have outcome : commandOutcome (.spDecode B) s.st = (s.st, .error (raised k)) := by
    rw [commandOutcome, h]
    rfl
  exact answers_of_outcome outcome

/-- Settles O29: a header of either kind that its bytes cannot hold. -/
theorem spDecodeFailsShort : Obligations.SpDecodeFailsShort := by
  intro s
  refine ⟨fun B hB => ?_, fun b0 b1 b2 b3 b4 b5 rest hf hs => ?_⟩
  · exact answers_spDecode_raised (k := .notASpacePacket) (if_pos hB)
  · have short : rest.length < 6 ∨ field rest 32 1 = 1 ∧ rest.length < 9 :=
      hs.imp_right fun ⟨h9, ht⟩ => ⟨(field_type rest).trans (congrArg Bool.toNat ht), h9⟩
    apply answers_spDecode_raised (k := .headerTooShort)
    rw [spDecode_eq_map_shDecode b1 b2 b3 b4 b5 hf, shDecode_of_headerTooShort le_rfl short]
    rfl

/-- Another declared length changes that field of the packet, and nothing else of how SP_DECODE ends
(R229). -/
theorem spDecode_of_declaredLength (b0 b1 b2 b3 l1 l0 m1 m0 : Byte) (rest : Bytes) :
    spDecode (b0 :: b1 :: b2 :: b3 :: m1 :: m0 :: rest) =
      (spDecode (b0 :: b1 :: b2 :: b3 :: l1 :: l0 :: rest)).map fun x =>
        { x with primary := { x.primary with packetDataLength := m1 ++ m0 } } := by
  rcases hf : b0.getLsbD 3
  · rw [spDecode_of_flag_zero _ _ _ _ _ hf, spDecode_of_flag_zero _ _ _ _ _ hf]
    rfl
  · rw [spDecode_eq_map_shDecode _ _ _ _ _ hf, spDecode_eq_map_shDecode _ _ _ _ _ hf]
    rcases shDecode rest.length rest with e | sh <;> rfl

theorem shLen_le_of_shDecode {n : Nat} {B : Bytes} {h : SecondaryHeader}
    (hd : shDecode n B = .ok h) : shLen h ≤ B.length := by
  rw [← shWire_length, shWire_of_shDecode hd]
  exact List.length_take_le' ..

/-- The parts of a decoded packet: the header carried by the first six bytes, and the bytes after the
headers (R228, R230). -/
theorem spDecode_eq_ok {b0 b1 b2 b3 b4 b5 : Byte} {rest : Bytes} {x : SpacePacket}
    (h : spDecode (b0 :: b1 :: b2 :: b3 :: b4 :: b5 :: rest) = .ok x) :
    x.primary = phOfWire b0 b1 b2 b3 b4 b5 ∧
      (x.secondary.map shWire).getD [] = rest.take (encodedSize x.secondary) ∧
      encodedSize x.secondary ≤ rest.length ∧ x.payload = rest.drop (encodedSize x.secondary) := by
  rcases hf : b0.getLsbD 3
  · cases h.symm.trans (spDecode_of_flag_zero b1 b2 b3 b4 b5 hf rest)
    exact ⟨rfl, rfl, rest.length.zero_le, rfl⟩
  · rw [spDecode_eq_map_shDecode b1 b2 b3 b4 b5 hf] at h
    rcases hsh : shDecode rest.length rest with e | sh <;> rw [hsh] at h <;> cases h
    exact ⟨rfl, shWire_of_shDecode hsh, shLen_le_of_shDecode hsh, rfl⟩

/-- Settles O30: the length is read as a field of the packet, and no more than that. -/
theorem spDecodeIgnoresTheDeclaredLength : Obligations.SpDecodeIgnoresTheDeclaredLength := by
  intro b0 b1 b2 b3 l1 l0 m1 m0 rest
  have other := spDecode_of_declaredLength b0 b1 b2 b3 l1 l0 m1 m0 rest
  refine ⟨fun x hx => ?_, fun e he => ?_⟩
  · obtain ⟨hp, -, hle, hpay⟩ := spDecode_eq_ok hx
    refine ⟨by rw [hp]; rfl, hle, hpay, ?_⟩
    rw [other, hx]
    rfl
  · rw [other, he]
    rfl

/-! #### A packet and its bytes (R105, R232) -/

/-- SH_DECODE reads a header off its wire layout whatever bytes follow (R203). -/
theorem shDecode_shWire_append (h : SecondaryHeader) (rest : Bytes) :
    shDecode (shWire h ++ rest).length (shWire h ++ rest) = .ok h := by
  rcases shDecode_eq_ok (shDecode_shWire h) with
    ⟨t0, t1, t2, t3, b4, b5, -, hb, -, rfl⟩ |
    ⟨t0, t1, t2, t3, b4, b5, b6, b7, b8, -, hb, -, rfl⟩
  · rw [shWire_sh6OfWire t0 t1 t2 t3 b5 hb, List.length_append]
    exact shDecode_eq_sh6OfWire t0 t1 t2 t3 b5 hb (Nat.le_add_right 6 _) le_rfl
  · rw [shWire_sh9OfWire t0 t1 t2 t3 b5 b6 b7 b8 hb, List.length_append]
    exact shDecode_eq_sh9OfWire t0 t1 t2 t3 b5 b6 b7 b8 hb (Nat.le_add_right 9 _) le_rfl

theorem exists_phWire_eq_bytes (h : PrimaryHeader) : ∃ b0 b1 b2 b3 b4 b5 : Byte,
    phWire h = [b0, b1, b2, b3, b4, b5] ∧ h = phOfWire b0 b1 b2 b3 b4 b5 :=
  ⟨_, _, _, _, _, _, rfl, (phField_phWire h).symm.trans (phField_eq_phOfWire ..)⟩

/-- A well-formed packet is read off its wire bytes: its flag says which of the two forms they
have. -/
theorem spDecode_spWire {x : SpacePacket} (hw : x.wellFormed = true) :
    spDecode (spWire x) = .ok x := by
  rw [wellFormed_iff] at hw
  obtain ⟨ph, secondary, payload⟩ := x
  obtain ⟨b0, b1, b2, b3, b4, b5, hb, rfl⟩ := exists_phWire_eq_bytes ph
  rw [flag_phOfWire] at hw
  rw [spWire, hb]
  rcases secondary with _ | sh
  · exact spDecode_of_flag_zero b1 b2 b3 b4 b5
      (Bool.eq_false_of_not_eq_true (mt hw.2 Bool.false_ne_true)) payload
  · have hd := spDecode_of_flag_one b1 b2 b3 b4 b5 (hw.1 rfl) (shDecode_shWire_append sh payload)
    rwa [List.drop_left' (shWire_length sh)] at hd

/-- Every byte that SP_DECODE reads is in the wire bytes of the packet. -/
theorem spWire_of_spDecode {B : Bytes} {x : SpacePacket} (h : spDecode B = .ok x) :
    spWire x = B := by
  have h6 : 6 ≤ B.length := by
    by_contra hlt
    cases h.symm.trans (if_pos (Nat.lt_of_not_le hlt))
  match B, h6 with
  | b0 :: b1 :: b2 :: b3 :: b4 :: b5 :: rest, _ =>
    obtain ⟨hp, hsec, -, hpay⟩ := spDecode_eq_ok h
    rw [spWire, hp, hsec, hpay, phWire_phOfWire, List.append_assoc, List.take_append_drop]
    rfl

/-- Settles O31: the bytes answered are wire bytes, which SP_DECODE reads back; a decoded buffer is the
wire bytes of its packet, so SP_ENCODE answers it just when it has no length to replace. -/
theorem spacePacketRoundTrip : Obligations.SpacePacketRoundTrip := by
  constructor
  · intro x y B h
    obtain ⟨hw, -, h1, h2, rfl, rfl⟩ := spEncode_eq_ok_iff.1 h
    have hw' : (withDataLength x).wellFormed = true := hw
    exact ⟨spDecode_spWire hw', withDataLength_eq_self_iff h1 h2⟩
  · intro x B hB
    have hlen := spWire_length x
    rw [spWire_of_spDecode hB] at hlen
    constructor
    · rintro ⟨y, hy⟩
      obtain ⟨hw, hv, h1, h2, rfl, rfl⟩ := spEncode_eq_ok_iff.1 hy
      have hw' : (withDataLength x).wellFormed = true := hw
      have same : withDataLength x = x := Except.ok.inj ((spDecode_spWire hw').symm.trans hB)
      have length := (withDataLength_eq_self_iff h1 h2).1 same
      exact ⟨hv, by omega⟩
    · rintro ⟨hv, hl⟩
      have fits := x.primary.packetDataLength.isLt
      have h1 : 1 ≤ dataFieldLength x := by omega
      have h2 : dataFieldLength x ≤ 65536 := by omega
      have same : withDataLength x = x := (withDataLength_eq_self_iff h1 h2).2 (by omega)
      exact ⟨x, spEncode_eq_ok_iff.2
        ⟨spDecode_wellFormed hB, hv, h1, h2, same.symm, (spWire_of_spDecode hB).symm⟩⟩

end Sys2Proof.Machine

/-! ### Proofs: the segment accumulator (44_segment_accumulator.md)

What the push of a segment does, cell by cell of the transition table, and what SA_PUSH and
SA_FINALIZE answer for it. -/

namespace Sys2Proof.Machine

/-! #### The segment pushed (R251, R252) -/

theorem aduChannel_of_hasChannel {x : SpacePacket} {ch : AduChannel} (h : HasChannel x ch) :
    aduChannel x = some ch := by
  obtain ⟨-, sh, hs, hc⟩ := h
  rw [aduChannel, hs]
  exact hc

theorem hasChannel_of_aduChannel {x : SpacePacket} {ch : AduChannel} (hw : x.wellFormed = true)
    (h : aduChannel x = some ch) : HasChannel x ch := by
  unfold aduChannel at h
  rcases hs : x.secondary with _ | sh <;> rw [hs] at h
  · cases h
  · exact ⟨hw, sh, hs, h⟩

theorem roleCode_role (ch : AduChannel) : roleCode (role ch) = ch.aduSegmentFlag :=
  roleCode_roleOfCode ch.aduSegmentFlag

/-- The flag of a channel triple is the code of its role (R251, 10_state.md R35). -/
theorem role_eq_iff {ch : AduChannel} {r : SegmentRole} :
    role ch = r ↔ ch.aduSegmentFlag = roleCode r := by
  constructor
  · rintro rfl
    exact (roleCode_role ch).symm
  · intro h
    rw [role, h, roleOfCode_roleCode]

/-! #### The counter check (R262) -/

theorem counterMismatch_of_ne {a : Accumulator} (c : SegmentCount) (hs : a.state ≠ .assembling) :
    counterMismatch a c = none :=
  counterMismatch_eq_none fun _ h => absurd h hs

theorem counterMismatch_eq_none_iff {a : Accumulator} {c e : SegmentCount}
    (hs : a.state = .assembling) (he : a.expectedSegmentCount = some e) :
    counterMismatch a c = none ↔ (a.watchSegmentCounter = true → c = e) := by
  constructor
  · intro h hw
    by_contra hne
    cases h.symm.trans (counterMismatch_eq_some.2 ⟨hw, hs, he, hne⟩)
  · intro h
    exact counterMismatch_eq_none fun hw _ => h hw ▸ he

theorem ne_of_empty_or_error {state : AccState} (h : state = .empty ∨ state = .error) :
    state ≠ .assembling ∧ state ≠ .complete := by
  rcases h with rfl | rfl <;> exact ⟨nofun, nofun⟩

/-! #### The cells of the transition table (R254 to R261) -/

/-- The cells that accept a segment, each with the state it leaves; Complete is taken as Empty
(R254 to R256, R261). -/
def AcceptingCell (state : AccState) (r : SegmentRole) (next : AccState) : Prop :=
  (state ≠ .assembling ∧ r = .unsegmented ∧ next = .complete) ∨
  (state ≠ .assembling ∧ r = .first ∧ next = .assembling) ∨
  (state = .assembling ∧ r = .continuation ∧ next = .assembling) ∨
  (state = .assembling ∧ r = .last ∧ next = .complete)

theorem acceptingCell_assembling_complete {r : SegmentRole} :
    AcceptingCell .assembling r .complete ↔ r = .last := by simp [AcceptingCell]

theorem acceptingCell_assembling_assembling {r : SegmentRole} :
    AcceptingCell .assembling r .assembling ↔ r = .continuation := by simp [AcceptingCell]

theorem acceptingCell_complete_of_ne {state : AccState} {r : SegmentRole}
    (h : state ≠ .assembling) : AcceptingCell state r .complete ↔ r = .unsegmented := by
  simp [AcceptingCell, h]

theorem acceptingCell_assembling_of_ne {state : AccState} {r : SegmentRole}
    (h : state ≠ .assembling) : AcceptingCell state r .assembling ↔ r = .first := by
  simp [AcceptingCell, h]

theorem AcceptingCell.next_eq {state next : AccState} {r : SegmentRole}
    (h : AcceptingCell state r next) : next = .complete ∨ next = .assembling := by
  rcases h with ⟨-, -, h⟩ | ⟨-, -, h⟩ | ⟨-, -, h⟩ | ⟨-, -, h⟩
  · exact .inl h
  · exact .inr h
  · exact .inr h
  · exact .inl h

/-- A segment that leaves Complete ends its ADU. -/
theorem AcceptingCell.role_of_complete {state : AccState} {r : SegmentRole}
    (h : AcceptingCell state r .complete) : r = .last ∨ r = .unsegmented := by
  rcases h with ⟨-, hr, -⟩ | ⟨-, -, hn⟩ | ⟨-, -, hn⟩ | ⟨-, hr, -⟩
  · exact .inr hr
  · cases hn
  · cases hn
  · exact .inl hr

/-- Every cell accepts or is an error. -/
theorem acceptingCell_or_illegalCell (state : AccState) (r : SegmentRole) :
    (∃ next, AcceptingCell state r next) ∨ ∃ m, IllegalCell state r m := by
  by_cases hs : state = .assembling
  · cases r
    case continuation => exact .inl ⟨_, .inr (.inr (.inl ⟨hs, rfl, rfl⟩))⟩
    case last => exact .inl ⟨_, .inr (.inr (.inr ⟨hs, rfl, rfl⟩))⟩
    case unsegmented => exact .inr ⟨_, .inr (.inr (.inl ⟨hs, rfl, rfl⟩))⟩
    case first => exact .inr ⟨_, .inr (.inr (.inr ⟨hs, rfl, rfl⟩))⟩
  · cases r
    case unsegmented => exact .inl ⟨_, .inl ⟨hs, rfl, rfl⟩⟩
    case first => exact .inl ⟨_, .inr (.inl ⟨hs, rfl, rfl⟩)⟩
    case continuation => exact .inr ⟨_, .inl ⟨hs, rfl, rfl⟩⟩
    case last => exact .inr ⟨_, .inr (.inl ⟨hs, rfl, rfl⟩)⟩

/-- The fragments that an accepted segment is appended to: none outside Assembling, where an opener
starts the buffer anew (R255, R264). -/
def keptFragments (a : Accumulator) : List SpacePacket :=
  if a.state = .assembling then a.pendingFragments else []

theorem keptFragments_of_assembling {a : Accumulator} (h : a.state = .assembling) :
    keptFragments a = a.pendingFragments := if_pos h

theorem keptFragments_of_ne {a : Accumulator} (h : a.state ≠ .assembling) : keptFragments a = [] :=
  if_neg h

/-- The accumulator after a segment `x` with the count `c` is accepted (R264, R265). -/
def accAccepted (a : Accumulator) (x : SpacePacket) (next : AccState) (c : SegmentCount) :
    Accumulator :=
  { a with
    state := next
    pendingFragments := keptFragments a ++ [x]
    expectedSegmentCount := some (c + 1) }

/-- The table runs on Empty or Error outside an ADU (R254). -/
theorem effectiveState_of_ne {state : AccState} (h : state ≠ .assembling) :
    effectiveState state = .empty ∨ effectiveState state = .error := by
  cases state
  case assembling => exact absurd rfl h
  case error => exact .inr rfl
  case empty | complete => exact .inl rfl

/-- Outside an ADU the table acts as on the emptied accumulator (R254). -/
theorem transition_of_ne {a : Accumulator} (hs : a.state ≠ .assembling) (x : SpacePacket)
    (r : SegmentRole) (c : SegmentCount) :
    transition a x r c = transition (accEmptied a) x r c := by
  unfold transition
  rcases effectiveState_of_ne hs with e | e <;> rw [e] <;> cases r <;> rfl

theorem transition_of_acceptingCell {a : Accumulator} {r : SegmentRole} {next : AccState}
    (h : AcceptingCell a.state r next) (x : SpacePacket) (c : SegmentCount) :
    transition a x r c = { acc := accAccepted a x next c, error := none, log := [] } := by
  rw [accAccepted, ← nextCount_eq]
  rcases h with ⟨hs, rfl, rfl⟩ | ⟨hs, rfl, rfl⟩ | ⟨hs, rfl, rfl⟩ | ⟨hs, rfl, rfl⟩
  · rw [keptFragments_of_ne hs]
    exact transition_of_ne hs x _ c
  · rw [keptFragments_of_ne hs]
    exact transition_of_ne hs x _ c
  · simp only [keptFragments_of_assembling hs, transition, hs, effectiveState, acceptPush]
  · simp only [keptFragments_of_assembling hs, transition, hs, effectiveState, acceptPush]

theorem transition_of_illegalCell {a : Accumulator} {r : SegmentRole} {m : MessageId}
    (h : IllegalCell a.state r m) (x : SpacePacket) (c : SegmentCount) :
    transition a x r c = illegalPush a m := by
  rcases h with ⟨hs, rfl, rfl⟩ | ⟨hs, rfl, rfl⟩ | ⟨hs, rfl, rfl⟩ | ⟨hs, rfl, rfl⟩
  · exact transition_of_ne hs x _ c
  · exact transition_of_ne hs x _ c
  · simp only [transition, hs, effectiveState]
  · simp only [transition, hs, effectiveState]

/-! #### The push (R253, R266) -/

section Push

variable {a : Accumulator} {x : SpacePacket} {ch : AduChannel} {p : PushResult}

theorem accPush_accepted (hx : aduChannel x = some ch)
    (hc : counterMismatch a ch.aduSegmentCount = none) {next : AccState}
    (h : AcceptingCell a.state (role ch) next) :
    accPush a x =
      some { acc := accAccepted a x next ch.aduSegmentCount, error := none, log := [] } := by
  simp only [accPush, hx, hc, transition_of_acceptingCell h]

theorem accPush_illegal (hx : aduChannel x = some ch)
    (hc : counterMismatch a ch.aduSegmentCount = none) {m : MessageId}
    (h : IllegalCell a.state (role ch) m) : accPush a x = some (illegalPush a m) := by
  simp only [accPush, hx, hc, transition_of_illegalCell h]

theorem accPush_discontinuity (hx : aduChannel x = some ch) {e : SegmentCount}
    (h : counterMismatch a ch.aduSegmentCount = some e) :
    accPush a x = some (discontinuityPush a (role ch) e ch.aduSegmentCount) := by
  simp only [accPush, hx, h]

/-- A push of a segment ends in one of three ways: accepted, illegal, or out of count (R262, R263,
R265). -/
theorem accPush_outcome (hx : aduChannel x = some ch) (h : accPush a x = some p) :
    (counterMismatch a ch.aduSegmentCount = none ∧ ∃ next, AcceptingCell a.state (role ch) next ∧
      p = { acc := accAccepted a x next ch.aduSegmentCount, error := none, log := [] }) ∨
    (∃ m, IllegalCell a.state (role ch) m ∧ p = illegalPush a m) ∨
    (∃ e, a.state = .assembling ∧ a.expectedSegmentCount = some e ∧
      p = discontinuityPush a (role ch) e ch.aduSegmentCount) := by
  rcases hc : counterMismatch a ch.aduSegmentCount with _ | e
  · rcases acceptingCell_or_illegalCell a.state (role ch) with ⟨next, hcell⟩ | ⟨m, hcell⟩
    · exact .inl ⟨rfl, next, hcell, Option.some.inj (h.symm.trans (accPush_accepted hx hc hcell))⟩
    · exact .inr (.inl ⟨m, hcell, Option.some.inj (h.symm.trans (accPush_illegal hx hc hcell))⟩)
  · obtain ⟨-, hs, he, -⟩ := counterMismatch_eq_some.1 hc
    exact .inr (.inr ⟨e, hs, he, Option.some.inj (h.symm.trans (accPush_discontinuity hx hc))⟩)

/-- Outside an ADU, so in Complete too, a push acts as on the emptied accumulator (R254). -/
theorem accPush_accEmptied (hs : a.state ≠ .assembling) (x : SpacePacket) :
    accPush (accEmptied a) x = accPush a x := by
  rcases hx : aduChannel x with _ | ch
  · rw [accPush_of_noChannel hx, accPush_of_noChannel hx]
  · have hc : ∀ c, counterMismatch (accEmptied a) c = none := fun c => counterMismatch_of_ne c nofun
    simp only [accPush, hx, hc, counterMismatch_of_ne _ hs, ← transition_of_ne hs]

/-- Outside an ADU a push logs nothing and keeps no fragment of an earlier one (R254, R264). -/
theorem accPush_of_ne_assembling (hx : aduChannel x = some ch) (h : accPush a x = some p)
    (hs : a.state ≠ .assembling) : p.log = [] ∧ ∀ y ∈ p.acc.pendingFragments, y = x := by
  rcases accPush_outcome hx h with ⟨-, next, -, rfl⟩ | ⟨m, -, rfl⟩ | ⟨e, hs', -⟩
  · refine ⟨rfl, fun y hy => ?_⟩
    rw [accAccepted, keptFragments_of_ne hs] at hy
    exact List.mem_singleton.1 hy
  · exact ⟨rfl, nofun⟩
  · exact absurd hs' hs

end Push

/-! #### SA_PUSH (R267) -/

@[simp] theorem markRefusal_pushReply (b : Block) (p : PushResult) :
    markRefusal b (pushReply p) = b := by
  unfold pushReply
  split <;> rfl

theorem commandOutcome_saPush {b : Block} {a : Accumulator} {x : SpacePacket} {p : PushResult}
    (hw : x.wellFormed = true) (ha : b.sa = some a) (hp : accPush a x = some p) :
    commandOutcome (.saPush x) b =
      ({ b with sa := some p.acc, diagLog := b.diagLog ++ p.log }, pushReply p) := by
  simp only [commandOutcome, withPacket_of_wellFormed hw, saPush, ha, hp]

section SaPush

variable {s : State} {a : Accumulator} {x : SpacePacket} {ch : AduChannel}

theorem answers_saPush {p : PushResult} (hw : x.wellFormed = true) (ha : s.st.sa = some a)
    (hp : accPush a x = some p) :
    Answers (.saPush x) s { s.st with sa := some p.acc, diagLog := s.st.diagLog ++ p.log }
      (responseFrame (pushReply p)) := by
  have h := answers_of_outcome (commandOutcome_saPush hw ha hp)
  rwa [markRefusal_pushReply] at h

theorem answersOk_saPush_accepted (ha : s.st.sa = some a) (hx : HasChannel x ch)
    (hc : counterMismatch a ch.aduSegmentCount = none) {next : AccState}
    (h : AcceptingCell a.state (role ch) next) :
    AnswersOk (.saPush x) s
      { s.st with sa := some (accAccepted a x next ch.aduSegmentCount) } [] := by
  have hp := answers_saPush hx.1 ha (accPush_accepted (aduChannel_of_hasChannel hx) hc h)
  simp only [List.append_nil] at hp
  exact hp

theorem answers_saPush_illegal (ha : s.st.sa = some a) (hx : HasChannel x ch)
    (hc : counterMismatch a ch.aduSegmentCount = none) {m : MessageId}
    (h : IllegalCell a.state (role ch) m) :
    Answers (.saPush x) s { s.st with sa := some (accError a) } [6, 0, messageCode m] := by
  have hp := answers_saPush hx.1 ha (accPush_illegal (aduChannel_of_hasChannel hx) hc h)
  simp only [illegalPush, List.append_nil] at hp
  exact hp

end SaPush

/-- Settles O34: the four accepting cells of R255, R256 and R261. -/
theorem saPushAcceptsLegalSegments : Obligations.SaPushAcceptsLegalSegments := by
  intro s a x ch ha hx hc after
  have accepts : ∀ {r next}, ch.aduSegmentFlag = roleCode r → AcceptingCell a.state r next →
      AnswersOk (.saPush x) s (after next (keptFragments a ++ [x])) [] := by
    intro r next hr hcell
    rw [← role_eq_iff.2 hr] at hcell
    exact answersOk_saPush_accepted ha hx (counterMismatch_eq_none hc) hcell
  constructor
  · intro hs
    have hne : a.state ≠ .assembling := (ne_of_empty_or_error hs).1
    rw [keptFragments_of_ne hne] at accepts
    exact ⟨fun hf => accepts (r := .unsegmented) hf ((acceptingCell_complete_of_ne hne).2 rfl),
      fun hf => accepts (r := .first) hf ((acceptingCell_assembling_of_ne hne).2 rfl)⟩
  · intro hs
    rw [keptFragments_of_assembling hs, hs] at accepts
    exact ⟨fun hf => accepts (r := .continuation) hf (acceptingCell_assembling_assembling.2 rfl),
      fun hf => accepts (r := .last) hf (acceptingCell_assembling_complete.2 rfl)⟩

/-- Settles O35: the push is that of the emptied accumulator, and keeps at most its own packet. -/
theorem saPushTakesCompleteAsEmpty : Obligations.SaPushTakesCompleteAsEmpty := by
  intro s a x ch ha hs hx
  have hc := aduChannel_of_hasChannel hx
  have hne : a.state ≠ .assembling := by rw [hs]; nofun
  obtain ⟨p, hp⟩ := accPush_isSome (a := a) hc
  have hp' : accPush (accEmptied a) x = some p := (accPush_accEmptied hne x).trans hp
  obtain ⟨hlog, hfr⟩ := accPush_of_ne_assembling hc hp hne
  constructor
  · rw [exec_eq, exec_eq, commandOutcome_saPush hx.1 ha hp]
    rw [commandOutcome_saPush (a := accEmptied a) hx.1 rfl hp']
    rfl
  · have h := answers_saPush hx.1 ha hp
    rw [hlog, List.append_nil] at h
    exact ⟨p.acc, _, h, hfr⟩

/-- Settles O36: the four illegal cells of R257 to R260. -/
theorem saPushRejectsIllegalSegments : Obligations.SaPushRejectsIllegalSegments := by
  intro s a x ch ha hx hc after
  have rejects : ∀ {r m}, ch.aduSegmentFlag = roleCode r → IllegalCell a.state r m →
      Answers (.saPush x) s after [6, 0, messageCode m] := by
    intro r m hr hcell
    rw [← role_eq_iff.2 hr] at hcell
    exact answers_saPush_illegal ha hx (counterMismatch_eq_none hc) hcell
  refine ⟨fun hs => ⟨fun hf => ?_, fun hf => ?_⟩, fun hs => ⟨fun hf => ?_, fun hf => ?_⟩⟩
  · exact rejects (r := .continuation) hf (.inl ⟨hs, rfl, rfl⟩)
  · exact rejects (r := .last) hf (.inr (.inl ⟨hs, rfl, rfl⟩))
  · exact rejects (r := .unsegmented) hf (.inr (.inr (.inl ⟨hs, rfl, rfl⟩)))
  · exact rejects (r := .first) hf (.inr (.inr (.inr ⟨hs, rfl, rfl⟩)))

/-- Settles O37: the counter check comes before the table. -/
theorem saPushDetectsDiscontinuity : Obligations.SaPushDetectsDiscontinuity := by
  intro s a x ch e r ha hx hw hs he hne hr
  have hm : counterMismatch a ch.aduSegmentCount = some e :=
    counterMismatch_eq_some.2 ⟨hw, hs, he, hne⟩
  have h := answers_saPush hx.1 ha (accPush_discontinuity (aduChannel_of_hasChannel hx) hm)
  rw [role_eq_iff.2 hr.symm, discontinuityPush, previousCount_eq] at h
  exact h

/-- Settles O40: finalize answers an ADU from Complete only. -/
theorem saFinalizeBeforeCompletionFails : Obligations.SaFinalizeBeforeCompletionFails := by
  intro s a ha hs
  have h : commandOutcome .saFinalize s.st = (s.st, .error (raised .notComplete)) := by
    simp only [commandOutcome, saFinalize, ha, accFinalize_of_ne hs]
  exact answers_of_outcome h

end Sys2Proof.Machine

/-! ### Proofs: sequences of pushes that form one ADU (44_segment_accumulator.md R270, R271)

One step of the sequence in terms of the transition table, then an induction over the packets that
follow a First; and, by the same step, the fragments that are left at the end. -/

namespace Sys2Proof.Machine

/-! #### One accepted push -/

/-- Only a push without an error answers the OK frame (30_encoding.md R123). -/
theorem responseFrame_pushReply_eq_ok_iff (p : PushResult) :
    responseFrame (pushReply p) = [0, 0, 0] ↔ p.error = none := by
  unfold pushReply
  rcases p.error with _ | ⟨kind, m⟩
  · exact ⟨fun _ => rfl, fun _ => rfl⟩
  · cases kind <;> simp [responseFrame, errorCode]

theorem pushOk_eq {s : State} {a : Accumulator} {x : SpacePacket} {p : PushResult}
    (hw : x.wellFormed = true) (ha : s.st.sa = some a) (hp : accPush a x = some p) :
    pushOk s x = if p.error = none then
      some (complete s { s.st with sa := some p.acc, diagLog := s.st.diagLog ++ p.log }
        (pushReply p)) else none := by
  simp only [pushOk, exec_eq, commandOutcome_saPush hw ha hp, complete_responsePort,
    List.append_cancel_left_eq, List.cons.injEq, and_true, responseFrame_pushReply_eq_ok_iff]

/-- The state after SA_PUSH has accepted the segment `x` with the count `c`. -/
def stateAccepted (s : State) (a : Accumulator) (x : SpacePacket) (next : AccState)
    (c : SegmentCount) : State :=
  complete s { s.st with sa := some (accAccepted a x next c) } (.ok [])

@[simp] theorem stateAccepted_sa (s : State) (a : Accumulator) (x : SpacePacket) (next : AccState)
    (c : SegmentCount) : (stateAccepted s a x next c).st.sa = some (accAccepted a x next c) := rfl

@[simp] theorem saState_stateAccepted (s : State) (a : Accumulator) (x : SpacePacket)
    (next : AccState) (c : SegmentCount) : saState (stateAccepted s a x next c) = some next := rfl

/-- A push is answered OK exactly in an accepting cell whose counter check passes (R266). -/
theorem pushOk_eq_some_iff {s t : State} {a : Accumulator} {x : SpacePacket} {ch : AduChannel}
    (ha : s.st.sa = some a) (hx : HasChannel x ch) :
    pushOk s x = some t ↔ counterMismatch a ch.aduSegmentCount = none ∧
      ∃ next, AcceptingCell a.state (role ch) next ∧
        t = stateAccepted s a x next ch.aduSegmentCount := by
  have hc := aduChannel_of_hasChannel hx
  have accepted : ∀ {next}, counterMismatch a ch.aduSegmentCount = none →
      AcceptingCell a.state (role ch) next →
      pushOk s x = some (stateAccepted s a x next ch.aduSegmentCount) := by
    intro next hm hcell
    rw [pushOk_eq hx.1 ha (accPush_accepted hc hm hcell), if_pos rfl, List.append_nil]
    rfl
  constructor
  · intro h
    obtain ⟨p, hp⟩ := accPush_isSome (a := a) hc
    rcases accPush_outcome hc hp with ⟨hm, next, hcell, -⟩ | ⟨m, -, rfl⟩ | ⟨e, -, -, rfl⟩
    · exact ⟨hm, next, hcell, Option.some.inj (h.symm.trans (accepted hm hcell))⟩
    · cases (pushOk_eq hx.1 ha hp).symm.trans h
    · cases (pushOk_eq hx.1 ha hp).symm.trans h
  · rintro ⟨hm, next, hcell, rfl⟩
    exact accepted hm hcell

/-! #### A sequence, by its first packet -/

theorem pushAllOk_cons {s t : State} {x : SpacePacket} (h : pushOk s x = some t)
    (xs : List SpacePacket) : pushAllOk s (x :: xs) = pushAllOk t xs := by
  rw [pushAllOk, h]

/-- No packets form an ADU only where one is formed already. -/
theorem formsOneAdu_nil_iff {s : State} : FormsOneAdu s [] ↔ saState s = some .complete := by
  constructor
  · rintro ⟨⟨t, ht, hs⟩, -⟩
    cases ht
    exact hs
  · intro hs
    exact ⟨⟨s, rfl, hs⟩, fun n h0 hn => absurd hn (Nat.not_lt_zero n)⟩

theorem formsOneAdu_cons_iff {s t : State} {x : SpacePacket} (h : pushOk s x = some t)
    (xs : List SpacePacket) : FormsOneAdu s (x :: xs) ↔
      FormsOneAdu t xs ∧ (xs ≠ [] → saState t ≠ some .complete) := by
  constructor
  · rintro ⟨⟨u, hu, hs⟩, hpre⟩
    rw [pushAllOk_cons h] at hu
    refine ⟨⟨⟨u, hu, hs⟩, fun n h0 hn v hv => ?_⟩, fun hne => ?_⟩
    · refine hpre (n + 1) n.succ_pos (Nat.succ_lt_succ hn) v ?_
      rw [List.take_succ_cons, pushAllOk_cons h, hv]
    · refine hpre 1 Nat.one_pos (Nat.succ_lt_succ (List.length_pos_of_ne_nil hne)) t ?_
      rw [List.take_succ_cons, pushAllOk_cons h]
      rfl
  · rintro ⟨⟨⟨u, hu, hs⟩, hpre⟩, hone⟩
    refine ⟨⟨u, (pushAllOk_cons h xs).trans hu, hs⟩, fun n h0 hn v hv => ?_⟩
    obtain ⟨m, rfl⟩ := Nat.exists_eq_succ_of_ne_zero h0.ne'
    rw [List.take_succ_cons, pushAllOk_cons h] at hv
    have hm : m < xs.length := Nat.lt_of_succ_lt_succ hn
    rcases m.eq_zero_or_pos with rfl | h0
    · cases hv
      exact hone (List.ne_nil_of_length_pos hm)
    · exact hpre m h0 hm v hv

/-- The packets form one ADU when the first of them is accepted and completes it alone, or leaves it
open for the others to complete. -/
theorem formsOneAdu_cons_cells {s : State} {a : Accumulator} {x : SpacePacket} {ch : AduChannel}
    (ha : s.st.sa = some a) (hx : HasChannel x ch) (xs : List SpacePacket) :
    FormsOneAdu s (x :: xs) ↔ counterMismatch a ch.aduSegmentCount = none ∧
      ((AcceptingCell a.state (role ch) .complete ∧ xs = []) ∨
       (AcceptingCell a.state (role ch) .assembling ∧
         FormsOneAdu (stateAccepted s a x .assembling ch.aduSegmentCount) xs)) := by
  have accepted : ∀ {next}, counterMismatch a ch.aduSegmentCount = none →
      AcceptingCell a.state (role ch) next →
      (FormsOneAdu s (x :: xs) ↔ FormsOneAdu (stateAccepted s a x next ch.aduSegmentCount) xs ∧
        (xs ≠ [] → next ≠ .complete)) := by
    intro next hm hcell
    simp only [formsOneAdu_cons_iff ((pushOk_eq_some_iff ha hx).2 ⟨hm, next, hcell, rfl⟩),
      saState_stateAccepted, ne_eq, Option.some.injEq]
  constructor
  · intro h
    obtain ⟨t, ht⟩ : ∃ t, pushOk s x = some t := by
      obtain ⟨⟨u, hu, -⟩, -⟩ := h
      rcases hp : pushOk s x with _ | t
      · rw [pushAllOk, hp] at hu
        cases hu
      · exact ⟨t, rfl⟩
    obtain ⟨hm, next, hcell, -⟩ := (pushOk_eq_some_iff ha hx).1 ht
    obtain ⟨hrest, hone⟩ := (accepted hm hcell).1 h
    refine ⟨hm, ?_⟩
    rcases hcell.next_eq with rfl | rfl
    · exact .inl ⟨hcell, by_contra fun hne => hone hne rfl⟩
    · exact .inr ⟨hcell, hrest⟩
  · rintro ⟨hm, ⟨hcell, rfl⟩ | ⟨hcell, hrest⟩⟩
    · exact (accepted hm hcell).2 ⟨formsOneAdu_nil_iff.2 rfl, fun hne => absurd rfl hne⟩
    · exact (accepted hm hcell).2 ⟨hrest, fun _ => nofun⟩

/-! #### The roles and counts of the sequence (R271) -/

/-- The roles that follow a First in the sequences of R271. -/
def ClosingRoles (rs : List SegmentRole) : Prop :=
  ∃ n, rs = List.replicate n .continuation ++ [.last]

theorem closingRoles_cons_iff {r : SegmentRole} {rs : List SegmentRole} :
    ClosingRoles (r :: rs) ↔ (r = .last ∧ rs = []) ∨ (r = .continuation ∧ ClosingRoles rs) := by
  constructor
  · rintro ⟨_ | n, h⟩
    · exact .inl (List.cons.inj h)
    · obtain ⟨hr, hrs⟩ := List.cons.inj h
      exact .inr ⟨hr, n, hrs⟩
  · rintro (⟨rfl, rfl⟩ | ⟨rfl, n, rfl⟩)
    · exact ⟨0, rfl⟩
    · exact ⟨n + 1, rfl⟩

theorem not_closingRoles_nil : ¬ClosingRoles [] := by
  rintro ⟨n, h⟩
  exact List.append_ne_nil_of_right_ne_nil _ (List.cons_ne_nil _ _) h.symm

theorem legalRoles_cons_iff {r : SegmentRole} {rs : List SegmentRole} :
    LegalRoles (r :: rs) ↔ (r = .unsegmented ∧ rs = []) ∨ (r = .first ∧ ClosingRoles rs) := by
  simp [LegalRoles, ClosingRoles]

theorem not_legalRoles_nil : ¬LegalRoles [] := by simp [LegalRoles]

theorem eq_nil_iff_roles_eq_nil {xs : List SpacePacket} {chs : List AduChannel}
    (h : List.Forall₂ HasChannel xs chs) : xs = [] ↔ chs.map role = [] := by
  rw [List.map_eq_nil_iff, ← List.length_eq_zero_iff, h.length_eq, List.length_eq_zero_iff]

/-- One count alone is consecutive. -/
theorem consecutive_of_roles_eq_nil (c : SegmentCount) {chs : List AduChannel}
    (h : chs.map role = []) : Consecutive (c :: chs.map AduChannel.aduSegmentCount) := by
  rw [List.map_eq_nil_iff.1 h]
  trivial

/-- In Assembling the packets form one ADU exactly when they are Continuations and a Last, and, with
watching on, their counts go on from the last one. -/
theorem formsOneAdu_assembling_iff {xs : List SpacePacket} {chs : List AduChannel}
    (hxs : List.Forall₂ HasChannel xs chs) {s : State} {a : Accumulator} {c : SegmentCount}
    (ha : s.st.sa = some a) (hs : a.state = .assembling)
    (he : a.expectedSegmentCount = some (c + 1)) :
    FormsOneAdu s xs ↔ ClosingRoles (chs.map role) ∧
      (a.watchSegmentCounter = true → Consecutive (c :: chs.map AduChannel.aduSegmentCount)) := by
  induction hxs generalizing s a c with
  | nil => simp [formsOneAdu_nil_iff, saState, ha, hs, not_closingRoles_nil]
  | @cons x ch xs chs hx hxs ih =>
    have hnil := eq_nil_iff_roles_eq_nil hxs
    have hone := consecutive_of_roles_eq_nil ch.aduSegmentCount (chs := chs)
    rw [formsOneAdu_cons_cells ha hx, counterMismatch_eq_none_iff hs he, hs,
      acceptingCell_assembling_complete, acceptingCell_assembling_assembling,
      ih (stateAccepted_sa ..) rfl rfl, hnil]
    simp only [List.map_cons, closingRoles_cons_iff, Consecutive, accAccepted]
    tauto

/-- From Empty or Error the packets form one ADU exactly when their roles are legal and, with
watching on, their counts are consecutive. -/
theorem formsOneAdu_iff {xs : List SpacePacket} {chs : List AduChannel}
    (hxs : List.Forall₂ HasChannel xs chs) {s : State} {a : Accumulator} (ha : s.st.sa = some a)
    (hs : a.state = .empty ∨ a.state = .error) :
    FormsOneAdu s xs ↔ LegalRoles (chs.map role) ∧
      (a.watchSegmentCounter = true → Consecutive (chs.map AduChannel.aduSegmentCount)) := by
  obtain ⟨hne, hnc⟩ := ne_of_empty_or_error hs
  cases hxs with
  | nil => simp [formsOneAdu_nil_iff, saState, ha, hnc, not_legalRoles_nil]
  | @cons x ch xs chs hx hxs =>
    have hnil := eq_nil_iff_roles_eq_nil hxs
    have hone := consecutive_of_roles_eq_nil ch.aduSegmentCount (chs := chs)
    rw [formsOneAdu_cons_cells ha hx, acceptingCell_complete_of_ne hne,
      acceptingCell_assembling_of_ne hne,
      formsOneAdu_assembling_iff hxs (stateAccepted_sa ..) rfl rfl, hnil]
    simp only [List.map_cons, legalRoles_cons_iff, counterMismatch_of_ne _ hne, accAccepted]
    tauto

/-! #### The ADU formed (R268) -/

/-- Packets that form one ADU leave the accumulator Complete, holding them after the fragments it
kept. -/
theorem pushAllOk_complete {xs : List SpacePacket} {chs : List AduChannel}
    (hxs : List.Forall₂ HasChannel xs chs) {s t : State} {a : Accumulator} (ha : s.st.sa = some a)
    (hs : a.state ≠ .complete) (hf : FormsOneAdu s xs) (ht : pushAllOk s xs = some t) :
    ∃ a', t.st.sa = some a' ∧ a'.state = .complete ∧
      a'.pendingFragments = keptFragments a ++ xs := by
  induction hxs generalizing s a with
  | nil => simp [formsOneAdu_nil_iff, saState, ha, hs] at hf
  | @cons x ch xs chs hx hxs ih =>
    obtain ⟨hm, ⟨hcell, rfl⟩ | ⟨hcell, hrest⟩⟩ := (formsOneAdu_cons_cells ha hx xs).1 hf
    all_goals rw [pushAllOk_cons ((pushOk_eq_some_iff ha hx).2 ⟨hm, _, hcell, rfl⟩)] at ht
    · cases ht
      exact ⟨_, rfl, rfl, rfl⟩
    · obtain ⟨a', ha', hs', hfr⟩ := ih (stateAccepted_sa s a x .assembling _) (nofun) hrest ht
      refine ⟨a', ha', hs', hfr.trans ?_⟩
      rw [keptFragments_of_assembling rfl, accAccepted, List.append_assoc]
      rfl

/-- Packets with the channels of a list, each with its own. -/
theorem forall₂_hasChannel {xs : List SpacePacket} (hw : ∀ x ∈ xs, x.wellFormed = true)
    {chs : List AduChannel} (h : xs.map aduChannel = chs.map some) :
    List.Forall₂ HasChannel xs chs := by
  induction xs generalizing chs with
  | nil =>
    cases List.map_eq_nil_iff.1 h.symm
    exact .nil
  | cons x xs ih =>
    rcases chs with _ | ⟨ch, chs⟩
    · cases h
    · obtain ⟨hx, hxs⟩ := List.cons.inj h
      obtain ⟨hwx, hwxs⟩ := List.forall_mem_cons.1 hw
      exact .cons (hasChannel_of_aduChannel hwx hx) (ih hwxs hxs)

/-- Settles O41: the roles and counts by `formsOneAdu_iff`; SA_FINALIZE then answers the payloads of
the fragments left, which are the packets pushed. -/
theorem oneAduIsFormedByLegalSequencesOnly : Obligations.OneAduIsFormedByLegalSequencesOnly := by
  intro s a xs ha hs hw chs hchs
  have hxs := forall₂_hasChannel hw hchs
  refine ⟨formsOneAdu_iff hxs ha hs, fun t hf ht => ?_⟩
  obtain ⟨hna, hnc⟩ := ne_of_empty_or_error hs
  obtain ⟨a', ha', hs', hfr⟩ := pushAllOk_complete hxs ha hnc hf ht
  rw [keptFragments_of_ne hna, List.nil_append] at hfr
  cases hxs with
  | nil => exact absurd ((formsOneAdu_iff .nil ha hs).1 hf).1 not_legalRoles_nil
  | cons hx hxs =>
    obtain ⟨-, sh, hsec, hch⟩ := hx
    obtain ⟨adu, len, hlen, rfl, hok⟩ :=
      saFinalizeAnswersTheAdu t a' _ _ sh _ ha' hs' hfr hsec hch
    exact ⟨_, _, len, hlen, rfl, hok⟩

end Sys2Proof.Machine

/-! ### Proofs: the Reassembler's pushes of a segment (45_reassembler.md R290 to R303)

The push runs the accumulator of the channel's slot; what it writes and answers follows from what
the accumulator's push does. Then what any command does to the queue, and leaves after an error. -/

namespace Sys2Proof.Machine

/-! #### The slot a push runs on (R297) -/

theorem slotOrNew_iff {b : Block} {k : ChannelId} {a : Accumulator} :
    SlotOrNew b k a ↔ channelOrNew b k = a := by
  unfold SlotOrNew channelOrNew
  rcases lookupChannel b.channels k with _ | c
  · simp [newAccumulator, rsWatchOf, eq_comm]
  · simp

theorem slotWritten_setChannel (t : List (ChannelId × Accumulator)) (k : ChannelId)
    (a : Accumulator) : SlotWritten t (setChannel t k a) k a :=
  ⟨lookupChannel_setChannel_self t k a, fun _ h => lookupChannel_setChannel_of_ne t a h,
    fun h => rising_setChannel h k a⟩

/-! #### Either push (R290, R291, R296) -/

theorem commandOutcome_of_pushes {i : Instr} {b : Block} {x : SpacePacket} {ch : AduChannel}
    {a : Accumulator} {p : PushResult} (hi : Pushes i x) (hx : HasChannel x ch)
    (happ : apidLow x.primary = b.cfg.appIdLow) (hb : SlotOrNew b ch.aduChannelId a)
    (hp : accPush a x = some p) :
    commandOutcome i b = rsAfterPush b ch.aduChannelId (role ch) p := by
  have h : rsPush x b = rsAfterPush b ch.aduChannelId (role ch) p := by
    simp only [rsPush, aduChannel_of_hasChannel hx, happ, slotOrNew_iff.1 hb, hp, ne_eq,
      not_true_eq_false, if_false]
  rcases hi with rfl | ⟨B, rfl, hB⟩
  · rw [commandOutcome, withPacket_of_wellFormed hx.1, h]
  · simp only [commandOutcome, rsPushBytes, hB, h]

/-! #### A push that completes an ADU (R268, R299) -/

theorem accFinalize_of_complete {a : Accumulator} (hs : a.state = .complete) {f : SpacePacket}
    {rest : List SpacePacket} (hfr : a.pendingFragments = f :: rest) {h : SecondaryHeader}
    (hsec : f.secondary = some h) {c : AduChannel} (hch : h.channel = some c) :
    accFinalize a = some
      ({ channelId := c.aduChannelId, category := h.category, packetType := f.primary.packetType,
         apidUpper := apidHigh f.primary, apidLower := apidLow f.primary, aduCount := h.aduCount,
         timeField := h.time, data := f.payload ++ rest.flatMap SpacePacket.payload },
       accEmptied a) := by
  simp only [accFinalize, hs, if_true, hfr, aduOfFragments, hsec, hch]
  rfl

/-- Settles O47: the accepting cells that leave Complete; the accumulator is finalized at once. -/
theorem rsPushCompletesAndQueuesAnAdu : Obligations.RsPushCompletesAndQueuesAnAdu := by
  intro s x f ch c h a rest hx happ hb hc hcases hsec hch
  obtain ⟨hcell, hfr⟩ : AcceptingCell a.state (role ch) .complete ∧
      keptFragments a ++ [x] = f :: rest := by
    rcases hcases with ⟨hs, hf, hfr⟩ | ⟨hs, hf, hfr⟩
    · exact ⟨(acceptingCell_complete_of_ne hs).2 (role_eq_iff.2 hf),
        by rw [keptFragments_of_ne hs, hfr, List.nil_append]⟩
    · rw [hs, keptFragments_of_assembling hs]
      exact ⟨acceptingCell_assembling_complete.2 (role_eq_iff.2 hf), hfr.symm⟩
  have hp := accPush_accepted (aduChannel_of_hasChannel hx) (counterMismatch_eq_none hc) hcell
  have hfin := accFinalize_of_complete (a := accAccepted a x .complete ch.aduSegmentCount) rfl hfr
    hsec hch
  have pushed : ∀ i, Pushes i x → AnswersOk i s _ [] := fun i hi => by
    have ho := commandOutcome_of_pushes hi hx happ hb hp
    simp only [rsAfterPush, hfin, List.append_nil] at ho
    exact answersOk_of_outcome ho
  exact ⟨_, slotWritten_setChannel .., pushed _ (.inl rfl),
    fun B hB => pushed _ (.inr ⟨B, rfl, hB⟩)⟩

/-! #### A push that ends in a segment error (R262, R263, R298) -/

theorem answers_rsPushPacket_error {s : State} {x : SpacePacket} {ch : AduChannel} {a : Accumulator}
    {p : PushResult} {kind : ErrorKind} {m : MessageId} (hx : HasChannel x ch)
    (happ : apidLow x.primary = s.st.cfg.appIdLow) (hb : SlotOrNew s.st ch.aduChannelId a)
    (hp : accPush a x = some p) (he : p.error = some (kind, m)) :
    Answers (.rsPushPacket x) s
      { s.st with
        channels := setChannel s.st.channels ch.aduChannelId p.acc
        diagLog := s.st.diagLog ++
          (p.log ++ [.reassemblyFailure ch.aduChannelId (role ch) kind m]) }
      [8, errorCode kind, messageCode m] := by
  have ho := commandOutcome_of_pushes (.inl rfl) hx happ hb hp
  simp only [rsAfterPush, he, List.append_assoc] at ho
  exact answers_of_outcome ho

/-- Settles O48: the accumulator's error, wrapped and logged once more. -/
theorem rsPushWrapsAndLogsSegmentErrors : Obligations.RsPushWrapsAndLogsSegmentErrors := by
  intro s x ch a r hx happ hb hr
  obtain rfl : role ch = r := role_eq_iff.2 hr.symm
  have hc := aduChannel_of_hasChannel hx
  refine ⟨_, slotWritten_setChannel .., fun e hw hs he hne => ?_, fun hadm m code hcases => ?_⟩
  · have hp := accPush_discontinuity hc (counterMismatch_eq_some.2 ⟨hw, hs, he, hne⟩)
    have h := answers_rsPushPacket_error hx happ hb hp rfl
    rw [discontinuityPush, previousCount_eq] at h
    exact h
  · obtain ⟨hcell, rfl⟩ : IllegalCell a.state (role ch) m ∧ code = messageCode m := by
      rcases hcases with ⟨hs, hr, rfl, rfl⟩ | ⟨hs, hr, rfl, rfl⟩ | ⟨hs, hr, rfl, rfl⟩ |
        ⟨hs, hr, rfl, rfl⟩
      · exact ⟨.inl ⟨hs, hr, rfl⟩, rfl⟩
      · exact ⟨.inr (.inl ⟨hs, hr, rfl⟩), rfl⟩
      · exact ⟨.inr (.inr (.inl ⟨hs, hr, rfl⟩)), rfl⟩
      · exact ⟨.inr (.inr (.inr ⟨hs, hr, rfl⟩)), rfl⟩
    have hp := accPush_illegal hc (counterMismatch_eq_none hadm) hcell
    exact answers_rsPushPacket_error hx happ hb hp rfl

/-! #### The queue (R299, R303) -/

theorem aduOfFragments_data {fs : List SpacePacket} {adu : Adu} (h : aduOfFragments fs = some adu) :
    adu.data = fs.flatMap SpacePacket.payload := by
  unfold aduOfFragments at h
  split at h
  · cases h
  · split at h
    · cases h
    · split at h
      · cases h
      · cases h
        rfl

/-- A push whose accumulator finalizes is of a segment that ends its ADU, whose payload is the last
part of the data (R268). -/
theorem accPush_adu {a a' : Accumulator} {x : SpacePacket} {ch : AduChannel} {p : PushResult}
    {adu : Adu} (hc : aduChannel x = some ch) (hp : accPush a x = some p)
    (hf : accFinalize p.acc = some (adu, a')) :
    (role ch = .last ∨ role ch = .unsegmented) ∧ ∃ front, adu.data = front ++ x.payload := by
  obtain ⟨hs, hadu, -⟩ := accFinalize_cases hf
  rcases accPush_outcome hc hp with ⟨-, next, hcell, rfl⟩ | ⟨m, -, rfl⟩ | ⟨e, -, -, rfl⟩
  · obtain rfl : next = .complete := hs
    refine ⟨hcell.role_of_complete, (keptFragments a).flatMap SpacePacket.payload, ?_⟩
    rw [aduOfFragments_data hadu, accAccepted, List.flatMap_append, List.flatMap_singleton]
  · cases hs
  · cases hs

/-- Settles O51: of the writes of a command only a completing push and a pop touch the queue. -/
theorem theQueueIsFirstInFirstOut : Obligations.TheQueueIsFirstInFirstOut := by
  intro i s t h
  rw [exec_next_iff] at h
  subst h
  simp only [complete_st, markRefusal_completedQueue]
  rcases commandOutcome_cases i s.st with ⟨r, h, -⟩ | ⟨k, w, -, h⟩ | ⟨x, a, p, -, -, -, -, h⟩ |
    ⟨a, adu, -, -, -, h⟩ | ⟨x, ch, p, hi, hw, hc, -, hp, h⟩ | ⟨adu, rest, hi, hq, h⟩ <;> rw [h]
  case inr.inr.inr.inr.inl =>
    rcases rsAfterPush_cases s.st ch.aduChannelId (role ch) p with
      ⟨kind, m, -, h⟩ | ⟨-, -, h⟩ | ⟨-, adu, hf, h⟩ <;> rw [h]
    · exact .inl rfl
    · exact .inl rfl
    · obtain ⟨hrole, front, hdata⟩ := accPush_adu hc hp hf
      rw [role_eq_iff, role_eq_iff] at hrole
      exact .inr (.inr ⟨x, ch, adu, front, hi, hasChannel_of_aduChannel hw hc, hrole, rfl, hdata⟩)
  case inr.inr.inr.inr.inr => exact .inr (.inl ⟨hi, adu, hq⟩)
  all_goals exact .inl rfl

/-! #### What an error leaves (60_exceptions.md R320, R327) -/

/-- The replies that keep no write: OK, an error that changes nothing, or a refusal, which sets the
mark. -/
theorem keepsNothing_status {r : Reply} (h : Reply.keepsNothing r = true) {status : Byte}
    (hs : (responseFrame r).head? = some status) (b : Block) :
    status = 0 ∨ (status.toNat ∈ [1, 2, 3, 4, 5, 9, 10] ∧ markRefusal b r = b) ∨
      (status = 255 ∧ markRefusal b r = { b with refused := true }) := by
  rcases r with (⟨kind, inner, m⟩ | reason) | B
  · obtain rfl : errorCode kind = status := Option.some.inj hs
    refine .inr (.inl ⟨?_, rfl⟩)
    cases kind
    case illegalSegmentTransition | segmentDiscontinuity | reassemblyError => cases h
    all_goals decide
  · exact .inr (.inr ⟨(Option.some.inj hs).symm, rfl⟩)
  · exact .inl (Option.some.inj hs).symm

theorem IllegalCell.message_toNat_mem {state : AccState} {r : SegmentRole} {m : MessageId}
    (h : IllegalCell state r m) : (messageCode m).toNat ∈ [1, 2, 3, 4] := by
  rcases h with ⟨-, -, rfl⟩ | ⟨-, -, rfl⟩ | ⟨-, -, rfl⟩ | ⟨-, -, rfl⟩ <;> decide

/-- Settles O57: by what the command writes. A push is accepted, or ends in one of the two segment
errors; every other command that does not answer OK keeps no write. -/
theorem writesKeptAfterAnError : Obligations.WritesKeptAfterAnError := by
  intro i s t frame status h hframe hstatus
  rw [exec_next_iff] at h
  subst h
  obtain rfl : responseFrame (commandOutcome i s.st).2 = frame := by
    simpa only [complete_responsePort, List.append_cancel_left_eq, List.cons.injEq, and_true]
      using hframe
  have ok : ∀ {b B}, commandOutcome i s.st = (b, .ok B) → status = 0 := by
    intro b B ho
    rw [ho] at hstatus
    exact (Option.some.inj hstatus).symm
  simp only [complete_st]
  rcases commandOutcome_cases i s.st with ⟨r, h, hr⟩ | ⟨k, w, -, h⟩ | ⟨x, a, p, hi, hw, ha, hp, h⟩ |
    ⟨a, adu, -, -, -, h⟩ | ⟨x, ch, p, hi, hw, hc, happ, hp, h⟩ | ⟨adu, rest, -, -, h⟩
  · rw [h] at hstatus ⊢
    rcases keepsNothing_status hr hstatus s.st with h0 | h1 | h255
    · exact .inl h0
    · exact .inr (.inl h1)
    · exact .inr (.inr (.inl h255))
  · exact .inl (ok h)
  · obtain ⟨ch, hc, -⟩ := accPush_cases hp
    have hx := hasChannel_of_aduChannel hw hc
    rcases accPush_outcome hc hp with ⟨-, next, -, rfl⟩ | ⟨m, hcell, rfl⟩ | ⟨e, -, he, rfl⟩
    · exact .inl (ok h)
    · rw [h]
      refine .inr (.inr (.inr (.inl ⟨x, ch, a, hi, hx, ha, .inl ⟨messageCode m,
        hcell.message_toNat_mem, rfl, ?_⟩⟩)))
      simp only [illegalPush, markRefusal_pushReply, List.append_nil]
      rfl
    · rw [h]
      refine .inr (.inr (.inr (.inl ⟨x, ch, a, hi, hx, ha, .inr ⟨role ch, e,
        roleCode_role ch, he, rfl, ?_⟩⟩)))
      simp only [discontinuityPush, markRefusal_pushReply, previousCount_eq]
      rfl
  · exact .inl (ok h)
  · have hx := hasChannel_of_aduChannel hw hc
    have hslot : SlotOrNew s.st ch.aduChannelId (channelOrNew s.st ch.aduChannelId) :=
      slotOrNew_iff.2 rfl
    rcases rsAfterPush_cases s.st ch.aduChannelId (role ch) p with
      ⟨kind, m, he, h'⟩ | ⟨-, -, h'⟩ | ⟨-, adu, -, h'⟩ <;> rw [h'] at h
    · rw [h]
      rcases accPush_outcome hc hp with ⟨-, next, -, rfl⟩ | ⟨m, hcell, rfl⟩ | ⟨e, -, hexp, rfl⟩ <;>
        cases he
      · exact .inr (.inr (.inr (.inr ⟨x, ch, _, _, role ch, _, m, 6, messageCode m, [], hi, hx,
          hslot, slotWritten_setChannel .., roleCode_role ch, rfl, rfl,
          .inl ⟨rfl, rfl, rfl, hcell.message_mem⟩⟩)))
      · exact .inr (.inr (.inr (.inr ⟨x, ch, _, _, role ch, _, _, 7, 5, _, hi, hx,
          hslot, slotWritten_setChannel .., roleCode_role ch, rfl, rfl,
          .inr ⟨rfl, rfl, rfl, rfl, e, hexp, previousCount_eq e ▸ rfl⟩⟩)))
    · exact .inl (ok h)
    · exact .inl (ok h)
  · exact .inl (ok h)

end Sys2Proof.Machine

/-! ### Proofs: the Reassembler's entry points and its queue (45_reassembler.md R290 to R304)

Both pushes come to `RSPush` of one packet, so a statement about either is one about `RSPush`; then
what no push and no other command touches, and the two commands of the queue. -/

namespace Sys2Proof.Machine

/-! #### Both pushes (R290 to R292) -/

/-- A push of a well-formed packet is `RSPush` of it, by either entry point. -/
theorem commandOutcome_eq_rsPush {i : Instr} {x : SpacePacket} (hi : Pushes i x)
    (hw : x.wellFormed = true) (b : Block) : commandOutcome i b = rsPush x b := by
  rcases hi with rfl | ⟨B, rfl, hB⟩
  · rw [commandOutcome, withPacket_of_wellFormed hw]
  · simp only [commandOutcome, rsPushBytes, hB]

/-- Settles O42: a decoded packet is well formed, so both pushes are `RSPush` of it. -/
theorem rsPushBytesPushesTheDecodedPacket : Obligations.RsPushBytesPushesTheDecodedPacket := by
  intro s B x hB
  have hw := spDecode_wellFormed hB
  rw [exec_eq, exec_eq, commandOutcome_eq_rsPush (.inr ⟨B, rfl, hB⟩) hw,
    commandOutcome_eq_rsPush (.inl rfl) hw]

/-! #### Packets rejected without a write (R291, R295) -/

theorem answers_rsPushBytes_raised {s : State} {B : Bytes} {k : ErrorKind}
    (h : spDecode B = .error (raised k)) :
    Answers (.rsPushBytes B) s s.st [4, errorCode k, 0] := by
  have outcome : commandOutcome (.rsPushBytes B) s.st =
      (s.st, .error (.raise .malformedPacket (some k) .noMessage)) := by
    simp only [commandOutcome, rsPushBytes, h, raised]
  exact answers_of_outcome outcome

/-- With the flag set, bytes too few for the secondary header they begin are `HeaderTooShort`
(R228). -/
theorem spDecode_of_headerTooShort {b0 : Byte} (b1 b2 b3 b4 b5 : Byte) (hf : b0.getLsbD 3 = true)
    {rest : Bytes} (h : rest.length < 6 ∨ rest.length < 9 ∧ (rest.getD 4 0).getLsbD 7 = true) :
    spDecode (b0 :: b1 :: b2 :: b3 :: b4 :: b5 :: rest) = .error (raised .headerTooShort) := by
  have short : rest.length < 6 ∨ field rest 32 1 = 1 ∧ rest.length < 9 :=
    h.imp_right fun ⟨h9, ht⟩ => ⟨(field_type rest).trans (congrArg Bool.toNat ht), h9⟩
  rw [spDecode_eq_map_shDecode b1 b2 b3 b4 b5 hf, shDecode_of_headerTooShort le_rfl short]
  rfl

/-- Settles O43: the two errors of SP_DECODE, wrapped. -/
theorem rsPushBytesWrapsCodecErrors : Obligations.RsPushBytesWrapsCodecErrors := by
  intro s
  refine ⟨fun B hB => ?_, fun b0 b1 b2 b3 b4 b5 rest hf hs => ?_⟩
  · exact answers_rsPushBytes_raised (k := .notASpacePacket) (if_pos hB)
  · exact answers_rsPushBytes_raised (spDecode_of_headerTooShort b1 b2 b3 b4 b5 hf hs)

theorem rsPush_of_otherApplication {x : SpacePacket} {ch : AduChannel} {b : Block}
    (hc : aduChannel x = some ch) (happ : apidLow x.primary ≠ b.cfg.appIdLow) :
    rsPush x b = (b, .error (raised .channelMismatch)) := by
  simp only [rsPush, hc, if_pos happ]

/-- Settles O44: `RSPush` tests the APID before it looks at the table. -/
theorem rsRejectsAnotherApplication : Obligations.RsRejectsAnotherApplication := by
  intro s x ch hx happ
  have rejected : ∀ i, Pushes i x → Answers i s s.st [5, 0, 0] := fun i hi => by
    have ho := commandOutcome_eq_rsPush hi hx.1 s.st
    rw [rsPush_of_otherApplication (aduChannel_of_hasChannel hx) happ] at ho
    exact answers_of_outcome ho
  exact ⟨rejected _ (.inl rfl), fun B hB => rejected _ (.inr ⟨B, rfl, hB⟩)⟩

/-! #### A push that leaves its ADU open (R297, R300) -/

/-- Settles O46: the accepting cells that leave Assembling; there is nothing to finalize. -/
theorem rsPushOpensOrExtendsAnAdu : Obligations.RsPushOpensOrExtendsAnAdu := by
  intro s x ch a hx happ hb hc fragments hcases
  obtain ⟨hcell, rfl⟩ : AcceptingCell a.state (role ch) .assembling ∧
      fragments = keptFragments a ++ [x] := by
    rcases hcases with ⟨hs, hf, hfr⟩ | ⟨hs, hf, hfr⟩
    · exact ⟨(acceptingCell_assembling_of_ne hs).2 (role_eq_iff.2 hf),
        by rw [keptFragments_of_ne hs, hfr, List.nil_append]⟩
    · rw [hs, keptFragments_of_assembling hs]
      exact ⟨acceptingCell_assembling_assembling.2 (role_eq_iff.2 hf), hfr⟩
  have hp := accPush_accepted (aduChannel_of_hasChannel hx) (counterMismatch_eq_none hc) hcell
  have hfin : accFinalize (accAccepted a x .assembling ch.aduSegmentCount) = none :=
    accFinalize_of_ne nofun
  have pushed : ∀ i, Pushes i x → AnswersOk i s _ [] := fun i hi => by
    have ho := commandOutcome_of_pushes hi hx happ hb hp
    simp only [rsAfterPush, hfin, List.append_nil] at ho
    exact answersOk_of_outcome ho
  exact ⟨_, slotWritten_setChannel .., pushed _ (.inl rfl),
    fun B hB => pushed _ (.inr ⟨B, rfl, hB⟩)⟩

/-! #### The slots a command leaves alone (R304) -/

/-- A push writes one slot of the table, whichever way it ends. -/
theorem rsAfterPush_channels (b : Block) (k : ChannelId) (r : SegmentRole) (p : PushResult) :
    ∃ a, (rsAfterPush b k r p).1.channels = setChannel b.channels k a := by
  rcases rsAfterPush_cases b k r p with ⟨_, _, -, h⟩ | ⟨-, -, h⟩ | ⟨-, _, -, h⟩ <;> rw [h]
  · exact ⟨_, rfl⟩
  · exact ⟨_, rfl⟩
  · exact ⟨_, rfl⟩

/-- The table after a command is the table before it, but for the slot of the packet it pushes. -/
theorem commandOutcome_channels (i : Instr) (b : Block) :
    (commandOutcome i b).1.channels = b.channels ∨
    ∃ x ch a, Pushes i x ∧ aduChannel x = some ch ∧
      (commandOutcome i b).1.channels = setChannel b.channels ch.aduChannelId a := by
  rcases commandOutcome_cases i b with ⟨r, h, -⟩ | ⟨k, w, -, h⟩ | ⟨x, a, p, -, -, -, -, h⟩ |
    ⟨a, adu, -, -, -, h⟩ | ⟨x, ch, p, hi, -, hc, -, -, h⟩ | ⟨adu, rest, -, -, h⟩ <;> rw [h]
  case inr.inr.inr.inr.inl =>
    obtain ⟨a, ha⟩ := rsAfterPush_channels b ch.aduChannelId (role ch) p
    exact .inr ⟨x, ch, a, hi, hc, ha⟩
  all_goals exact .inl rfl

/-- Settles O52: the one slot a command can write is not slot `j`. -/
theorem channelsAreIndependent : Obligations.ChannelsAreIndependent := by
  intro i s t h j hj
  rw [exec_next_iff] at h
  subst h
  rw [complete_st, markRefusal_channels]
  rcases commandOutcome_channels i s.st with h | ⟨x, ch, a, hi, hc, h⟩ <;> rw [h]
  refine lookupChannel_setChannel_of_ne _ a fun hk => hj x hi ?_
  rw [hc, Option.map_some, hk]

/-! #### The queue's commands (R301, R302) -/

/-- Settles O49: the answer is the byte of the test, in every state. -/
theorem rsHasCompletedTestsTheQueue : Obligations.RsHasCompletedTestsTheQueue := by
  intro s
  have hv : boolByte (!s.st.completedQueue.isEmpty) =
      if s.st.completedQueue = [] then 0 else 1 := by
    rcases s.st.completedQueue with _ | ⟨adu, rest⟩ <;> rfl
  rw [← hv]
  exact answersOk_of_outcome rfl

/-- Settles O50: by the queue, whose head is answered as an ADU block. -/
theorem rsPopCompletedTakesTheOldest : Obligations.RsPopCompletedTakesTheOldest := by
  refine fun s => ⟨fun adu rest hq => ?_, fun hq => ?_⟩
  · refine ⟨_, dataLength_seqLength adu, ?_⟩
    rw [← aduBlock_eq_aduResult]
    apply answersOk_of_outcome
    simp only [commandOutcome, rsPopCompleted, hq]
  · have h : commandOutcome .rsPopCompleted s.st = (s.st, .error (raised .noCompletedAdu)) := by
      simp only [commandOutcome, rsPopCompleted, hq]
    exact answers_of_outcome h

end Sys2Proof.Machine
